-- ==== Sys2Proof/Word.lean ====
section
/-! DEFINITION. The word types of APC: bytes of memory, 16-bit samples, code words and storage units, 32-bit registers. -/

namespace Sys2Proof

/-- One byte of memory (10_state.md R45). -/
abbrev Byte := BitVec 8

/-- A halfword: a sample, a code word right-aligned, or a storage unit (20_memory.md R54). -/
abbrev Half := BitVec 16

/-- A 32-bit register, command word or memory address (10_state.md R22, 00_scope.md R8). -/
abbrev Word := BitVec 32

end Sys2Proof
end

