-- ==== Sys2Proof/Config.lean ====
section
/-! DEFINITION. The parameters of 00_scope.md R9 and the free values: every value the spec leaves open, as an
uninterpreted constant. Nothing in Lean can evaluate one, so a theorem about the model holds whatever they are. -/

namespace Sys2Proof

/-- The parameters a build of the hardware fixes (00_scope.md R9, 93_implementation_defined.md section 2).
BUS_PROTOCOL and LATENCY are not modelled there. -/
structure Params where
  /-- RANGE_CHECK: CFG also makes the margin-range check (41_profile.md R124). -/
  rangeCheck : Bool
  /-- MEM_ERRORS: the memory port can refuse an access (60_exceptions.md R214). -/
  memErrors : Bool
  /-- REG_BASE: the base address of the register window in the host's address map (20_memory.md R50). -/
  regBase : Nat
deriving DecidableEq, Repr, Inhabited

namespace Config

/-- The parameters of this build, left open (92_eei_decisions.md D5, D17, D28). DESIGN CHOICE (log 1). -/
opaque params : Params

/-! Free values (DESIGN CHOICE, log 3). The first argument is `State.draws`, the number of the step that draws. -/

/-- Any register-field values, for reads while Busy (40_command_cycle.md R106, U2). -/
opaque freeWord : Nat → Word
/-- Any halfword, for DOUT read while Busy (R106, U2). -/
opaque freeDout : Nat → Half
/-- Any single flag read while Busy (R106, U2). -/
opaque freeFlag : Nat → Bool
/-- Any PROFILE.OUTBIT read while a CFG is Busy (R106, U2). -/
opaque freeOutbit : Nat → BitVec 5
/-- Any PROFILE.MANT read while a CFG is Busy (R106, U2). -/
opaque freeMant : Nat → BitVec 5
/-- Any PROFILE.QUANT read while a CFG is Busy (R106, U2). -/
opaque freeQuant : Nat → BitVec 4
/-- Any PROFILE.MARGIN read while a CFG is Busy (R106, U2). -/
opaque freeMargin : Nat → BitVec 5
/-- Any GROUP.UNITS read while a CFG is Busy (R106, U2). -/
opaque freeUnits : Nat → BitVec 5
/-- Any GROUP.WORDS read while a CFG is Busy (R106, U2). -/
opaque freeWords : Nat → BitVec 5

/-- How far an aborted command got: js (40_command_cycle.md R101, U6), taken modulo ng + 1. -/
opaque freeAbortGroup : Nat → Nat
/-- Which group's access the bus refuses: jf (R103, U7), taken modulo ng + 1; the value ng is "none fails". -/
opaque freeBusGroup : Nat → Nat
/-- With an abort request and MEM_ERRORS = 1, whether the step takes the outcome of R103 instead of R101's. -/
opaque freeTakeBus : Nat → Bool
/-- The halfword at an index of the failing group's destination (R103, U8). -/
opaque freeBusHalf : Nat → Nat → Half
/-- The halfword at an index of the destination of a command that a reset cut (R104, U9). -/
opaque freeCutHalf : Nat → Nat → Half

/-- Whether PAD keeps the host's value after a PACK (70_reset_and_hazards.md R246, U3). -/
opaque freePadIsHosts : Nat → Bool
/-- SATCNT after a host write while an ENC or ENCBUF runs (R246, U4), taken modulo its bound + 1. -/
opaque freeSatcnt : Nat → Nat
/-- SAT after a host clear while a saturating ENC or ENCBUF runs (R246, U5). -/
opaque freeSat : Nat → Bool

/-- Whether a register access took effect before the reset that met it (R243, U12). -/
opaque freeAccessFirst : Nat → Bool

end Config

end Sys2Proof
end

