-- ==== Sys2Proof/Machine/Event.lean ====
section
/-! DEFINITION. What the host and the environment can do: the steps of 40_command_cycle.md R107 that are not the
engine's, as data. -/

namespace Sys2Proof.Machine

/-- The 16 registers of the register window (10_state.md R22). -/
inductive Reg where
  | id | param | ctrl | status | cmd | profileCfg | profile | group
  | src | dst | count | pad | outlen | din | dout | satcnt
deriving DecidableEq, Repr

/-- A host access to the register port. `width` is the access size in bits and `addr` its address in the host's
address map; only 32-bit accesses to a register's address are inside the spec (20_memory.md R50). -/
inductive RegAccess where
  | read (width addr : Nat)
  | write (width addr : Nat) (value : Word)
deriving DecidableEq, Repr

/-- A host access to memory, by byte or by little-endian halfword (20_memory.md R51, R53; MW16 and MR16 of
30_encoding.md R84). -/
inductive MemAccess where
  | readByte (addr : Word)
  | writeByte (addr : Word) (value : Byte)
  | readHalf (addr : Word)
  | writeHalf (addr : Word) (value : Half)
deriving DecidableEq, Repr

/-- One thing that happens outside the engine, or a turn given to the engine (40_command_cycle.md R107; log 2). -/
inductive Event where
  /-- The host makes a register access. -/
  | reg (access : RegAccess)
  /-- The host makes a memory access. -/
  | mem (access : MemAccess)
  /-- The engine takes its step, if it is Busy, before the events that follow. -/
  | engineTurn
  /-- The reset input is asserted (R105). -/
  | reset
  /-- The reset input is asserted during a register access (70_reset_and_hazards.md R243, U12). -/
  | resetDuring (access : RegAccess)
deriving DecidableEq, Repr

/-- The value a host read returned. -/
inductive Reply where
  | reg (value : Word)
  | byte (value : Byte)
  | half (value : Half)
deriving DecidableEq, Repr

end Sys2Proof.Machine
end

