-- ==== Sys2Proof/Syntax.lean ====
section
/-! DEFINITION. The commands of APC: one constructor per row of spec/opcode_table.json. -/

namespace Sys2Proof

/-- A command (30_encoding.md R71). A command word has no operand fields: "There are no immediate fields: every
operand is in a register" (R70), so no constructor has an argument. A word that is none of the seven is illegal
(R81), which is no command: see `Machine.execIllegal`. -/
inductive Instr where
  /-- Build and activate a profile (41_profile.md R129). -/
  | cfg
  /-- Encode one sample (42_codec.md R150). -/
  | enc
  /-- Decode one code word (42_codec.md R151). -/
  | dec
  /-- Encode a buffer of samples (42_codec.md R153). -/
  | encbuf
  /-- Decode a buffer of code words (42_codec.md R156). -/
  | decbuf
  /-- Pack code words into storage units (43_packer.md R184). -/
  | pack
  /-- Unpack storage units into code words (43_packer.md R188). -/
  | unpack
deriving DecidableEq, Repr

end Sys2Proof
end

