-- ==== Sys2Proof/WellFormed.lean ====
section
/-! DEFINITION. Well-formedness: of a command, which has no field to check, and of a host register access. -/

namespace Sys2Proof

/-- Every command is well formed: it has no operand (30_encoding.md R70, R72), so there is nothing to check. -/
abbrev Instr.wf : Instr → Bool
  | .cfg | .enc | .dec | .encbuf | .decbuf | .pack | .unpack => true

namespace Machine

/-- "Every access is a 32-bit access at an offset that is a multiple of 4 in 0x00..0x3C" (20_memory.md R50), for an
access of `width` bits at `addr` with the window at `base`. -/
abbrev RegAccess.wfAt (base width addr : Nat) : Bool :=
  width == 32 && Nat.ble base addr && Nat.ble (addr - base) 0x3C && (addr - base) % 4 == 0

/-- The access is one the spec allows (20_memory.md R50). -/
abbrev RegAccess.wf (base : Nat) : RegAccess → Bool
  | .read width addr => RegAccess.wfAt base width addr
  | .write width addr _ => RegAccess.wfAt base width addr

end Machine

end Sys2Proof
end

