-- ==== Sys2Proof/Decode.lean ====
section
/-! DEFINITION. The command word: its decoder, total on every 32-bit word and rejecting by name, and its encoder
(30_encoding.md R70, R71, R81, R82). -/

namespace Sys2Proof

/-- Why a command word is illegal (30_encoding.md R81). -/
inductive DecodeError where
  /-- RSVD, bits 31:8, is not 0. -/
  | reservedBitsSet
  /-- RSVD is 0 and OPCODE is 0x00 or one of 0x08..0xFF. -/
  | noSuchOpcode (opcode : BitVec 8)
deriving DecidableEq, Repr

/-- OPCODE, bits 7:0 of a command word (30_encoding.md R70). -/
def opcodeField (w : Word) : BitVec 8 := w.extractLsb' 0 8

/-- RSVD, bits 31:8 of a command word (30_encoding.md R70). -/
def rsvdField (w : Word) : BitVec 24 := w.extractLsb' 8 24

/-- The opcode map of 30_encoding.md R71. -/
def opcodeMap (opcode : BitVec 8) : Option Instr :=
  match opcode.toNat with
  | 0x01 => some .cfg
  | 0x02 => some .enc
  | 0x03 => some .dec
  | 0x04 => some .encbuf
  | 0x05 => some .decbuf
  | 0x06 => some .pack
  | 0x07 => some .unpack
  | _ => none

/-- Decode a command word: a command "only when RSVD = 0 and OPCODE is one of these values" (30_encoding.md R71);
every other word is illegal (R81, R82). -/
def decode (w : Word) : Except DecodeError Instr :=
  if rsvdField w = 0 then
    match opcodeMap (opcodeField w) with
    | some i => .ok i
    | none => .error (.noSuchOpcode (opcodeField w))
  else .error .reservedBitsSet

/-- The opcode of a command (30_encoding.md R71). -/
def opcodeOf : Instr → BitVec 8
  | .cfg => 0x01
  | .enc => 0x02
  | .dec => 0x03
  | .encbuf => 0x04
  | .decbuf => 0x05
  | .pack => 0x06
  | .unpack => 0x07

/-- The command word of a command: RSVD = 0, then OPCODE (30_encoding.md R70, R71). -/
def encode (i : Instr) : Word := (0#24 ++ opcodeOf i : BitVec 32)

/-- The command of an instruction of `nbits` bits that are `w`, as spec/opcode_table.json numbers them; the bits
above `nbits` are 0. None where the decoder rejects it, or where it is wider than a command word. -/
def decodeTableWord (nbits w : Nat) : Option Instr :=
  let v := w % 2 ^ nbits
  if v < 2 ^ 32 then
    match decode (BitVec.ofNat 32 v) with
    | .ok i => some i
    | .error _ => none
  else none

end Sys2Proof
end

