-- ==== Sys2Proof/Machine/State.lean ====
section
/-! DEFINITION. The state of APC (10_state.md R46), the reasons a step can stop, and the state after reset (R47). -/

namespace Sys2Proof.Machine

/-- Memory, as the bytes that differ from what an unlisted address reads as, by rising address
(`Memory.wf`, `Memory.unlisted` in Machine/Ops.lean). -/
abbrev Memory := List Host.Cell

/-- The engine's phase (10_state.md R43). STATUS.BUSY is 1 exactly when it is `busy`. -/
inductive Phase where
  | idle
  | busy
deriving DecidableEq, Repr

/-- The error codes of 60_exceptions.md R210 (`none` is "the command completed in full"). Codes 10..15 are never
written. -/
inductive ErrCode where
  | none | illegal | config | noprofile | align | range | stream | overlap | bus | aborted
deriving DecidableEq, Repr

/-- The fields of PROFILE_CFG (10_state.md R28). They "hold any value written". -/
structure ProfileCfg where
  outbit : BitVec 5
  mant : BitVec 5
  quant : BitVec 4
deriving DecidableEq, Repr

/-- The fields of PROFILE (10_state.md R29). -/
structure Profile where
  outbit : BitVec 5
  mant : BitVec 5
  quant : BitVec 4
  margin : BitVec 5
deriving DecidableEq, Repr

/-- The fields of GROUP (10_state.md R30). -/
structure Group where
  units : BitVec 5
  words : BitVec 5
deriving DecidableEq, Repr

/-- The latched command record (10_state.md R43, 40_command_cycle.md R91). -/
structure Command where
  word : Word
  src : Word
  dst : Word
  count : Word
  pad : Word
  din : Half
  cfg : ProfileCfg
deriving DecidableEq, Repr

/-- The MODEL's own record of host writes that meet a running command (70_reset_and_hazards.md R246; log 10). -/
structure Hazard where
  /-- The host wrote PAD while the running PACK runs (U3). -/
  padWritten : Bool
  /-- The host cleared SAT while the running ENC or ENCBUF runs (U5). -/
  satCleared : Bool
  /-- SATCNT as it was before the host cleared it while the running ENC or ENCBUF runs (U4). -/
  satcntBefore : Option Word
deriving DecidableEq, Repr

/-- The state of APC and its memory (10_state.md R46), the parameters (00_scope.md R9), and the model's own fields:
what the outside does next, what its reads returned, hazards met, and the number of the step. -/
structure State where
  /-- The parameters, which no step changes (log 1). -/
  params : Params
  ieDone : Bool
  ieErr : Bool
  done : Bool
  sat : Bool
  ovr : Bool
  pvalid : Bool
  err : BitVec 4
  profileCfg : ProfileCfg
  profile : Profile
  group : Group
  src : Word
  dst : Word
  count : Word
  pad : Word
  outlen : Word
  satcnt : Word
  din : Half
  dout : Half
  phase : Phase
  cmd : Command
  abortReq : Bool
  mem : Memory
  /-- MODEL: what the host and the environment do next, oldest first (log 2). -/
  pending : List Event
  /-- MODEL: the values the host's reads returned, newest first (log 6). -/
  replies : List Reply
  /-- MODEL: host writes that met the running command (log 10). -/
  hazard : Hazard
  /-- MODEL: the number of steps taken, which indexes the free values (log 3). -/
  draws : Nat
deriving DecidableEq, Repr

/-- Why the machine stops. -/
inductive Fault where
  /-- Raised by a host memory access that touches a range the running command owns: the fault HAZARD of
  20_memory.md R63 and 93_implementation_defined.md section 4. Safe: the model stops where a program broke the rule. -/
  | hazard
  /-- Raised by a host halfword access at 0xFFFFFFFF, whose second byte lies outside the 2^32 bytes of memory
  (10_state.md R45; log 13). Safe. -/
  | outsideMemory
deriving DecidableEq, Repr

/-- What the model does not accept. -/
inductive Refusal where
  /-- Raised by an arm of `exec` whose command has no meaning yet; no arm is left so. Safe. -/
  | notModelled (mnemonic : String)
  /-- Raised by a register access of another width than 32 bits or at an address that is no register's: "outside
  this spec, and a model refuses it" (20_memory.md R50, U13). Safe. -/
  | badRegisterAccess
deriving DecidableEq, Repr

/-- APC right after reset: 10_state.md R47 for every register field, the phase and `abortReq`. The parameters are
open (log 1). `cmd`, which R47 leaves unspecified and which is never read while Idle, is all zeros (DESIGN CHOICE,
log 4). Memory lists nothing (DESIGN CHOICE, log 5). The outside has done nothing yet (log 7). -/
def State.reset : State where
  params := Config.params
  ieDone := false
  ieErr := false
  done := false
  sat := false
  ovr := false
  pvalid := false
  err := 0
  profileCfg := ⟨0, 0, 0⟩
  profile := ⟨0, 0, 0, 0⟩
  group := ⟨0, 0⟩
  src := 0
  dst := 0
  count := 0
  pad := 0
  outlen := 0
  satcnt := 0
  din := 0
  dout := 0
  phase := .idle
  cmd := ⟨0, 0, 0, 0, 0, 0, ⟨0, 0, 0⟩⟩
  abortReq := false
  mem := []
  pending := []
  replies := []
  hazard := ⟨false, false, none⟩
  draws := 0

end Sys2Proof.Machine
end

