-- ==== Sys2Proof/Machine/Flags.lean ====
section
/-! DEFINITION. The flags and the counters: error codes, the saturation counter and flag, the interrupt line, and what
the hazards of 70_reset_and_hazards.md R246 leave in SATCNT, SAT and PAD at completion. -/

namespace Sys2Proof.Machine

/-- The numeric value of an error code (60_exceptions.md R210). -/
def ErrCode.code : ErrCode → BitVec 4
  | .none => 0
  | .illegal => 1
  | .config => 2
  | .noprofile => 3
  | .align => 4
  | .range => 5
  | .stream => 6
  | .overlap => 7
  | .bus => 8
  | .aborted => 9

/-- `satinc32(c) = min(c + 1, 2^32 - 1)` (00_scope.md R14). -/
def satinc32 (c : Word) : Word := BitVec.ofNat 32 (min (c.toNat + 1) (2 ^ 32 - 1))

/-- `satinc32` once per SaturationEvent (42_codec.md R150, R153). -/
def addSats (c : Word) : Nat → Word
  | 0 => c
  | n + 1 => satinc32 (addSats c n)

/-- STATUS.BUSY: "1 exactly when phase = Busy" (10_state.md R43). -/
def State.busy (s : State) : Bool := s.phase == .busy

/-- The interrupt output (10_state.md R44, 60_exceptions.md R220). -/
def State.irq (s : State) : Bool := s.done && (s.ieDone || (s.ieErr && s.err != 0))

/-- SATCNT after a completion with `sats` SaturationEvents: counted (10_state.md R38), or, if the host wrote SATCNT
while the command ran, "any value from 0 to the value it would hold without the host's write"
(70_reset_and_hazards.md R246, U4; log 10). -/
def State.settledSatcnt (s : State) (sats : Nat) : Word :=
  match s.hazard.satcntBefore with
  | none => addSats s.satcnt sats
  | some before => BitVec.ofNat 32 (Config.freeSatcnt s.draws % ((addSats before sats).toNat + 1))

/-- SAT after a completion with `sats` SaturationEvents: sticky (10_state.md R26), or, if the host cleared it while
the command ran and the command saturates, 0 or 1 (70_reset_and_hazards.md R246, U5; log 10). -/
def State.settledSat (s : State) (sats : Nat) : Bool :=
  if sats = 0 then s.sat
  else if s.hazard.satCleared then Config.freeSat s.draws
  else true

/-- PAD after a PACK that succeeds with padding count `pad` (43_packer.md R185), or, if the host wrote PAD while it
ran, the host's value or the PACK's (70_reset_and_hazards.md R246, U3; log 10). -/
def State.settledPad (s : State) (pad : Word) : Word :=
  if s.hazard.padWritten && Config.freePadIsHosts s.draws then s.pad else pad

end Sys2Proof.Machine
end

