-- ==== Sys2Proof/Machine/Ops.lean ====
section
/-! DEFINITION. The shared operations: bit fields, memory, launching a command, and completing one with or without an
error. APC has no trap entry and no return: an error is a completion (60_exceptions.md R223, R224). -/

namespace Sys2Proof.Machine

/-! ## Bit fields (00_scope.md R11, R12) -/

/-- `v[lo + width - 1 : lo]`; the empty field (width 0) has the value 0 (00_scope.md R11). -/
def bitField (v lo width : Nat) : Nat := (v >>> lo) % 2 ^ width

/-- The one's complement of an n-bit value: `(2^n - 1) - v` (00_scope.md R16). -/
def onesComplement (n v : Nat) : Nat := 2 ^ n - 1 - v

/-- `ceil_div(a, q)`: the least c with c * q ≥ a, for q ≥ 1 (00_scope.md R12). -/
def ceilDiv (a q : Nat) : Nat := (a + q - 1) / q

/-! ## Memory (10_state.md R45, 20_memory.md R51, R53) -/

/-- What a byte that is not listed reads as. The spec leaves memory's contents at power-up to the platform (U11);
DESIGN CHOICE (log 5): 0. -/
def Memory.unlisted : Byte := 0

/-- The canonical form: addresses strictly rising and below 2^32, no entry equal to what an unlisted byte reads as. -/
def Memory.wf : Memory → Bool
  | [] => true
  | (a, v) :: rest =>
    (v != Memory.unlisted) && decide (a < 2 ^ 32)
      && (match rest with
          | [] => true
          | (b, _) :: _ => decide (a < b))
      && Memory.wf rest

/-- The byte at an address. -/
def Memory.readByte (m : Memory) (a : Nat) : Byte :=
  match m with
  | [] => Memory.unlisted
  | (b, v) :: rest => if a < b then Memory.unlisted else if a = b then v else Memory.readByte rest a

/-- Put a byte in front of the entries above it, unless it is what an unlisted byte reads as. -/
def Memory.cons (a : Nat) (v : Byte) (m : Memory) : Memory :=
  if v = Memory.unlisted then m else (a, v) :: m

/-- Store one byte, keeping the canonical form. -/
def Memory.writeByte (m : Memory) (a : Nat) (v : Byte) : Memory :=
  match m with
  | [] => Memory.cons a v []
  | (b, u) :: rest =>
    if a < b then Memory.cons a v ((b, u) :: rest)
    else if a = b then Memory.cons a v rest
    else (b, u) :: Memory.writeByte rest a v

/-- `MemRead(a, 2)`: "returns `Mem[a] | (Mem[a+1] << 8)`" (20_memory.md R53). -/
def Memory.readHalf (m : Memory) (a : Nat) : Half := (m.readByte (a + 1) ++ m.readByte a : BitVec 16)

/-- `MemWrite(a, 2, v)`: "sets `Mem[a] <- v[7:0]` and `Mem[a+1] <- v[15:8]`" (20_memory.md R53). -/
def Memory.writeHalf (m : Memory) (a : Nat) (v : Half) : Memory :=
  (m.writeByte a (v.extractLsb' 0 8)).writeByte (a + 1) (v.extractLsb' 8 8)

/-- Store halfwords at consecutive halfword addresses from `a` (20_memory.md R54). -/
def Memory.writeHalves (m : Memory) (a : Nat) : List Half → Memory
  | [] => m
  | v :: rest => Memory.writeHalves (m.writeHalf a v) (a + 2) rest

/-! ## The command cycle -/

/-- No host write has met the running command. -/
def Hazard.clear : Hazard := ⟨false, false, none⟩

/-- Launch (40_command_cycle.md R90): latch the operands (R91), clear DONE, ERR and the abort request, go Busy. -/
def State.launch (s : State) (word : Word) : State :=
  { s with
    cmd :=
      { word := word, src := s.src, dst := s.dst, count := s.count, pad := s.pad, din := s.din, cfg := s.profileCfg }
    done := false
    err := 0
    abortReq := false
    phase := .busy
    hazard := Hazard.clear }

/-- Completion, "in every case" (40_command_cycle.md R95): write ERR, clear the abort request, go Idle, set DONE. -/
def State.complete (s : State) (e : ErrCode) : State :=
  { s with err := e.code, abortReq := false, phase := .idle, done := true, hazard := Hazard.clear }

/-- `raise Err(code)` at a launch check (40_command_cycle.md R95): nothing but the completion, and what a host write
to SATCNT that met the command left there (70_reset_and_hazards.md R246). -/
def State.raise (s : State) (e : ErrCode) : State :=
  { s with satcnt := s.settledSatcnt 0 }.complete e

/-- The same for "ENCBUF, DECBUF, PACK, UNPACK or illegal": also OUTLEN ← 0 (40_command_cycle.md R95). -/
def State.raiseBuffer (s : State) (e : ErrCode) : State :=
  { s with outlen := 0 }.raise e

end Sys2Proof.Machine
end

