-- ==== Sys2Proof/Machine/Operands.lean ====
section
/-! DEFINITION. The operands: the active profile as numbers (00_scope.md R13), the derived operands of the buffer
commands (30_encoding.md R78), and the launch checks (42_codec.md R152, 60_exceptions.md R212). -/

namespace Sys2Proof.Machine

/-- The active profile `P` (00_scope.md R13): `P.outbit`, `P.M`, `P.Q`, `P.E` and the alignment group `P.k` (storage
units) and `P.G` (code words). -/
structure ActiveProfile where
  outbit : Nat
  M : Nat
  Q : Nat
  E : Nat
  k : Nat
  G : Nat
deriving DecidableEq, Repr

/-- "These are read from the `PROFILE` and `GROUP` registers" (00_scope.md R13). -/
def State.active (s : State) : ActiveProfile where
  outbit := s.profile.outbit.toNat
  M := s.profile.mant.toNat
  Q := s.profile.quant.toNat
  E := s.profile.margin.toNat
  k := s.group.units.toNat
  G := s.group.words.toNat

/-- The command the engine is running, if the latched word is one (40_command_cycle.md R92). -/
def State.running (s : State) : Option Instr :=
  match decode s.cmd.word with
  | .ok i => some i
  | .error _ => none

/-- ENCBUF, DECBUF, PACK and UNPACK: the buffer commands, which ABORT can end (40_command_cycle.md R100). -/
def isBufferCommand : Instr → Bool
  | .cfg | .enc | .dec => false
  | .encbuf | .decbuf | .pack | .unpack => true

/-! ## The shape of a transfer (30_encoding.md R78) -/

/-- The group count `ng`, the destination elements of a full group, and the destination elements in all. -/
structure Shape where
  ng : Nat
  per : Nat
  outcount : Nat
deriving DecidableEq, Repr

/-- `out(j)`: the destination elements of the first `j` groups. "ENCBUF, DECBUF: js; PACK: js*k; UNPACK:
min(js*G, outcount)" (40_command_cycle.md R101); the bound changes nothing for the first three. -/
def Shape.out (sh : Shape) (j : Nat) : Nat := min (j * sh.per) sh.outcount

/-- `ENCBUF, DECBUF: n = count; ng = n; outcount = n` (30_encoding.md R78). -/
def elementShape (s : State) : Shape where
  ng := s.cmd.count.toNat
  per := 1
  outcount := s.cmd.count.toNat

/-- `PACK: ng = ceil_div(n, G); outcount = ng * k` (30_encoding.md R78). Without a valid profile G = k = 0, and the
length, which R78 then does not give, is 0: DESIGN CHOICE, log 21. -/
def packShape (s : State) : Shape where
  ng := ceilDiv s.cmd.count.toNat s.active.G
  per := s.active.k
  outcount := ceilDiv s.cmd.count.toNat s.active.G * s.active.k

/-- `PACK: pad = ng*G - n` (30_encoding.md R78, 43_packer.md R183). -/
def packPadding (s : State) : Nat := (packShape s).ng * s.active.G - s.cmd.count.toNat

/-- `UNPACK: m = count; ng = m / k; outcount = ng*G - pad` (30_encoding.md R78), which asks that `m mod k` be 0; the
length "is defined only once the stream check has passed" (60_exceptions.md R212). Where it is not defined, the model
takes the floor of m / k, and 0 for a difference below 0 and without a valid profile: DESIGN CHOICE, log 21. -/
def unpackShape (s : State) : Shape where
  ng := s.cmd.count.toNat / s.active.k
  per := s.active.G
  outcount := s.cmd.count.toNat / s.active.k * s.active.G - s.cmd.pad.toNat

/-- The shape of each buffer command; the other commands make no transfer. -/
def shapeOf (i : Instr) (s : State) : Option Shape :=
  match i with
  | .cfg | .enc | .dec => none
  | .encbuf | .decbuf => some (elementShape s)
  | .pack => some (packShape s)
  | .unpack => some (unpackShape s)

/-! ## The launch checks -/

/-- `overlap(a, la, b, lb)` (00_scope.md R14). -/
def overlap (a la b lb : Nat) : Bool :=
  decide (0 < la) && decide (0 < lb) && decide (a < b + lb) && decide (b < a + la)

/-- `fits(a, l)` (00_scope.md R14). -/
def fits (a l : Nat) : Bool := decide (a + l ≤ 2 ^ 32)

/-- The error of the first check that fails. -/
def firstError : List (Bool × ErrCode) → Option ErrCode
  | [] => none
  | (failed, e) :: rest => if failed then some e else firstError rest

/-- The launch checks of a buffer command in the order of 60_exceptions.md R212: NOPROFILE (40_command_cycle.md R93),
ALIGN, STREAM, RANGE, OVERLAP (42_codec.md R152). -/
def bufferCheck (s : State) (sh : Shape) (streamBad inplaceOk : Bool) : Option ErrCode :=
  let src := s.cmd.src.toNat
  let dst := s.cmd.dst.toNat
  let lsrc := 2 * s.cmd.count.toNat
  let ldst := 2 * sh.outcount
  firstError
    [ (!s.pvalid, .noprofile),
      (s.cmd.src.getLsbD 0 || s.cmd.dst.getLsbD 0, .align),
      (streamBad, .stream),
      (!(fits src lsrc && fits dst ldst), .range),
      (overlap src lsrc dst ldst && !(inplaceOk && src == dst && lsrc == ldst), .overlap) ]

/-- `StreamBad(m, pad)` (43_packer.md R187). -/
def streamBad (p : ActiveProfile) (m pad : Nat) : Bool :=
  m % p.k != 0 || (m == 0 && pad != 0) || (decide (0 < m) && decide (p.G ≤ pad))

/-- The launch checks of ENCBUF and DECBUF (42_codec.md R153, R156): exact in-place is allowed. -/
def elementCheck (s : State) : Option ErrCode := bufferCheck s (elementShape s) false true

/-- The launch checks of PACK (43_packer.md R184): never STREAM, no in-place. -/
def packCheck (s : State) : Option ErrCode := bufferCheck s (packShape s) false false

/-- The launch checks of UNPACK (43_packer.md R188): STREAM by R187, no in-place. -/
def unpackCheck (s : State) : Option ErrCode :=
  bufferCheck s (unpackShape s) (streamBad s.active s.cmd.count.toNat s.cmd.pad.toNat) false

/-- The launch checks of each buffer command. -/
def bufferCheckOf (i : Instr) (s : State) : Option ErrCode :=
  match i with
  | .cfg | .enc | .dec => none
  | .encbuf | .decbuf => elementCheck s
  | .pack => packCheck s
  | .unpack => unpackCheck s

end Sys2Proof.Machine
end

