-- ==== Sys2Proof/Machine/Transfer.lean ====
section
/-! DEFINITION. The transfer of a buffer command, shared by ENCBUF, DECBUF, PACK and UNPACK: its groups in ascending
order (20_memory.md R66), and the ways it ends: in full, aborted, or on a bus error (40_command_cycle.md R95, R101,
R103). -/

namespace Sys2Proof.Machine

/-- What the completed groups have done: the memory they left, and their SaturationEvents. -/
structure Progress where
  mem : Memory
  sats : Nat
deriving DecidableEq, Repr

/-- What one group gives: its destination halfwords in order, and its SaturationEvents. -/
structure GroupOut where
  halves : List Half
  sats : Nat
deriving DecidableEq, Repr

/-- The first `j` groups, in ascending order: each reads memory as the groups before it left it, then writes its
destination elements, which begin at element `j * per` of the buffer at `dst` (20_memory.md R54, R66). -/
def runGroups (dst per : Nat) (body : Nat → Memory → GroupOut) (m : Memory) : Nat → Progress
  | 0 => ⟨m, 0⟩
  | j + 1 =>
    let before := runGroups dst per body m j
    let out := body j before.mem
    ⟨before.mem.writeHalves (dst + 2 * (j * per)) out.halves, before.sats + out.sats⟩

/-- How a transfer ends. -/
inductive Ending where
  /-- Every group completes. -/
  | full
  /-- The abort takes effect after `js` groups (40_command_cycle.md R101, R102). -/
  | aborted (js : Nat)
  /-- The bus refuses an access of group `jf` (40_command_cycle.md R103). -/
  | bus (jf : Nat)
deriving DecidableEq, Repr

/-- The choice of an abort: any js in 0..ng, where js = ng completes as on success (40_command_cycle.md R101, U6). -/
def State.abortEnding (s : State) (ng : Nat) : Ending :=
  let js := Config.freeAbortGroup s.draws % (ng + 1)
  if js < ng then .aborted js else .full

/-- The choice of a bus that may fail: any jf in 0..ng - 1, or that no access fails (40_command_cycle.md R103, U7). -/
def State.busEnding (s : State) (ng : Nat) : Ending :=
  let jf := Config.freeBusGroup s.draws % (ng + 1)
  if jf < ng then .bus jf else .full

/-- How a transfer of `ng` groups ends. "With abortReq = 1 and MEM_ERRORS = 1, the step may take either rule's
outcome" (40_command_cycle.md R103); with neither, it ends in full (log 9). -/
def State.ending (s : State) (ng : Nat) : Ending :=
  match s.params.memErrors, s.abortReq with
  | false, false => .full
  | false, true => s.abortEnding ng
  | true, false => s.busEnding ng
  | true, true => if Config.freeTakeBus s.draws then s.busEnding ng else s.abortEnding ng

/-- The first `n` of a list of free halfwords. -/
def freeHalves (free : Nat → Half) (n : Nat) : List Half := (List.range n).map free

/-- Completion of a transfer that has made the progress `p`, with OUTLEN ← `outlen` and the error code `e`. -/
def State.finish (s : State) (p : Progress) (outlen : Nat) (e : ErrCode) : State :=
  { s with
    mem := p.mem
    outlen := BitVec.ofNat 32 outlen
    satcnt := s.settledSatcnt p.sats
    sat := s.settledSat p.sats }.complete e

/-- The transfer ends in full: every group, ERR = 0, and PAD ← `newPad` (40_command_cycle.md R95). -/
def State.endFull (s : State) (sh : Shape) (body : Nat → Memory → GroupOut) (newPad : Word) : State :=
  { s with pad := newPad }.finish (runGroups s.cmd.dst.toNat sh.per body s.mem sh.ng) sh.outcount .none

/-- The transfer ends after `js` groups: ERR = ABORTED, PAD unchanged (40_command_cycle.md R101). -/
def State.endAborted (s : State) (sh : Shape) (body : Nat → Memory → GroupOut) (js : Nat) : State :=
  s.finish (runGroups s.cmd.dst.toNat sh.per body s.mem js) (sh.out js) .aborted

/-- The bus refuses an access of group `jf`: the groups before it are written, its own destination halfwords hold
any values, ERR = BUS, PAD unchanged (40_command_cycle.md R103, U8). -/
def State.endBus (s : State) (sh : Shape) (body : Nat → Memory → GroupOut) (jf : Nat) : State :=
  let before := runGroups s.cmd.dst.toNat sh.per body s.mem jf
  let garbage := freeHalves (Config.freeBusHalf s.draws) (sh.out (jf + 1) - sh.out jf)
  s.finish { before with mem := before.mem.writeHalves (s.cmd.dst.toNat + 2 * (jf * sh.per)) garbage } (sh.out jf) .bus

/-- A buffer command: its launch checks, then its transfer, then its ending. `newPad` is what PAD holds after
success. -/
def State.transfer (s : State) (check : Option ErrCode) (sh : Shape) (body : Nat → Memory → GroupOut)
    (newPad : Word) : Host.Outcome State Fault Refusal :=
  match check with
  | some e => .next (s.raiseBuffer e)
  | none =>
    match s.ending sh.ng with
    | .full => .next (s.endFull sh body newPad)
    | .aborted js => .next (s.endAborted sh body js)
    | .bus jf => .next (s.endBus sh body jf)

end Sys2Proof.Machine
end

