-- ==== Sys2Proof/Machine/Codec.lean ====
section
/-! DEFINITION. The Sample Codec: Encode and Decode (42_codec.md section 1), and the commands ENC, DEC, ENCBUF and
DECBUF (section 2). Every value is an unbounded natural number, as in the spec (00_scope.md R12). -/

namespace Sys2Proof.Machine

/-! ## Encode (42_codec.md R140 to R146) -/

/-- The sign of a sample: bit 15 (42_codec.md R141). -/
def sampleSign (s : Half) : Bool := s.getLsbD 15

/-- The 15-bit magnitude of a sample: bits 14..0, or their one's complement when the sign is set (42_codec.md R141). -/
def magnitude (s : Half) : Nat :=
  if sampleSign s then onesComplement 15 (bitField s.toNat 0 15) else bitField s.toNat 0 15

/-- The number of leading zeros of the `n`-bit value `m`, counted from bit n - 1. -/
def leadingZeros : (n : Nat) → (m : Nat) → Nat
  | 0, _ => 0
  | n + 1, m => if m.testBit n then 0 else leadingZeros n m + 1

/-- `clz15(m)` (00_scope.md R14). -/
def clz15 (m : Nat) : Nat := leadingZeros 15 m

/-- The raw margin: `min(clz15(mag), 14)` (42_codec.md R142). -/
def rawMargin (mag : Nat) : Nat := min (clz15 mag) 14

/-- The largest stored margin: `2^E - 1` (42_codec.md R143). -/
def maxMargin (p : ActiveProfile) : Nat := 2 ^ p.E - 1

/-- The quantized margin: `ceil_div(raw, Q)` (42_codec.md R143). -/
def quantMargin (p : ActiveProfile) (mag : Nat) : Nat := ceilDiv (rawMargin mag) p.Q

/-- The stored margin: the quantized margin, capped at `2^E - 1` (42_codec.md R143). -/
def storedMargin (p : ActiveProfile) (mag : Nat) : Nat := min (quantMargin p mag) (maxMargin p)

/-- SaturationEvent: the quantized margin does not fit the field (42_codec.md R144). -/
def saturates (p : ActiveProfile) (mag : Nat) : Bool := decide (maxMargin p < quantMargin p mag)

/-- The mantissa of a magnitude at a shift: bits 14 - shift down to 15 - shift - M, zeros below bit 0
(42_codec.md R145). -/
def mantissaAt (p : ActiveProfile) (mag shift : Nat) : Nat :=
  if 15 ≤ shift then 0 else ((mag <<< p.M) >>> (15 - shift)) % 2 ^ p.M

/-- `(sign << (outbit - 1)) | (storedMargin << M) | mantissa` (30_encoding.md R74, 42_codec.md R146). -/
def assembleWord (p : ActiveProfile) (sign : Bool) (sm mant : Nat) : Nat :=
  (sign.toNat <<< (p.outbit - 1)) ||| (sm <<< p.M) ||| mant

/-- What Encode returns: the code word, and the SaturationEvent. -/
structure Encoded where
  word : Nat
  satev : Bool
deriving DecidableEq, Repr

/-- `Encode(s, P)` (42_codec.md R146). For outbit = 16, M = 15 and a negative sample its word is not law 4's "w = s"
(R149), nor "the sample itself" of 41_profile.md R129: DEDUCED, log 19. -/
def encodeSample (p : ActiveProfile) (s : Half) : Encoded :=
  let mag := magnitude s
  let sm := storedMargin p mag
  { word := assembleWord p (sampleSign s) sm (mantissaAt p mag (sm * p.Q)), satev := saturates p mag }

/-- The SaturationEvents of one encode: 1 or 0. -/
def Encoded.sats (r : Encoded) : Nat := r.satev.toNat

/-! ## Decode (42_codec.md R147) -/

/-- A code word of the active profile in a halfword: "uses `v[P.outbit−1:0]`" (20_memory.md R54, 30_encoding.md R76). -/
def usedWord (p : ActiveProfile) (v : Half) : Nat := bitField v.toNat 0 p.outbit

/-- The stored margin of a code word: bits outbit - 2 .. M, E bits (30_encoding.md R75). -/
def marginField (p : ActiveProfile) (w : Nat) : Nat := bitField w p.M p.E

/-- The mantissa of a code word: bits M - 1 .. 0 (30_encoding.md R75). -/
def mantissaField (p : ActiveProfile) (w : Nat) : Nat := bitField w 0 p.M

/-- The magnitude of a mantissa put back at a shift, its top bit at bit 14 - shift (42_codec.md R147, step 3). -/
def magnitudeAt (p : ActiveProfile) (mant shift : Nat) : Nat :=
  if 15 ≤ shift then 0 else (mant <<< (15 - shift)) >>> p.M

/-- The sample of a sign and a magnitude (42_codec.md R147, step 4). -/
def assembleSample (sign : Bool) (mag : Nat) : Half :=
  BitVec.ofNat 16 (if sign then 0x8000 ||| onesComplement 15 mag else mag)

/-- `Decode(w, P)` (42_codec.md R147). -/
def decodeWord (p : ActiveProfile) (w : Nat) : Half :=
  assembleSample (w.testBit (p.outbit - 1)) (magnitudeAt p (mantissaField p w) (marginField p w * p.Q))

/-! ## The commands -/

/-- `Exec_ENC` (42_codec.md R150). -/
def execEnc (s : State) : Host.Outcome State Fault Refusal :=
  if s.pvalid then
    let r := encodeSample s.active s.cmd.din
    .next ({ s with
      dout := BitVec.ofNat 16 r.word
      satcnt := s.settledSatcnt r.sats
      sat := s.settledSat r.sats }.complete .none)
  else .next (s.raise .noprofile)

/-- `Exec_DEC` (42_codec.md R151). -/
def execDec (s : State) : Host.Outcome State Fault Refusal :=
  if s.pvalid then
    .next ({ s with dout := decodeWord s.active (usedWord s.active s.cmd.din) }.complete .none)
  else .next (s.raise .noprofile)

/-- Group `i` of ENCBUF: encode source element i (42_codec.md R153). -/
def encbufGroup (s : State) (i : Nat) (m : Memory) : GroupOut :=
  let r := encodeSample s.active (m.readHalf (s.cmd.src.toNat + 2 * i))
  { halves := [BitVec.ofNat 16 r.word], sats := r.sats }

/-- `Exec_ENCBUF` (42_codec.md R153). -/
def execEncbuf (s : State) : Host.Outcome State Fault Refusal :=
  s.transfer (elementCheck s) (elementShape s) (encbufGroup s) s.pad

/-- Group `i` of DECBUF: decode source element i (42_codec.md R156). -/
def decbufGroup (s : State) (i : Nat) (m : Memory) : GroupOut :=
  { halves := [decodeWord s.active (usedWord s.active (m.readHalf (s.cmd.src.toNat + 2 * i)))], sats := 0 }

/-- `Exec_DECBUF` (42_codec.md R156). -/
def execDecbuf (s : State) : Host.Outcome State Fault Refusal :=
  s.transfer (elementCheck s) (elementShape s) (decbufGroup s) s.pad

end Sys2Proof.Machine
end

