-- ==== Sys2Proof/Machine/Packer.lean ====
section
/-! DEFINITION. The Stream Packer: the bit string of a group, its storage units and its code words (43_packer.md
section 1, 30_encoding.md R79), and the commands PACK and UNPACK (section 2). -/

namespace Sys2Proof.Machine

/-- A bit string of fields of `width` bits, the first field most significant: `B <- (B << width) | v` for each
(43_packer.md R181, R186). -/
def concatFields (width : Nat) (fields : List Nat) : Nat :=
  fields.foldl (fun b v => (b <<< width) ||| v) 0

/-- The `n` fields of `width` bits of a bit string, the first one most significant: field i is
`B[width*(n-i)-1 : width*(n-1-i)]` (43_packer.md R181, R186). -/
def splitFields (width n : Nat) (b : Nat) : List Nat :=
  (List.range n).map fun i => bitField b (width * (n - 1 - i)) width

/-- Code word `idx` of PACK's source, or 0 for a padding word (43_packer.md R181, R184). -/
def packWord (s : State) (m : Memory) (idx : Nat) : Nat :=
  if idx < s.cmd.count.toNat then usedWord s.active (m.readHalf (s.cmd.src.toNat + 2 * idx)) else 0

/-- Group `j` of PACK: G code words to k storage units (43_packer.md R184). -/
def packGroup (s : State) (j : Nat) (m : Memory) : GroupOut :=
  let p := s.active
  let b := concatFields p.outbit ((List.range p.G).map fun i => packWord s m (j * p.G + i))
  { halves := (splitFields 16 p.k b).map (BitVec.ofNat 16), sats := 0 }

/-- `Exec_PACK` (43_packer.md R184, R185). -/
def execPack (s : State) : Host.Outcome State Fault Refusal :=
  s.transfer (packCheck s) (packShape s) (packGroup s) (s.settledPad (BitVec.ofNat 32 (packPadding s)))

/-- Group `j` of UNPACK: k storage units to G code words, less those beyond `n`, the padding (43_packer.md R188). -/
def unpackGroup (s : State) (j : Nat) (m : Memory) : GroupOut :=
  let p := s.active
  let b := concatFields 16 ((List.range p.k).map fun t => (m.readHalf (s.cmd.src.toNat + 2 * (j * p.k + t))).toNat)
  let words := splitFields p.outbit p.G b
  { halves := (words.take ((unpackShape s).outcount - j * p.G)).map (BitVec.ofNat 16), sats := 0 }

/-- `Exec_UNPACK` (43_packer.md R188). -/
def execUnpack (s : State) : Host.Outcome State Fault Refusal :=
  s.transfer (unpackCheck s) (unpackShape s) (unpackGroup s) s.pad

end Sys2Proof.Machine
end

