-- ==== Sys2Proof/Machine/Profile.lean ====
section
/-! DEFINITION. The profile: its validity, its alignment group, and the command CFG (41_profile.md). -/

namespace Sys2Proof.Machine

/-- `maxStorableMargin(M, Q) = ceil_div(15 - M, Q)` (41_profile.md R124). -/
def maxStorableMargin (M Q : Nat) : Nat := ceilDiv (15 - M) Q

/-- `RangeOK(outbit, M, Q)` (41_profile.md R124). -/
def rangeOk (rangeCheck : Bool) (outbit M Q : Nat) : Bool :=
  decide (maxStorableMargin M Q ≤ 2 ^ (outbit - 1 - M) - 1) || !rangeCheck

/-- `Valid(outbit, M, Q)` (41_profile.md R121). -/
def validProfile (rangeCheck : Bool) (outbit M Q : Nat) : Bool :=
  decide (2 ≤ outbit) && decide (outbit ≤ 16) && decide (M ≤ outbit - 1) && decide (1 ≤ Q)
    && rangeOk rangeCheck outbit M Q

/-- The loop of 41_profile.md R126 from `k`, for at most `fuel` more turns. -/
def searchUnits (outbit : Nat) : (fuel : Nat) → (k : Nat) → Nat
  | 0, k => k
  | fuel + 1, k => if 16 * k % outbit = 0 then k else searchUnits outbit fuel (k + 1)

/-- `inputUnits` = k: the smallest positive k with (16 * k) mod outbit = 0. "The loop ends with k ≤ outbit"
(41_profile.md R126), which bounds its turns. -/
def inputUnits (outbit : Nat) : Nat := searchUnits outbit outbit 1

/-- `outputSamples` = G = (16 * k) / outbit (41_profile.md R126). -/
def outputSamples (outbit : Nat) : Nat := 16 * inputUnits outbit / outbit

/-- CFG commit (41_profile.md R127), of a profile that `validProfile` accepts. -/
def State.commitProfile (s : State) (cfg : ProfileCfg) : State :=
  { s with
    profile :=
      { outbit := cfg.outbit, mant := cfg.mant, quant := cfg.quant,
        margin := BitVec.ofNat 5 (cfg.outbit.toNat - 1 - cfg.mant.toNat) }
    group :=
      { units := BitVec.ofNat 5 (inputUnits cfg.outbit.toNat), words := BitVec.ofNat 5 (outputSamples cfg.outbit.toNat) }
    pvalid := true }

/-- The effects of a CFG failure (41_profile.md R128): PROFILE, GROUP and PVALID ← 0. -/
def State.clearProfile (s : State) : State :=
  { s with profile := ⟨0, 0, 0, 0⟩, group := ⟨0, 0⟩, pvalid := false }

/-- `Exec_CFG` (41_profile.md R129). What R129 says there of the code words of the profile (16, 15, Q) is a matter of
`encodeSample`: DEDUCED, log 19. -/
def execCfg (s : State) : Host.Outcome State Fault Refusal :=
  let cfg := s.cmd.cfg
  if validProfile s.params.rangeCheck cfg.outbit.toNat cfg.mant.toNat cfg.quant.toNat then
    .next ((s.commitProfile cfg).complete .none)
  else
    .next (s.clearProfile.raise .config)

end Sys2Proof.Machine
end

