-- ==== Sys2Proof/Machine/Control.lean ====
section
/-! DEFINITION. The illegal word (40_command_cycle.md R92) and reset (R104, R105). -/

namespace Sys2Proof.Machine

/-- `Exec_ILLEGAL`: "`raise Err(ILLEGAL)` and nothing else" (40_command_cycle.md R92, 30_encoding.md R81). -/
def execIllegal (s : State) : Host.Outcome State Fault Refusal := .next (s.raiseBuffer .illegal)

/-- What a reset leaves in memory (40_command_cycle.md R104, 70_reset_and_hazards.md R241): any values in the whole
destination range of a Busy buffer command whose launch checks pass (U9), every other byte as it was. -/
def State.memAfterReset (s : State) : Memory :=
  match s.phase, s.running with
  | .busy, some i =>
    match shapeOf i s, bufferCheckOf i s with
    | some sh, none =>
      s.mem.writeHalves s.cmd.dst.toNat (freeHalves (Config.freeCutHalf s.draws) sh.outcount)
    | _, _ => s.mem
  | _, _ => s.mem

/-- Reset, by the reset input or by CTRL.SRST (40_command_cycle.md R104, R105): every register field and every piece
of engine state takes its value of 10_state.md R47. The parameters and the outside's fields are not APC's. -/
def State.resetEffect (s : State) : State :=
  { State.reset with
    params := s.params
    mem := s.memAfterReset
    pending := s.pending
    replies := s.replies
    draws := s.draws }

end Sys2Proof.Machine
end

