-- ==== Sys2Proof/Machine/RegisterPort.lean ====
section
/-! DEFINITION. The register port (10_state.md section 2, 20_memory.md R50): which register an access reaches, what a
read returns, what a write does. -/

namespace Sys2Proof.Machine

/-- The register at a byte offset of the window (10_state.md R22). -/
def Reg.ofOffset : Nat → Option Reg
  | 0x00 => some .id
  | 0x04 => some .param
  | 0x08 => some .ctrl
  | 0x0C => some .status
  | 0x10 => some .cmd
  | 0x14 => some .profileCfg
  | 0x18 => some .profile
  | 0x1C => some .group
  | 0x20 => some .src
  | 0x24 => some .dst
  | 0x28 => some .count
  | 0x2C => some .pad
  | 0x30 => some .outlen
  | 0x34 => some .din
  | 0x38 => some .dout
  | 0x3C => some .satcnt
  | _ => none

/-- The register an access of `width` bits at `addr` reaches, with the window at `base`; none if the access is
outside the spec (20_memory.md R50). -/
def regAt (base width addr : Nat) : Option Reg :=
  if width = 32 ∧ base ≤ addr then Reg.ofOffset (addr - base) else none

/-! ## Reads -/

/-- PARAM (10_state.md R24). -/
def paramWord (p : Params) : Word :=
  (0#6 ++ BitVec.ofBool p.memErrors ++ BitVec.ofBool p.rangeCheck ++ 0#2 ++ 32#6 ++ 0#3 ++ 16#5 ++ 0#3 ++ 16#5 :
    BitVec 32)

/-- CTRL: IE_ERR in bit 9, IE_DONE in bit 8, the action bits read 0 (10_state.md R25). -/
def State.ctrlWord (s : State) : Word :=
  (0#22 ++ BitVec.ofBool s.ieErr ++ BitVec.ofBool s.ieDone ++ 0#8 : BitVec 32)

/-- STATUS: ERR in bits 11:8, PVALID, OVR, SAT, DONE and BUSY in bits 4 to 0 (10_state.md R26). -/
def State.statusWord (s : State) : Word :=
  (0#20 ++ s.err ++ 0#3 ++ BitVec.ofBool s.pvalid ++ BitVec.ofBool s.ovr ++ BitVec.ofBool s.sat
    ++ BitVec.ofBool s.done ++ BitVec.ofBool s.busy : BitVec 32)

/-- PROFILE_CFG (10_state.md R28). -/
def ProfileCfg.toWord (c : ProfileCfg) : Word :=
  (0#12 ++ c.quant ++ 0#3 ++ c.mant ++ 0#3 ++ c.outbit : BitVec 32)

/-- PROFILE (10_state.md R29). -/
def Profile.toWord (p : Profile) : Word :=
  (0#3 ++ p.margin ++ 0#4 ++ p.quant ++ 0#3 ++ p.mant ++ 0#3 ++ p.outbit : BitVec 32)

/-- GROUP (10_state.md R30). -/
def Group.toWord (g : Group) : Word := (0#19 ++ g.words ++ 0#3 ++ g.units : BitVec 32)

/-- What a register reads as from its stored value (10_state.md R22 to R39). -/
def State.readReg (s : State) : Reg → Word
  | .id => 0x41504307
  | .param => paramWord s.params
  | .ctrl => s.ctrlWord
  | .status => s.statusWord
  | .cmd => 0
  | .profileCfg => s.profileCfg.toWord
  | .profile => s.profile.toWord
  | .group => s.group.toWord
  | .src => s.src
  | .dst => s.dst
  | .count => s.count
  | .pad => s.pad
  | .outlen => s.outlen
  | .din => s.din.setWidth 32
  | .dout => s.dout.setWidth 32
  | .satcnt => s.satcnt

/-- The state a host read sees: while Busy, the registers and fields the running command writes at completion hold
any value (40_command_cycle.md R106, U2). An illegal word writes OUTLEN at completion (30_encoding.md R81): DEDUCED,
log 12. -/
def State.busyView (s : State) : State :=
  match s.phase with
  | .idle => s
  | .busy =>
    match s.running with
    | some .cfg =>
      { s with
        profile :=
          { outbit := Config.freeOutbit s.draws, mant := Config.freeMant s.draws, quant := Config.freeQuant s.draws,
            margin := Config.freeMargin s.draws }
        group := { units := Config.freeUnits s.draws, words := Config.freeWords s.draws }
        pvalid := Config.freeFlag s.draws }
    | some .enc =>
      { s with
        dout := Config.freeDout s.draws, satcnt := Config.freeWord s.draws, sat := Config.freeFlag s.draws }
    | some .dec => { s with dout := Config.freeDout s.draws }
    | some .encbuf =>
      { s with
        outlen := Config.freeWord s.draws, satcnt := Config.freeWord s.draws, sat := Config.freeFlag s.draws }
    | some .decbuf | some .unpack | none => { s with outlen := Config.freeWord s.draws }
    | some .pack => { s with outlen := Config.freeWord s.draws, pad := Config.freeWord s.draws }

/-! ## Writes -/

/-- The running command counts SaturationEvents: an ENC or ENCBUF is Busy. -/
def State.countsSats (s : State) : Bool := s.busy && (s.running == some .enc || s.running == some .encbuf)

/-- A PACK is Busy. -/
def State.packRuns (s : State) : Bool := s.busy && s.running == some .pack

/-- A buffer command is Busy: the engine owns its ranges and ABORT can end it. -/
def State.bufferRuns (s : State) : Bool :=
  s.busy && (match s.running with
    | some i => isBufferCommand i
    | none => false)

/-- A write to CTRL (10_state.md R25): bit 0 resets (40_command_cycle.md R104); otherwise the interrupt enables are
bits 8 and 9, and bit 1 requests an abort, which only a Busy buffer command takes (R100). -/
def State.writeCtrl (s : State) (v : Word) : State :=
  if v.getLsbD 0 then s.resetEffect
  else
    { s with
      ieDone := v.getLsbD 8
      ieErr := v.getLsbD 9
      abortReq := s.abortReq || (v.getLsbD 1 && s.bufferRuns) }

/-- A write to STATUS: W1C of DONE, SAT and OVR (40_command_cycle.md R98). A clear of SAT while an ENC or ENCBUF runs
is the hazard of 70_reset_and_hazards.md R246. -/
def State.writeStatus (s : State) (v : Word) : State :=
  { s with
    done := s.done && !v.getLsbD 1
    sat := s.sat && !v.getLsbD 2
    ovr := s.ovr && !v.getLsbD 3
    hazard := { s.hazard with satCleared := s.hazard.satCleared || (v.getLsbD 2 && s.countsSats) } }

/-- A write to CMD: launch while Idle (40_command_cycle.md R90), dropped with OVR ← 1 while Busy (R97). -/
def State.writeCmd (s : State) (v : Word) : State :=
  match s.phase with
  | .idle => s.launch v
  | .busy => { s with ovr := true }

/-- A write to PROFILE_CFG: the three fields; the other bits are ignored (10_state.md R28). -/
def State.writeProfileCfg (s : State) (v : Word) : State :=
  { s with profileCfg := { outbit := v.extractLsb' 0 5, mant := v.extractLsb' 8 5, quant := v.extractLsb' 16 4 } }

/-- A write to PAD (10_state.md R34); while a PACK runs it is the hazard of 70_reset_and_hazards.md R246. -/
def State.writePad (s : State) (v : Word) : State :=
  { s with pad := v, hazard := { s.hazard with padWritten := s.hazard.padWritten || s.packRuns } }

/-- A write to SATCNT: 0, whatever the value (40_command_cycle.md R99); while an ENC or ENCBUF runs it is the hazard of
70_reset_and_hazards.md R246, which remembers the count before the first such write. -/
def State.writeSatcnt (s : State) : State :=
  { s with
    satcnt := 0
    hazard :=
      { s.hazard with
        satcntBefore :=
          match s.hazard.satcntBefore with
          | some v => some v
          | none => if s.countsSats then some s.satcnt else none } }

/-- A register write (10_state.md R39): read-only registers ignore it. -/
def State.writeReg (s : State) (r : Reg) (v : Word) : State :=
  match r with
  | .id | .param | .profile | .group | .outlen | .dout => s
  | .ctrl => s.writeCtrl v
  | .status => s.writeStatus v
  | .cmd => s.writeCmd v
  | .profileCfg => s.writeProfileCfg v
  | .src => { s with src := v }
  | .dst => { s with dst := v }
  | .count => { s with count := v }
  | .pad => s.writePad v
  | .din => { s with din := v.setWidth 16 }
  | .satcnt => s.writeSatcnt

/-! ## Accesses -/

/-- A host register access: "outside this spec, and a model refuses it" unless it reaches a register (20_memory.md
R50); a read returns its value and has no side effect (10_state.md R39). -/
def State.regAccess (s : State) (access : RegAccess) : Host.Outcome State Fault Refusal :=
  match access with
  | .read width addr =>
    match regAt s.params.regBase width addr with
    | some r => .next { s with replies := .reg (s.busyView.readReg r) :: s.replies }
    | none => .refused .badRegisterAccess
  | .write width addr v =>
    match regAt s.params.regBase width addr with
    | some r => .next (s.writeReg r v)
    | none => .refused .badRegisterAccess

/-- The reset input asserted during a register access: the access took effect before the reset, or it did not
(70_reset_and_hazards.md R243, U12; log 15). -/
def State.resetDuring (s : State) (access : RegAccess) : Host.Outcome State Fault Refusal :=
  match s.regAccess access with
  | .next t => .next (if Config.freeAccessFirst s.draws then t.resetEffect else s.resetEffect)
  | .fault f => .fault f
  | .refused r => .refused r

end Sys2Proof.Machine
end

