-- ==== Sys2Proof/Machine/HostMemory.lean ====
section
/-! DEFINITION. Host accesses to memory and the ownership rule of 20_memory.md R63. -/

namespace Sys2Proof.Machine

/-- The bytes [addr, addr + len) touch the source range of the Busy buffer command, [src, src + 2*count)
(20_memory.md R58). -/
def State.touchesSource (s : State) (addr len : Nat) : Bool :=
  s.bufferRuns && overlap addr len s.cmd.src.toNat (2 * s.cmd.count.toNat)

/-- The bytes [addr, addr + len) touch the destination range of the Busy buffer command, [dst, dst + 2*outcount)
(20_memory.md R58). The range is the one 30_encoding.md R78 computes, whether or not the launch checks pass: DEDUCED,
log 11. Where R78 gives no length (an UNPACK with a bad stream, a PACK or UNPACK without a valid profile) it is the
model's: DESIGN CHOICE, log 21. -/
def State.touchesDest (s : State) (addr len : Nat) : Bool :=
  s.bufferRuns && (match s.running.bind (shapeOf · s) with
    | some sh => overlap addr len s.cmd.dst.toNat (2 * sh.outcount)
    | none => false)

/-- A host read of `len` bytes: the fault HAZARD on the destination range, and no byte beyond memory (20_memory.md
R63, 10_state.md R45). A read of the source range alone goes on: R63 forbids only writes there, while its last sentence
and 40_command_cycle.md R107 name any access to an owned range. DEDUCED, log 22. -/
def State.hostReadFault (s : State) (addr len : Nat) : Option Fault :=
  if 2 ^ 32 < addr + len then some .outsideMemory
  else if s.touchesDest addr len then some .hazard
  else none

/-- A host write of `len` bytes: the fault HAZARD on the source or the destination range (20_memory.md R63). -/
def State.hostWriteFault (s : State) (addr len : Nat) : Option Fault :=
  if 2 ^ 32 < addr + len then some .outsideMemory
  else if s.touchesSource addr len || s.touchesDest addr len then some .hazard
  else none

/-- Stop with a fault, or go on to the state. -/
def outcomeUnless (fault : Option Fault) (t : State) : Host.Outcome State Fault Refusal :=
  match fault with
  | some f => .fault f
  | none => .next t

/-- A host memory access (40_command_cycle.md R107), little-endian (20_memory.md R53). -/
def State.memAccess (s : State) (access : MemAccess) : Host.Outcome State Fault Refusal :=
  match access with
  | .readByte a =>
    outcomeUnless (s.hostReadFault a.toNat 1) { s with replies := .byte (s.mem.readByte a.toNat) :: s.replies }
  | .writeByte a v => outcomeUnless (s.hostWriteFault a.toNat 1) { s with mem := s.mem.writeByte a.toNat v }
  | .readHalf a =>
    outcomeUnless (s.hostReadFault a.toNat 2) { s with replies := .half (s.mem.readHalf a.toNat) :: s.replies }
  | .writeHalf a v => outcomeUnless (s.hostWriteFault a.toNat 2) { s with mem := s.mem.writeHalf a.toNat v }

end Sys2Proof.Machine
end

