-- ==== Sys2Proof/Machine/Step.lean ====
section
/-! DEFINITION. One step of the machine: the next thing the outside does, or the engine's step (40_command_cycle.md
R107); and how a command is placed where the next step runs it. -/

namespace Sys2Proof.Machine

/-- The engine's step while Busy (40_command_cycle.md R92, R94): the latched word's command, or `Exec_ILLEGAL`. -/
def engineStep (s : State) : Host.Outcome State Fault Refusal :=
  match decode s.cmd.word with
  | .ok i => exec i s
  | .error _ => execIllegal s

/-- A turn given to the engine. "The engine never takes a step while Idle" (40_command_cycle.md R107). -/
def engineTurn (s : State) : Host.Outcome State Fault Refusal :=
  match s.phase with
  | .busy => engineStep s
  | .idle => .next s

/-- One event (40_command_cycle.md R107). -/
def stepEvent (e : Event) (s : State) : Host.Outcome State Fault Refusal :=
  match e with
  | .reg access => s.regAccess access
  | .mem access => s.memAccess access
  | .engineTurn => engineTurn s
  | .reset => .next s.resetEffect
  | .resetDuring access => s.resetDuring access

/-- One step: the oldest pending event; with none pending, the engine's step, or nothing while Idle (60_exceptions.md
R233). Every step that does something draws its own free values (logs 2 and 3). -/
def step (s : State) : Host.Outcome State Fault Refusal :=
  match s.pending with
  | e :: rest => stepEvent e { s with pending := rest, draws := s.draws + 1 }
  | [] =>
    match s.phase with
    | .busy => engineStep { s with draws := s.draws + 1 }
    | .idle => .next s

/-- The command word `w` of `nbits` bits, launched (40_command_cycle.md R90) with the operands that stand in the
registers, and the engine's turn before every pending event: the very next step runs it. APC fetches nothing
(10_state.md R21); a command comes to run by a CMD write of the host (log 7). -/
def State.withFetchWord (s : State) (nbits w : Nat) : State :=
  { s.launch (BitVec.ofNat 32 (w % 2 ^ nbits)) with pending := .engineTurn :: s.pending }

end Sys2Proof.Machine
end

