-- ==== Sys2Proof/Safety.lean ====
section
/-! DEFINITION. What the claims speak of: legal profiles, the invariant of the machine, undisturbed states, the operands
with which a transfer starts, and which event the next step takes. -/

namespace Sys2Proof.Machine

/-! ## Profiles -/

/-- The ranges and the margin width of a profile CFG has accepted (00_scope.md R10, 41_profile.md R121), without its
alignment group and without the parameter RANGE_CHECK. -/
structure ActiveProfile.Legal (p : ActiveProfile) : Prop where
  outbit_ge : 2 ≤ p.outbit
  outbit_le : p.outbit ≤ 16
  mant_le : p.M ≤ p.outbit - 1
  quant_ge : 1 ≤ p.Q
  quant_le : p.Q ≤ 15
  margin_eq : p.E = p.outbit - 1 - p.M

/-- The alignment group of the profile: k and G are the ones of 41_profile.md R126. -/
def ActiveProfile.Grouped (p : ActiveProfile) : Prop :=
  p.k = inputUnits p.outbit ∧ p.G = outputSamples p.outbit

/-! ## The invariant -/

/-- What holds in every state a run reaches. -/
structure State.Inv (s : State) : Prop where
  /-- Memory is in canonical form. -/
  mem_wf : s.mem.wf = true
  /-- "1 when the active profile in `PROFILE` and `GROUP` is valid" (10_state.md R26, R29, R30). -/
  profile_valid : s.pvalid = true →
    validProfile s.params.rangeCheck s.active.outbit s.active.M s.active.Q = true
      ∧ s.active.Legal ∧ s.active.Grouped
  /-- Without a valid profile PROFILE and GROUP are 0 (41_profile.md R128, 10_state.md R47). -/
  profile_clear : s.pvalid = false → s.profile = ⟨0, 0, 0, 0⟩ ∧ s.group = ⟨0, 0⟩
  /-- Launch clears DONE and ERR, and only completion writes them (40_command_cycle.md R90, R95). -/
  busy_quiet : s.phase = .busy → s.done = false ∧ s.err = 0
  /-- An abort request and a hazard belong to a running command (10_state.md R43). -/
  idle_quiet : s.phase = .idle → s.abortReq = false ∧ s.hazard = Hazard.clear
  /-- Only a buffer command takes an abort request (40_command_cycle.md R100). -/
  abort_buffer : s.abortReq = true → s.bufferRuns = true
  /-- ERR holds one of the codes 0..9 (60_exceptions.md R210, U18). -/
  err_code : ∃ e : ErrCode, s.err = e.code
  /-- "When `MEM_ERRORS = 0`, every access succeeds and BUS is never written" (60_exceptions.md R214). -/
  bus_allowed : s.err = ErrCode.bus.code → s.params.memErrors = true
  /-- A recorded write to PAD met a running PACK. -/
  hazard_pad : s.hazard.padWritten = true → s.packRuns = true
  /-- A recorded clear of SAT met a running ENC or ENCBUF. -/
  hazard_sat : s.hazard.satCleared = true → s.countsSats = true
  /-- A recorded clear of SATCNT met a running ENC or ENCBUF. -/
  hazard_satcnt : s.hazard.satcntBefore.isSome = true → s.countsSats = true

/-! ## Operands with which a command's outcome is fixed -/

/-- No abort is requested, no access can fail, and no host write has met the command. -/
structure State.Undisturbed (s : State) : Prop where
  no_abort : s.abortReq = false
  no_mem_errors : s.params.memErrors = false
  no_hazard : s.hazard = Hazard.clear

/-- The latched addresses are even (20_memory.md R55). -/
def State.aligned (s : State) : Prop := s.cmd.src.toNat % 2 = 0 ∧ s.cmd.dst.toNat % 2 = 0

/-- The latched source range and a destination of `n` halfwords end at or below 2^32 (20_memory.md R59, 00_scope.md R14;
log 20). -/
def State.inRange (s : State) (n : Nat) : Prop :=
  s.cmd.src.toNat + 2 * s.cmd.count.toNat ≤ 2 ^ 32 ∧ s.cmd.dst.toNat + 2 * n ≤ 2 ^ 32

/-- The source range and a destination of `n` halfwords share no byte; an empty range shares none
(00_scope.md R14, 42_codec.md R152). -/
def State.apart (s : State) (n : Nat) : Prop :=
  s.cmd.count.toNat = 0 ∨ n = 0
    ∨ s.cmd.src.toNat + 2 * s.cmd.count.toNat ≤ s.cmd.dst.toNat
    ∨ s.cmd.dst.toNat + 2 * n ≤ s.cmd.src.toNat

/-- `StreamBad` in the words of 43_packer.md R187, of the latched count and padding. -/
def State.streamOk (s : State) : Prop :=
  s.cmd.count.toNat % s.active.k = 0 ∧ (s.cmd.count.toNat = 0 → s.cmd.pad.toNat = 0)
    ∧ (0 < s.cmd.count.toNat → s.cmd.pad.toNat < s.active.G)

/-- Source element `i` as the command finds it (20_memory.md R54). -/
def State.sourceHalf (s : State) (i : Nat) : Half := s.mem.readHalf (s.cmd.src.toNat + 2 * i)

/-- The SaturationEvents of the first `n` samples of the source (42_codec.md R144). -/
def State.satEvents (s : State) (n : Nat) : Nat :=
  ((List.range n).filter fun i => saturates s.active (magnitude (s.sourceHalf i))).length

/-- A completed command: Idle, DONE, ERR = `e`, no abort request, no hazard (40_command_cycle.md R95). -/
def State.completed (s : State) (e : BitVec 4) : State :=
  { s with err := e, done := true, phase := .idle, abortReq := false, hazard := ⟨false, false, none⟩ }

/-! ## The next step -/

/-- The next step is a reset: by the reset input, or by a write to CTRL with bit 0 = 1 (40_command_cycle.md R104,
R105). -/
def State.nextResets (s : State) : Bool :=
  match s.pending with
  | .reset :: _ => true
  | .resetDuring _ :: _ => true
  | .reg (.write width addr v) :: _ => regAt s.params.regBase width addr == some .ctrl && v.getLsbD 0
  | _ => false

/-- The next step is a write to a register. -/
def State.nextWrites (s : State) (r : Reg) (v : Word) : Prop :=
  ∃ addr rest, regAt s.params.regBase 32 addr = some r ∧ s.pending = .reg (.write 32 addr v) :: rest

/-- The next step is the engine's. -/
def State.engineNext (s : State) : Prop :=
  s.phase = .busy ∧ (s.pending = [] ∨ ∃ rest, s.pending = .engineTurn :: rest)

/-- The state in which the next step acts: the event taken off the list, the step counted. -/
def State.stepped (s : State) : State := { s with pending := s.pending.tail, draws := s.draws + 1 }

end Sys2Proof.Machine
end

