-- ==== Sys2Proof/Certificates/Slice0/Obligations.lean ====
section
/-! DEFINITION. The statements for the provers, in the order of the spec's files. -/

open Sys2Proof Sys2Proof.Machine

/-! ## The command word -/

/-- 30_encoding.md R71, R81; R82 derives from them: "every 32-bit value is exactly one of the seven commands of rule
R71 or illegal". -/
def Obligations.CommandWordIsOneOfSevenOrIllegal : Prop :=
  ∀ w : Word,
    (decode w = .ok .cfg ↔ w.toNat = 1) ∧ (decode w = .ok .enc ↔ w.toNat = 2) ∧ (decode w = .ok .dec ↔ w.toNat = 3)
      ∧ (decode w = .ok .encbuf ↔ w.toNat = 4) ∧ (decode w = .ok .decbuf ↔ w.toNat = 5)
      ∧ (decode w = .ok .pack ↔ w.toNat = 6) ∧ (decode w = .ok .unpack ↔ w.toNat = 7)
      ∧ ((∃ e, decode w = .error e) ↔ ¬ (1 ≤ w.toNat ∧ w.toNat ≤ 7))

/-- Decoder and encoder agree on every word and every command (30_encoding.md section 1). -/
def Obligations.DecodeIsTheInverseOfEncode : Prop :=
  ∀ (w : Word) (i : Instr), i.wf = true → (decode w = .ok i ↔ encode i = w)

/-- The words of 30_encoding.md R71 and the illegal words of 95_test_vectors.md section 2.7. -/
def Obligations.TableWordsDecode : Prop :=
  decode 0x00000001 = .ok .cfg ∧ decode 0x00000002 = .ok .enc ∧ decode 0x00000003 = .ok .dec
    ∧ decode 0x00000004 = .ok .encbuf ∧ decode 0x00000005 = .ok .decbuf ∧ decode 0x00000006 = .ok .pack
    ∧ decode 0x00000007 = .ok .unpack
    ∧ decode 0x00000000 = .error (.noSuchOpcode 0x00) ∧ decode 0x00000008 = .error (.noSuchOpcode 0x08)
    ∧ decode 0x000000FF = .error (.noSuchOpcode 0xFF) ∧ decode 0x00000101 = .error .reservedBitsSet
    ∧ decode 0x80000002 = .error .reservedBitsSet

/-! ## The step -/

/-- 40_command_cycle.md R92, R94: the engine's step runs the latched word's command. R107, 60_exceptions.md R233: while
Idle the engine takes no step: a turn given to it, or a step with nothing pending, changes no register and no memory.
Which step is the engine's is the model's schedule (log 2). -/
def Obligations.StepRunsTheLatchedCommand : Prop :=
  (∀ (s : State) (i : Instr), s.engineNext → decode s.cmd.word = .ok i → step s = exec i s.stepped)
    ∧ ∀ s : State, s.phase = .idle →
        (s.pending = [] → step s = .next s) ∧ ∀ rest, s.pending = .engineTurn :: rest → step s = .next s.stepped

/-- A word placed by `withFetchWord` is launched (40_command_cycle.md R90, R91) and is what the next step runs. The
placing is the model's (log 7). -/
def Obligations.PlacedWordRunsNext : Prop :=
  ∀ (s : State) (nbits w : Nat) (i : Instr), decodeTableWord nbits w = some i →
    step (s.withFetchWord nbits w) =
      exec i
        { s with
          cmd := ⟨BitVec.ofNat 32 (w % 2 ^ nbits), s.src, s.dst, s.count, s.pad, s.din, s.profileCfg⟩
          done := false, err := 0, abortReq := false, phase := .busy, hazard := ⟨false, false, none⟩
          draws := s.draws + 1 }

/-- 30_encoding.md R81, 40_command_cycle.md R92: an illegal word completes with ERR = ILLEGAL and OUTLEN = 0, and
changes nothing else. -/
def Obligations.IllegalWordCompletesWithIllegal : Prop :=
  ∀ s : State, s.engineNext → (∃ e, decode s.cmd.word = .error e) → s.hazard = Hazard.clear →
    step s = .next ({ s.stepped with outlen := 0 }.completed 1)

/-- 40_command_cycle.md R96, 70_reset_and_hazards.md R248: every command, in every state, completes. -/
def Obligations.EveryCommandCompletes : Prop :=
  ∀ (i : Instr) (s : State), ∃ t, exec i s = .next t ∧ t.phase = .idle ∧ t.done = true ∧ t.abortReq = false
    ∧ t.hazard = Hazard.clear ∧ ∃ e : ErrCode, t.err = e.code

/-! ## CFG -/

/-- 41_profile.md R126: the alignment group is the smallest, in the closed form that the rule derives, and as its table
gives it. -/
def Obligations.AlignmentGroupIsTheSmallest : Prop :=
  (∀ outbit : Nat, 1 ≤ outbit →
    1 ≤ inputUnits outbit ∧ inputUnits outbit ≤ outbit ∧ 16 * inputUnits outbit % outbit = 0
      ∧ (∀ k, 1 ≤ k → k < inputUnits outbit → 16 * k % outbit ≠ 0)
      ∧ inputUnits outbit * 16 = outputSamples outbit * outbit
      ∧ inputUnits outbit = outbit / Nat.gcd 16 outbit ∧ outputSamples outbit = 16 / Nat.gcd 16 outbit)
    ∧ (List.range' 2 15).map inputUnits = [1, 3, 1, 5, 3, 7, 1, 9, 5, 11, 3, 13, 7, 15, 1]
    ∧ (List.range' 2 15).map outputSamples = [8, 16, 4, 16, 8, 16, 2, 16, 8, 16, 4, 16, 8, 16, 1]

/-- 41_profile.md R121, R124: which profiles are valid; with RANGE_CHECK = 1 also those only whose margin field holds
the largest stored margin: E ≥ ceil(log2(x + 1)) for the least x with x * Q ≥ 15 - M. -/
def Obligations.ValidProfileIsTheRangesAndTheMarginCheck : Prop :=
  ∀ (rangeCheck : Bool) (outbit M Q : Nat),
    validProfile rangeCheck outbit M Q = true ↔
      2 ≤ outbit ∧ outbit ≤ 16 ∧ M ≤ outbit - 1 ∧ 1 ≤ Q
        ∧ (rangeCheck = true → ∀ x, IsLeast (fun c => 15 - M ≤ c * Q) x → Nat.clog 2 (x + 1) ≤ outbit - 1 - M)

/-- 41_profile.md R127, R129: CFG of a valid profile loads PROFILE and GROUP and sets PVALID, and changes nothing
else. -/
def Obligations.CfgCommitsAValidProfile : Prop :=
  ∀ s : State,
    validProfile s.params.rangeCheck s.cmd.cfg.outbit.toNat s.cmd.cfg.mant.toNat s.cmd.cfg.quant.toNat = true →
    exec .cfg s =
      .next ({ s with
        profile :=
          ⟨s.cmd.cfg.outbit, s.cmd.cfg.mant, s.cmd.cfg.quant,
            BitVec.ofNat 5 (s.cmd.cfg.outbit.toNat - 1 - s.cmd.cfg.mant.toNat)⟩
        group :=
          ⟨BitVec.ofNat 5 (s.cmd.cfg.outbit.toNat / Nat.gcd 16 s.cmd.cfg.outbit.toNat),
            BitVec.ofNat 5 (16 / Nat.gcd 16 s.cmd.cfg.outbit.toNat)⟩
        pvalid := true }.completed 0)

/-- 41_profile.md R128, R129: CFG of an invalid profile clears PROFILE, GROUP and PVALID, reports CONFIG, and changes
nothing else. -/
def Obligations.CfgRejectsAnInvalidProfile : Prop :=
  ∀ s : State, s.hazard = Hazard.clear →
    validProfile s.params.rangeCheck s.cmd.cfg.outbit.toNat s.cmd.cfg.mant.toNat s.cmd.cfg.quant.toNat = false →
    exec .cfg s = .next ({ s with profile := ⟨0, 0, 0, 0⟩, group := ⟨0, 0⟩, pvalid := false }.completed 2)

/-- 10_state.md R29, R30, 41_profile.md R127: "The active profile then stays unchanged until the next CFG or a
reset". -/
def Obligations.OnlyCfgAndResetChangeTheProfile : Prop :=
  ∀ s t : State, step s = .next t → s.nextResets = false → ¬ (s.engineNext ∧ s.running = some .cfg) →
    t.profile = s.profile ∧ t.group = s.group ∧ t.pvalid = s.pvalid

/-! ## The codec -/

/-- 42_codec.md R142, 00_scope.md R14: the raw margin counts the zeros above the leading 1, up to 14. -/
def Obligations.RawMarginFindsTheLeadingOne : Prop :=
  ∀ mag : Nat, mag < 2 ^ 15 →
    (rawMargin mag = 14 ↔ mag ≤ 1)
      ∧ (2 ≤ mag → rawMargin mag ≤ 13 ∧ 2 ^ (14 - rawMargin mag) ≤ mag ∧ mag < 2 ^ (15 - rawMargin mag))

/-- 42_codec.md R142, which derives it: "The stored margin is the same with or without" the scan cap 2^E * Q - 1. -/
def Obligations.ScanCapDoesNotChangeTheStoredMargin : Prop :=
  ∀ (p : ActiveProfile) (mag : Nat), p.Legal →
    min (ceilDiv (min (rawMargin mag) (2 ^ p.E * p.Q - 1)) p.Q) (2 ^ p.E - 1) = storedMargin p mag

/-- 42_codec.md R143, R144: a SaturationEvent is raw > (2^E - 1) * Q, and then the stored margin is 2^E - 1; otherwise
the stored margin is the least c with c * Q ≥ raw. -/
def Obligations.SaturationIsExactlyTheClamp : Prop :=
  ∀ (p : ActiveProfile) (s : Half), p.Legal →
    ((encodeSample p s).satev = true ↔ (2 ^ p.E - 1) * p.Q < rawMargin (magnitude s))
      ∧ ((encodeSample p s).satev = true → marginField p (encodeSample p s).word = 2 ^ p.E - 1)
      ∧ ((encodeSample p s).satev = false →
          IsLeast (fun c => rawMargin (magnitude s) ≤ c * p.Q) (marginField p (encodeSample p s).word))

/-- 42_codec.md R145, R146, 30_encoding.md R74: the fields of an encoded word: sign, stored margin, and the mantissa
bits of the window from magnitude bit 14 - shift down, zeros below bit 0; none overflows. -/
def Obligations.EncodedWordHoldsItsFields : Prop :=
  ∀ (p : ActiveProfile) (s : Half), p.Legal →
    (encodeSample p s).word < 2 ^ p.outbit
      ∧ (encodeSample p s).word.testBit (p.outbit - 1) = s.getLsbD 15
      ∧ marginField p (encodeSample p s).word = storedMargin p (magnitude s)
      ∧ ∀ i, i < p.M → (encodeSample p s).word.testBit i =
          (decide (storedMargin p (magnitude s) * p.Q + (p.M - 1 - i) ≤ 14)
            && (magnitude s).testBit (14 - storedMargin p (magnitude s) * p.Q - (p.M - 1 - i)))

/-- 42_codec.md R149 (laws the spec derives), laws 1, 2 and 5: a round trip keeps the sign and exactly the magnitude
bits of the window [14 - shift, 15 - shift - M]; so the magnitude never grows, and a negative sample never falls. -/
def Obligations.RoundTripKeepsSignAndWindow : Prop :=
  ∀ (p : ActiveProfile) (s s' : Half), p.Legal → s' = decodeWord p (encodeSample p s).word →
    s'.getLsbD 15 = s.getLsbD 15
      ∧ magnitude s' ≤ magnitude s
      ∧ (∀ b, (magnitude s').testBit b =
          ((magnitude s).testBit b && decide (b + storedMargin p (magnitude s) * p.Q ≤ 14)
            && decide (15 ≤ b + storedMargin p (magnitude s) * p.Q + p.M)))
      ∧ (s.getLsbD 15 = true → s'.toInt = -1 - (magnitude s' : Int) ∧ s.toInt ≤ s'.toInt)

/-- 42_codec.md R149 (laws the spec derives), law 3: when a round trip is exact. -/
def Obligations.RoundTripIsExactWhenNoBitIsLost : Prop :=
  ∀ (p : ActiveProfile) (s s' : Half), p.Legal → s' = decodeWord p (encodeSample p s).word →
    (s' = s ↔ magnitude s' = magnitude s)
      ∧ (rawMargin (magnitude s) = 0 →
          storedMargin p (magnitude s) = 0 ∧ (s' = s ↔ magnitude s % 2 ^ (15 - p.M) = 0))
      ∧ (rawMargin (magnitude s) = 0 → 15 ≤ p.M → s' = s)

/-- 42_codec.md R149 (laws the spec derives), law 4, with the word of 95_test_vectors.md section 2.2: outbit = 16, M =
15 round-trips every sample; its word is the sample, or 0x8000 with the magnitude when the sign is set (log 19); every
sample with raw ≥ 1 saturates. -/
def Obligations.WidestProfileRoundTripsEverySample : Prop :=
  ∀ (p : ActiveProfile) (s : Half), p.Legal → p.outbit = 16 → p.M = 15 →
    decodeWord p (encodeSample p s).word = s
      ∧ (s.getLsbD 15 = false → (encodeSample p s).word = s.toNat)
      ∧ (s.getLsbD 15 = true → (encodeSample p s).word = 0x8000 + (2 ^ 15 - 1 - s.toNat % 2 ^ 15))
      ∧ ((encodeSample p s).satev = true ↔ 1 ≤ rawMargin (magnitude s))

/-- 30_encoding.md R76, 42_codec.md R151: DEC ignores the bits of DIN above outbit - 1. -/
def Obligations.DecIgnoresBitsAboveOutbit : Prop :=
  ∀ (s t : State) (d : Half), s.pvalid = true → d.toNat % 2 ^ s.active.outbit = s.cmd.din.toNat % 2 ^ s.active.outbit →
    exec .dec s = .next t →
    exec .dec { s with cmd := { s.cmd with din := d } } = .next { t with cmd := { t.cmd with din := d } }

/-! ## ENC, DEC and the profile check -/

/-- 42_codec.md R150, R144, 10_state.md R38: ENC puts the code word in DOUT and counts its SaturationEvent, and changes
nothing else. -/
def Obligations.EncEncodesOneSample : Prop :=
  ∀ (s : State) (r : Encoded), s.pvalid = true → s.hazard = Hazard.clear → r = encodeSample s.active s.cmd.din →
    exec .enc s =
      .next ({ s with
        dout := BitVec.ofNat 16 r.word
        satcnt := if r.satev then BitVec.ofNat 32 (min (s.satcnt.toNat + 1) (2 ^ 32 - 1)) else s.satcnt
        sat := s.sat || r.satev }.completed 0)

/-- 42_codec.md R151: DEC puts the sample in DOUT, and changes nothing else. R147, 30_encoding.md R75: of every word of
outbit bits under a legal profile, whether or not an encode gives it: its sign is bit outbit - 1, its margin field the E
bits above the mantissa, and mantissa bit i is magnitude bit i + 15 - shift - M; no magnitude at all for shift ≥ 15. -/
def Obligations.DecDecodesOneWord : Prop :=
  (∀ s : State, s.pvalid = true →
    exec .dec s =
      .next ({ s with dout := decodeWord s.active (s.cmd.din.toNat % 2 ^ s.active.outbit) }.completed 0))
    ∧ ∀ (p : ActiveProfile) (w shift : Nat), p.Legal → w < 2 ^ p.outbit →
        shift = w / 2 ^ p.M % 2 ^ (p.outbit - 1 - p.M) * p.Q →
        ∃ mag, mag < 2 ^ 15
          ∧ (decodeWord p w).toNat = (if w.testBit (p.outbit - 1) then 2 ^ 15 + (2 ^ 15 - 1 - mag) else mag)
          ∧ (15 ≤ shift → mag = 0)
          ∧ ∀ b, mag.testBit b =
              (decide (b + shift ≤ 14) && decide (15 ≤ b + shift + p.M) && w.testBit (b + shift + p.M - 15))

/-- 40_command_cycle.md R93, R95, 60_exceptions.md R211: without a valid profile every command but CFG completes with
NOPROFILE; nothing else changes but OUTLEN ← 0 for a buffer command. -/
def Obligations.DataCommandsNeedAProfile : Prop :=
  ∀ (s : State) (i : Instr), i ≠ .cfg → s.pvalid = false → s.hazard = Hazard.clear →
    exec i s = .next ({ s with outlen := if i = Instr.enc ∨ i = Instr.dec then s.outlen else 0 }.completed 3)

/-! ## The buffer commands -/

/-- 42_codec.md R153, R155: ENCBUF writes the code word of every source sample as the command found it, and no other
byte; OUTLEN, SATCNT and SAT follow; nothing else changes. -/
def Obligations.EncbufEncodesEverySample : Prop :=
  ∀ (s : State) (n : Nat), n = s.cmd.count.toNat → s.mem.wf = true → s.pvalid = true → s.Undisturbed → s.aligned →
    s.inRange n → (s.apart n ∨ s.cmd.src = s.cmd.dst) →
    ∃ t, exec .encbuf s = .next t
      ∧ t = { s with
          mem := t.mem
          outlen := s.cmd.count
          satcnt := BitVec.ofNat 32 (min (s.satcnt.toNat + s.satEvents n) (2 ^ 32 - 1))
          sat := s.sat || decide (0 < s.satEvents n) }.completed 0
      ∧ (∀ i, i < n →
          t.mem.readHalf (s.cmd.dst.toNat + 2 * i) = BitVec.ofNat 16 (encodeSample s.active (s.sourceHalf i)).word)
      ∧ ∀ a, a < s.cmd.dst.toNat ∨ s.cmd.dst.toNat + 2 * n ≤ a → t.mem.readByte a = s.mem.readByte a

/-- 42_codec.md R156: DECBUF writes the sample of every source code word as the command found it, and no other byte;
OUTLEN follows; nothing else changes. -/
def Obligations.DecbufDecodesEveryWord : Prop :=
  ∀ (s : State) (n : Nat), n = s.cmd.count.toNat → s.mem.wf = true → s.pvalid = true → s.Undisturbed → s.aligned →
    s.inRange n → (s.apart n ∨ s.cmd.src = s.cmd.dst) →
    ∃ t, exec .decbuf s = .next t
      ∧ t = { s with mem := t.mem, outlen := s.cmd.count }.completed 0
      ∧ (∀ i, i < n →
          t.mem.readHalf (s.cmd.dst.toNat + 2 * i) =
            decodeWord s.active ((s.sourceHalf i).toNat % 2 ^ s.active.outbit))
      ∧ ∀ a, a < s.cmd.dst.toNat ∨ s.cmd.dst.toNat + 2 * n ≤ a → t.mem.readByte a = s.mem.readByte a

/-- 42_codec.md R154, which the spec derives: element i of ENCBUF (of DECBUF) is what ENC (DEC) on that element gives.
-/
def Obligations.BufferCommandsAgreeWithSingleCommands : Prop :=
  ∀ (s : State) (n i : Nat), n = s.cmd.count.toNat → i < n → s.mem.wf = true → s.pvalid = true → s.Undisturbed →
    s.aligned → s.inRange n → (s.apart n ∨ s.cmd.src = s.cmd.dst) →
    (∃ t u, exec .encbuf s = .next t ∧ exec .enc { s with cmd := { s.cmd with din := s.sourceHalf i } } = .next u
        ∧ t.mem.readHalf (s.cmd.dst.toNat + 2 * i) = u.dout)
      ∧ ∃ t u, exec .decbuf s = .next t ∧ exec .dec { s with cmd := { s.cmd with din := s.sourceHalf i } } = .next u
        ∧ t.mem.readHalf (s.cmd.dst.toNat + 2 * i) = u.dout

/-- 43_packer.md R184, R185, 30_encoding.md R79: PACK writes the packed stream of its code words, unit t of group j
being bits [16(k-t)-1 : 16(k-1-t)] of B_j, and no other byte; PAD and OUTLEN follow; nothing else changes. -/
def Obligations.PackWritesThePackedStream : Prop :=
  ∀ (s : State) (n ng k G outbit : Nat) (word B : Nat → Nat),
    n = s.cmd.count.toNat → k = s.active.k → G = s.active.G → outbit = s.active.outbit → ng = (n + G - 1) / G →
    (∀ idx, word idx = if idx < n then (s.sourceHalf idx).toNat % 2 ^ outbit else 0) →
    (∀ j, B j = ∑ i ∈ Finset.range G, word (j * G + i) * 2 ^ (outbit * (G - 1 - i))) →
    s.Inv → s.pvalid = true → s.Undisturbed → s.aligned → s.inRange (ng * k) → s.apart (ng * k) →
    ∃ t, exec .pack s = .next t
      ∧ t = { s with mem := t.mem, outlen := BitVec.ofNat 32 (ng * k), pad := BitVec.ofNat 32 (ng * G - n) }.completed 0
      ∧ (∀ j i, j < ng → i < k →
          (t.mem.readHalf (s.cmd.dst.toNat + 2 * (j * k + i))).toNat = B j / 2 ^ (16 * (k - 1 - i)) % 2 ^ 16)
      ∧ ∀ a, a < s.cmd.dst.toNat ∨ s.cmd.dst.toNat + 2 * (ng * k) ≤ a → t.mem.readByte a = s.mem.readByte a

/-- 43_packer.md R188, R186: UNPACK writes the code words of its packed stream, word i of group j being bits
[outbit(G-i)-1 : outbit(G-1-i)] of B_j, without the padding, and no other byte; OUTLEN follows; nothing else changes. A
destination that ends exactly at 2^32 completes, by 00_scope.md R14 (log 20). -/
def Obligations.UnpackWritesTheCodeWords : Prop :=
  ∀ (s : State) (n k G outbit : Nat) (B : Nat → Nat),
    k = s.active.k → G = s.active.G → outbit = s.active.outbit →
    n = s.cmd.count.toNat / k * G - s.cmd.pad.toNat →
    (∀ j, B j = ∑ t ∈ Finset.range k, (s.sourceHalf (j * k + t)).toNat * 2 ^ (16 * (k - 1 - t))) →
    s.Inv → s.pvalid = true → s.Undisturbed → s.aligned → s.streamOk → s.inRange n → s.apart n →
    ∃ t, exec .unpack s = .next t
      ∧ t = { s with mem := t.mem, outlen := BitVec.ofNat 32 n }.completed 0
      ∧ (∀ j i, i < G → j * G + i < n →
          (t.mem.readHalf (s.cmd.dst.toNat + 2 * (j * G + i))).toNat = B j / 2 ^ (outbit * (G - 1 - i)) % 2 ^ outbit)
      ∧ ∀ a, a < s.cmd.dst.toNat ∨ s.cmd.dst.toNat + 2 * n ≤ a → t.mem.readByte a = s.mem.readByte a

/-- 43_packer.md R192 and R190 law 1, which the spec derives: a PACK, then an UNPACK of its output with COUNT = OUTLEN
and PAD = PAD, gives back the code words, each reduced to its low outbit bits; the UNPACK's destination may be the
PACK's source. -/
def Obligations.PackThenUnpackGivesBackTheWords : Prop :=
  ∀ (s : State) (n ng : Nat) (word dst : Word),
    n = s.cmd.count.toNat → ng = (n + s.active.G - 1) / s.active.G →
    s.Inv → s.pvalid = true → s.Undisturbed → s.aligned →
    s.inRange (ng * s.active.k) → s.apart (ng * s.active.k) →
    dst.toNat % 2 = 0 → dst.toNat + 2 * n ≤ 2 ^ 32 →
    (dst.toNat + 2 * n ≤ s.cmd.dst.toNat ∨ s.cmd.dst.toNat + 2 * (ng * s.active.k) ≤ dst.toNat) →
    ∃ t u, exec .pack s = .next t ∧ t.err = 0
      ∧ exec .unpack { t with cmd := ⟨word, s.cmd.dst, dst, t.outlen, t.pad, t.din, t.profileCfg⟩ } = .next u ∧ u.err = 0
      ∧ u.outlen = s.cmd.count
      ∧ ∀ i, i < n → (u.mem.readHalf (dst.toNat + 2 * i)).toNat = (s.sourceHalf i).toNat % 2 ^ s.active.outbit

/-- 60_exceptions.md R212, R211, 42_codec.md R152: the launch checks of ENCBUF and DECBUF in their order; a failing one
changes nothing but DONE, ERR and OUTLEN ← 0, and no memory. -/
def Obligations.ElementCommandsReportTheFirstFault : Prop :=
  ∀ (s : State) (i : Instr) (reports : BitVec 4 → Prop), i = .encbuf ∨ i = .decbuf → s.hazard = Hazard.clear →
    (∀ c, reports c ↔ exec i s = .next ({ s with outlen := 0 }.completed c)) →
    (s.pvalid = false → reports 3)
      ∧ (s.pvalid = true → ¬ s.aligned → reports 4)
      ∧ (s.pvalid = true → s.aligned → ¬ s.inRange s.cmd.count.toNat → reports 5)
      ∧ (s.pvalid = true → s.aligned → s.inRange s.cmd.count.toNat → ¬ s.apart s.cmd.count.toNat →
          s.cmd.src ≠ s.cmd.dst → reports 7)

/-- 60_exceptions.md R212, R211, 43_packer.md R184, R189: the launch checks of PACK in their order, with no in-place. -/
def Obligations.PackReportsTheFirstFault : Prop :=
  ∀ (s : State) (u : Nat) (reports : BitVec 4 → Prop),
    u = (s.cmd.count.toNat + s.active.G - 1) / s.active.G * s.active.k → s.hazard = Hazard.clear →
    (∀ c, reports c ↔ exec .pack s = .next ({ s with outlen := 0 }.completed c)) →
    (s.pvalid = false → reports 3)
      ∧ (s.pvalid = true → ¬ s.aligned → reports 4)
      ∧ (s.pvalid = true → s.aligned → ¬ s.inRange u → reports 5)
      ∧ (s.pvalid = true → s.aligned → s.inRange u → ¬ s.apart u → reports 7)

/-- 60_exceptions.md R212, R211, 43_packer.md R187, R188: the launch checks of UNPACK in their order, STREAM before
RANGE. -/
def Obligations.UnpackReportsTheFirstFault : Prop :=
  ∀ (s : State) (n : Nat) (reports : BitVec 4 → Prop),
    n = s.cmd.count.toNat / s.active.k * s.active.G - s.cmd.pad.toNat → s.hazard = Hazard.clear →
    (∀ c, reports c ↔ exec .unpack s = .next ({ s with outlen := 0 }.completed c)) →
    (s.pvalid = false → reports 3)
      ∧ (s.pvalid = true → ¬ s.aligned → reports 4)
      ∧ (s.pvalid = true → s.aligned → ¬ s.streamOk → reports 6)
      ∧ (s.pvalid = true → s.aligned → s.streamOk → ¬ s.inRange n → reports 5)
      ∧ (s.pvalid = true → s.aligned → s.streamOk → s.inRange n → ¬ s.apart n → reports 7)

/-- 40_command_cycle.md R101, R102: an aborted buffer command leaves exactly the first js groups of what it would have
written, OUTLEN = out(js), PAD unchanged and ERR = ABORTED, or has completed as on success. Which js is a free value. -/
def Obligations.AbortLeavesAPrefixOfWholeGroups : Prop :=
  ∀ (s : State) (i : Instr) (sh : Shape), shapeOf i s = some sh → bufferCheckOf i s = none → s.mem.wf = true →
    s.abortReq = true → s.params.memErrors = false → s.hazard = Hazard.clear →
    ∃ t u js, exec i s = .next t ∧ exec i { s with abortReq := false } = .next u ∧ js ≤ sh.ng
      ∧ (js = sh.ng → t = u)
      ∧ (js < sh.ng →
          t = { s with mem := t.mem, outlen := BitVec.ofNat 32 (sh.out js), satcnt := t.satcnt, sat := t.sat }.completed 9
          ∧ (∀ a, t.mem.readByte a =
              if s.cmd.dst.toNat ≤ a ∧ a < s.cmd.dst.toNat + 2 * sh.out js then u.mem.readByte a else s.mem.readByte a)
          ∧ (i = .encbuf → t.satcnt.toNat = min (s.satcnt.toNat + s.satEvents js) (2 ^ 32 - 1)
              ∧ t.sat = (s.sat || decide (0 < s.satEvents js)))
          ∧ (i ≠ .encbuf → t.satcnt = s.satcnt ∧ t.sat = s.sat))

/-- 40_command_cycle.md R103, 60_exceptions.md R214: with MEM_ERRORS = 1 a buffer command completes as with 0, or leaves
exactly the groups before a group jf, the bytes beyond jf's destination as they were, OUTLEN = out(jf), PAD unchanged
and ERR = BUS. Whether and which jf are free values. -/
def Obligations.BusErrorLeavesAPrefixOfWholeGroups : Prop :=
  ∀ (s : State) (i : Instr) (sh : Shape), shapeOf i s = some sh → bufferCheckOf i s = none → s.mem.wf = true →
    s.abortReq = false → s.params.memErrors = true → s.hazard = Hazard.clear →
    ∃ t u, exec i s = .next t ∧ exec i { s with params := { s.params with memErrors := false } } = .next u
      ∧ (t = { u with params := s.params }
        ∨ ∃ jf, jf < sh.ng
          ∧ t = { s with mem := t.mem, outlen := BitVec.ofNat 32 (sh.out jf), satcnt := t.satcnt, sat := t.sat }.completed 8
          ∧ (∀ a, s.cmd.dst.toNat ≤ a → a < s.cmd.dst.toNat + 2 * sh.out jf → t.mem.readByte a = u.mem.readByte a)
          ∧ (∀ a, a < s.cmd.dst.toNat ∨ s.cmd.dst.toNat + 2 * sh.out (jf + 1) ≤ a → t.mem.readByte a = s.mem.readByte a)
          ∧ (i = .encbuf → t.satcnt.toNat = min (s.satcnt.toNat + s.satEvents jf) (2 ^ 32 - 1)
              ∧ t.sat = (s.sat || decide (0 < s.satEvents jf)))
          ∧ (i ≠ .encbuf → t.satcnt = s.satcnt ∧ t.sat = s.sat))

/-- 40_command_cycle.md R103: "With `abortReq = 1` and `MEM_ERRORS = 1`, the step may take either rule's outcome": the
one the command has without the bus errors, or the one it has without the abort request. Which is a free value. -/
def Obligations.AbortAndBusErrorTakeEitherOutcome : Prop :=
  ∀ (s : State) (i : Instr) (sh : Shape), shapeOf i s = some sh → s.abortReq = true → s.params.memErrors = true →
    ∃ t u v, exec i s = .next t ∧ exec i { s with params := { s.params with memErrors := false } } = .next u
      ∧ exec i { s with abortReq := false } = .next v ∧ (t = { u with params := s.params } ∨ t = v)

/-! ## Frames of all commands -/

/-- 10_state.md R20, 20_memory.md R58, 60_exceptions.md R216: a command changes no byte of memory outside the
destination range of a transfer whose launch checks pass, in every outcome. -/
def Obligations.CommandsWriteOnlyTheirDestination : Prop :=
  ∀ (s t : State) (i : Instr) (a : Nat), s.mem.wf = true → exec i s = .next t →
    (∀ sh, shapeOf i s = some sh → bufferCheckOf i s = none →
      a < s.cmd.dst.toNat ∨ s.cmd.dst.toNat + 2 * sh.outcount ≤ a) →
    t.mem.readByte a = s.mem.readByte a

/-- 30_encoding.md R72, 60_exceptions.md R223, R224: a command changes only the registers it writes: the host's
registers, the interrupt enables and OVR never, PAD only PACK, the profile only CFG, DOUT only ENC and DEC, OUTLEN and
memory only the buffer commands, SATCNT and SAT only ENC and ENCBUF. -/
def Obligations.CommandsLeaveTheOtherRegistersAlone : Prop :=
  ∀ (s t : State) (i : Instr), exec i s = .next t →
    t.params = s.params ∧ t.ieDone = s.ieDone ∧ t.ieErr = s.ieErr ∧ t.ovr = s.ovr ∧ t.profileCfg = s.profileCfg
      ∧ t.src = s.src ∧ t.dst = s.dst ∧ t.count = s.count ∧ t.din = s.din ∧ t.cmd = s.cmd
      ∧ t.pending = s.pending ∧ t.replies = s.replies ∧ t.draws = s.draws
      ∧ (i ≠ .pack → t.pad = s.pad)
      ∧ (i ≠ .cfg → t.profile = s.profile ∧ t.group = s.group ∧ t.pvalid = s.pvalid)
      ∧ (i ≠ .enc → i ≠ .dec → t.dout = s.dout)
      ∧ (i = .cfg ∨ i = .enc ∨ i = .dec → t.outlen = s.outlen ∧ t.mem = s.mem)
      ∧ (i ≠ .enc → i ≠ .encbuf → s.hazard = Hazard.clear → t.satcnt = s.satcnt ∧ t.sat = s.sat)

/-- 40_command_cycle.md R91: "The command reads only these copies and the active profile": what stands in SRC, DST,
COUNT, DIN and PROFILE_CFG while it runs changes nothing of it; nor does PAD, unless it is a PACK
(70_reset_and_hazards.md R246). -/
def Obligations.CommandsReadOnlyLatchedOperands : Prop :=
  ∀ (s t : State) (i : Instr) (src dst count pad : Word) (din : Half) (cfg : ProfileCfg), exec i s = .next t →
    exec i { s with src := src, dst := dst, count := count, din := din, profileCfg := cfg } =
        .next { t with src := src, dst := dst, count := count, din := din, profileCfg := cfg }
      ∧ (i ≠ .pack →
        exec i { s with src := src, dst := dst, count := count, pad := pad, din := din, profileCfg := cfg } =
          .next { t with src := src, dst := dst, count := count, pad := pad, din := din, profileCfg := cfg })

/-! ## Host writes -/

/-- 40_command_cycle.md R90, R91: a CMD write while Idle launches, whatever the word: it latches the operands, clears
DONE, ERR and the abort request, goes Busy, and changes no other register. -/
def Obligations.CmdWriteWhileIdleLaunches : Prop :=
  ∀ (s : State) (w : Word), s.phase = .idle → s.nextWrites .cmd w →
    step s =
      .next { s.stepped with
        cmd := ⟨w, s.src, s.dst, s.count, s.pad, s.din, s.profileCfg⟩
        done := false, err := 0, abortReq := false, phase := .busy, hazard := ⟨false, false, none⟩ }

/-- 40_command_cycle.md R97: a CMD write while Busy is dropped and sets OVR, which "stays 1 until the host writes 1 to
STATUS bit 3 or a reset occurs". -/
def Obligations.CmdWriteWhileBusyIsDropped : Prop :=
  (∀ (s : State) (w : Word), s.phase = .busy → s.nextWrites .cmd w → step s = .next { s.stepped with ovr := true })
    ∧ ∀ s t : State, step s = .next t → s.ovr = true → s.nextResets = false →
        (∀ v, s.nextWrites .status v → v.getLsbD 3 = false) → t.ovr = true

/-- 40_command_cycle.md R98: a STATUS write clears each W1C bit whose bit is 1; the read-only bits ignore it; clearing
DONE drops irq and does not change ERR. -/
def Obligations.StatusWriteClearsItsBits : Prop :=
  ∀ (s : State) (v : Word), s.nextWrites .status v →
    ∃ t, step s = .next t
      ∧ t = { s.stepped with
          done := s.done && !v.getLsbD 1, sat := s.sat && !v.getLsbD 2, ovr := s.ovr && !v.getLsbD 3
          hazard := t.hazard }
      ∧ (v.getLsbD 1 = true → t.irq = false)
      ∧ (v.getLsbD 2 = false ∨ s.phase = .idle → t.hazard = s.hazard)

/-- 40_command_cycle.md R99: a SATCNT write of any value sets it to 0 and does not change STATUS.SAT. -/
def Obligations.SatcntWriteClearsTheCount : Prop :=
  ∀ (s : State) (v : Word), s.nextWrites .satcnt v →
    ∃ t, step s = .next t ∧ t = { s.stepped with satcnt := 0, hazard := t.hazard }
      ∧ (s.phase = .idle → t.hazard = s.hazard)

/-- 10_state.md R25, 40_command_cycle.md R100: CTRL with bit 0 = 0 sets IE_DONE and IE_ERR from bits 8 and 9, and with
bit 1 = 1 requests an abort of a running buffer command; it changes nothing else. -/
def Obligations.AbortWriteRequestsAnAbort : Prop :=
  ∀ (s : State) (v : Word), s.nextWrites .ctrl v → v.getLsbD 0 = false →
    ∃ t, step s = .next t
      ∧ t = { s.stepped with ieDone := v.getLsbD 8, ieErr := v.getLsbD 9, abortReq := t.abortReq }
      ∧ (t.abortReq = true ↔
          s.abortReq = true
            ∨ (v.getLsbD 1 = true ∧ s.phase = .busy
                ∧ (decode s.cmd.word = .ok .encbuf ∨ decode s.cmd.word = .ok .decbuf ∨ decode s.cmd.word = .ok .pack
                    ∨ decode s.cmd.word = .ok .unpack)))

/-- 10_state.md R28, R31 to R34, R36, R39: what a write to the other registers stores; read-only registers ignore it;
nothing else changes. -/
def Obligations.PlainRegisterWritesStoreTheirFields : Prop :=
  ∀ (s : State) (v : Word),
    (s.nextWrites .src v → step s = .next { s.stepped with src := v })
      ∧ (s.nextWrites .dst v → step s = .next { s.stepped with dst := v })
      ∧ (s.nextWrites .count v → step s = .next { s.stepped with count := v })
      ∧ (s.nextWrites .din v → step s = .next { s.stepped with din := BitVec.ofNat 16 (v.toNat % 2 ^ 16) })
      ∧ (s.nextWrites .profileCfg v →
          step s =
            .next { s.stepped with
              profileCfg :=
                ⟨BitVec.ofNat 5 (v.toNat % 2 ^ 5), BitVec.ofNat 5 (v.toNat / 2 ^ 8 % 2 ^ 5),
                  BitVec.ofNat 4 (v.toNat / 2 ^ 16 % 2 ^ 4)⟩ })
      ∧ (s.nextWrites .pad v → ∃ t, step s = .next t ∧ t = { s.stepped with pad := v, hazard := t.hazard }
          ∧ (s.running ≠ some .pack ∨ s.phase = .idle → t.hazard = s.hazard))
      ∧ (∀ r, r = .id ∨ r = .param ∨ r = .profile ∨ r = .group ∨ r = .outlen ∨ r = .dout → s.nextWrites r v →
          step s = .next s.stepped)

/-- 40_command_cycle.md R104, R105, 70_reset_and_hazards.md R240, R241: a CTRL write with bit 0 = 1, whatever its other
bits, and the reset input have the same effect: every register field takes the value of 10_state.md R47, the engine is
Idle, and memory keeps every byte but the destination range of a Busy buffer command whose launch checks pass. -/
def Obligations.ResetClearsEveryRegister : Prop :=
  ∀ (s : State) (v : Word), s.mem.wf = true →
    ((s.nextWrites .ctrl v ∧ v.getLsbD 0 = true) ∨ ∃ rest, s.pending = .reset :: rest) →
    ∃ t, step s = .next t
      ∧ t = { s.stepped with
          ieDone := false, ieErr := false, done := false, sat := false, ovr := false, pvalid := false, err := 0
          profileCfg := ⟨0, 0, 0⟩, profile := ⟨0, 0, 0, 0⟩, group := ⟨0, 0⟩
          src := 0, dst := 0, count := 0, pad := 0, outlen := 0, satcnt := 0, din := 0, dout := 0
          phase := .idle, cmd := t.cmd, abortReq := false, mem := t.mem, hazard := Hazard.clear }
      ∧ t.irq = false
      ∧ ∀ a, (∀ i sh, s.phase = .busy → s.running = some i → shapeOf i s = some sh → bufferCheckOf i s = none →
            a < s.cmd.dst.toNat ∨ s.cmd.dst.toNat + 2 * sh.outcount ≤ a) →
          t.mem.readByte a = s.mem.readByte a

/-- 70_reset_and_hazards.md R243: a reset asserted during a register access leaves the reset of the state before the
access, or of the state after it. Which is a free value. -/
def Obligations.ResetDuringAnAccessTakesEitherOrder : Prop :=
  ∀ (s : State) (a : RegAccess) (rest : List Event), s.pending = .resetDuring a :: rest → a.wf s.params.regBase = true →
    ∃ t u, step s = .next t ∧ s.stepped.regAccess a = .next u ∧ (t = s.stepped.resetEffect ∨ t = u.resetEffect)

/-! ## Host reads and memory accesses -/

/-- 20_memory.md R50: a register access is refused exactly when it is not a 32-bit access to a multiple of 4 in
0x00..0x3C of the window. R50 refuses another size and an offset that is no multiple of 4; that a 32-bit access outside
the window is refused too, and that a register's address is REG_BASE plus its offset without wrapping, is the model's
reading (log 14). -/
def Obligations.OnlyWordAccessesToTheWindowAreTaken : Prop :=
  ∀ (s : State) (width addr : Nat) (v : Word) (rest : List Event) (e : Event),
    e = .reg (.read width addr) ∨ e = .reg (.write width addr v) → s.pending = e :: rest →
    (step s = .refused .badRegisterAccess ↔
        ¬ (width = 32 ∧ s.params.regBase ≤ addr ∧ addr - s.params.regBase ≤ 0x3C ∧ (addr - s.params.regBase) % 4 = 0))
      ∧ ((∃ t, step s = .next t) ↔
        width = 32 ∧ s.params.regBase ≤ addr ∧ addr - s.params.regBase ≤ 0x3C ∧ (addr - s.params.regBase) % 4 = 0)

/-- 10_state.md R22 to R38: which register each offset of the window reaches, and what each register reads as. -/
def Obligations.RegistersReadAsTheirFields : Prop :=
  (∀ base : Nat, (List.range 16).map (fun i => regAt base 32 (base + 4 * i)) =
    [some .id, some .param, some .ctrl, some .status, some .cmd, some .profileCfg, some .profile, some .group,
      some .src, some .dst, some .count, some .pad, some .outlen, some .din, some .dout, some .satcnt])
    ∧ ∀ s : State,
      s.readReg .id = 0x41504307
        ∧ (s.readReg .param).toNat
            = 0x00201010 + 2 ^ 24 * s.params.rangeCheck.toNat + 2 ^ 25 * s.params.memErrors.toNat
        ∧ (s.readReg .ctrl).toNat = 2 ^ 8 * s.ieDone.toNat + 2 ^ 9 * s.ieErr.toNat
        ∧ (s.readReg .status).toNat
            = (if s.phase = .busy then 1 else 0) + 2 * s.done.toNat + 4 * s.sat.toNat + 8 * s.ovr.toNat
              + 16 * s.pvalid.toNat + 2 ^ 8 * s.err.toNat
        ∧ s.readReg .cmd = 0
        ∧ (s.readReg .profileCfg).toNat
            = s.profileCfg.outbit.toNat + 2 ^ 8 * s.profileCfg.mant.toNat + 2 ^ 16 * s.profileCfg.quant.toNat
        ∧ (s.readReg .profile).toNat
            = s.profile.outbit.toNat + 2 ^ 8 * s.profile.mant.toNat + 2 ^ 16 * s.profile.quant.toNat
              + 2 ^ 24 * s.profile.margin.toNat
        ∧ (s.readReg .group).toNat = s.group.units.toNat + 2 ^ 8 * s.group.words.toNat
        ∧ s.readReg .src = s.src ∧ s.readReg .dst = s.dst ∧ s.readReg .count = s.count ∧ s.readReg .pad = s.pad
        ∧ s.readReg .outlen = s.outlen ∧ s.readReg .satcnt = s.satcnt
        ∧ (s.readReg .din).toNat = s.din.toNat ∧ (s.readReg .dout).toNat = s.dout.toNat

/-- 10_state.md R39, 20_memory.md R65: a register read returns the register's value while Idle, and never changes
anything but the reply it gives. -/
def Obligations.RegisterReadsHaveNoSideEffect : Prop :=
  ∀ (s : State) (addr : Nat) (r : Reg) (rest : List Event), regAt s.params.regBase 32 addr = some r →
    s.pending = .reg (.read 32 addr) :: rest →
    ∃ v, step s = .next { s.stepped with replies := .reg v :: s.replies } ∧ (s.phase = .idle → v = s.readReg r)

/-- 40_command_cycle.md R106: while Busy, STATUS.BUSY reads 1 and DONE and ERR read 0, and a register that the running
command does not write at completion reads its stored value. (For an illegal word the model also frees OUTLEN: log
12.) -/
def Obligations.BusyReadsOfOtherRegistersAreStored : Prop :=
  ∀ (s : State) (addr : Nat) (r : Reg) (rest : List Event), s.Inv → s.phase = .busy →
    regAt s.params.regBase 32 addr = some r → s.pending = .reg (.read 32 addr) :: rest →
    ∃ v, step s = .next { s.stepped with replies := .reg v :: s.replies }
      ∧ (r = .status → v.getLsbD 0 = true ∧ v.getLsbD 1 = false ∧ v.getLsbD 3 = s.ovr
          ∧ v.extractLsb' 8 4 = 0
          ∧ (s.running ≠ some .cfg → v.getLsbD 4 = s.pvalid)
          ∧ (s.running ≠ some .enc → s.running ≠ some .encbuf → v.getLsbD 2 = s.sat))
      ∧ (r = .id ∨ r = .param ∨ r = .ctrl ∨ r = .cmd ∨ r = .profileCfg ∨ r = .src ∨ r = .dst ∨ r = .count ∨ r = .din →
          v = s.readReg r)
      ∧ (r = .profile ∨ r = .group → s.running ≠ some .cfg → v = s.readReg r)
      ∧ (r = .dout → s.running ≠ some .enc → s.running ≠ some .dec → v = s.readReg r)
      ∧ (r = .satcnt → s.running ≠ some .enc → s.running ≠ some .encbuf → v = s.readReg r)
      ∧ (r = .outlen → s.running = some .cfg ∨ s.running = some .enc ∨ s.running = some .dec → v = s.readReg r)
      ∧ (r = .pad → s.running ≠ some .pack → v = s.readReg r)

/-- 10_state.md R44: the interrupt output is `STATUS.DONE and (CTRL.IE_DONE or (CTRL.IE_ERR and STATUS.ERR != 0))`; it
is 0 while Busy (60_exceptions.md R220). -/
def Obligations.IrqIsDoneAndEnabled : Prop :=
  (∀ s : State, s.irq = true ↔ s.done = true ∧ (s.ieDone = true ∨ (s.ieErr = true ∧ s.err ≠ 0)))
    ∧ ∀ s : State, s.Inv → s.phase = .busy → s.irq = false

/-- 20_memory.md R63: a host byte or halfword access stops with HAZARD exactly when it writes a byte of the running
buffer command's source range, or reads or writes a byte of its destination range. The model's, not the spec's: that the
ranges are owned also when a launch check will fail (log 11), the length of a destination that 30_encoding.md R78 does
not define (log 21), that a read of the source range goes on (log 22), and the fault of a halfword beyond memory
(log 13). -/
def Obligations.HostAccessToAnOwnedRangeIsAHazard : Prop :=
  ∀ (s : State) (a : Word) (len : Nat) (write read : MemAccess) (m : Memory) (reply : Reply) (rest : List Event)
    (inSource inDest : Prop),
    (len = 1 ∧ read = .readByte a ∧ reply = .byte (s.mem.readByte a.toNat)
        ∧ ∃ v, write = .writeByte a v ∧ m = s.mem.writeByte a.toNat v)
      ∨ (len = 2 ∧ read = .readHalf a ∧ reply = .half (s.mem.readHalf a.toNat)
        ∧ ∃ v, write = .writeHalf a v ∧ m = s.mem.writeHalf a.toNat v) →
    (inSource ↔ s.phase = .busy ∧ ∃ i, s.running = some i ∧ isBufferCommand i = true
      ∧ ∃ b, a.toNat ≤ b ∧ b < a.toNat + len ∧ s.cmd.src.toNat ≤ b ∧ b < s.cmd.src.toNat + 2 * s.cmd.count.toNat) →
    (inDest ↔ s.phase = .busy ∧ ∃ i sh, s.running = some i ∧ shapeOf i s = some sh
      ∧ ∃ b, a.toNat ≤ b ∧ b < a.toNat + len ∧ s.cmd.dst.toNat ≤ b ∧ b < s.cmd.dst.toNat + 2 * sh.outcount) →
    (s.pending = .mem write :: rest →
        (2 ^ 32 < a.toNat + len → step s = .fault .outsideMemory)
          ∧ (a.toNat + len ≤ 2 ^ 32 → inSource ∨ inDest → step s = .fault .hazard)
          ∧ (a.toNat + len ≤ 2 ^ 32 → ¬ inSource → ¬ inDest → step s = .next { s.stepped with mem := m }))
      ∧ (s.pending = .mem read :: rest →
        (2 ^ 32 < a.toNat + len → step s = .fault .outsideMemory)
          ∧ (a.toNat + len ≤ 2 ^ 32 → inDest → step s = .fault .hazard)
          ∧ (a.toNat + len ≤ 2 ^ 32 → ¬ inDest → step s = .next { s.stepped with replies := reply :: s.replies }))

/-- 20_memory.md R53: a host halfword write while Idle stores the low byte at the address and the high byte above it,
and no other byte; a halfword read of it returns it. -/
def Obligations.HostHalfwordsAreLittleEndian : Prop :=
  ∀ (s : State) (a : Word) (v : Half) (rest : List Event), s.mem.wf = true → s.phase = .idle → a.toNat + 2 ≤ 2 ^ 32 →
    s.pending = .mem (.writeHalf a v) :: .mem (.readHalf a) :: rest →
    ∃ t, step s = .next t
      ∧ (t.mem.readByte a.toNat).toNat = v.toNat % 2 ^ 8 ∧ (t.mem.readByte (a.toNat + 1)).toNat = v.toNat / 2 ^ 8
      ∧ (∀ b, b ≠ a.toNat → b ≠ a.toNat + 1 → t.mem.readByte b = s.mem.readByte b)
      ∧ t = { s.stepped with mem := t.mem }
      ∧ step t = .next { t.stepped with replies := .half v :: s.replies }

/-! ## Hazards at completion -/

/-- 70_reset_and_hazards.md R246, by the "any value" choice it gives (log 10): what a host write that met the running
command leaves. PAD after a PACK is what stands there, or the padding count of a PACK that succeeds. SATCNT after an ENC
or ENCBUF is at most what it would be without the host's write, which is at most the count before it and the
SaturationEvents; that this holds of failing completions too is the model's reading (log 10). SAT stays as it stands if
nothing saturates. -/
def Obligations.HazardousWritesLeaveBoundedValues : Prop :=
  ∀ s : State,
    (∀ t, exec .pack s = .next t →
        t.pad = s.pad
          ∨ (t.err = 0 ∧ t.pad = BitVec.ofNat 32
              ((s.cmd.count.toNat + s.active.G - 1) / s.active.G * s.active.G - s.cmd.count.toNat)))
      ∧ (∀ (i : Instr) (t v : State) (before : Word), i = .enc ∨ i = .encbuf → s.hazard.satcntBefore = some before →
          exec i s = .next t → exec i { s with satcnt := before, hazard := Hazard.clear } = .next v →
          t.satcnt.toNat ≤ v.satcnt.toNat)
      ∧ (∀ (t : State) (before : Word), s.hazard.satcntBefore = some before → exec .enc s = .next t →
          t.satcnt.toNat ≤
            min (before.toNat + if (encodeSample s.active s.cmd.din).satev then 1 else 0) (2 ^ 32 - 1))
      ∧ (∀ (t : State) (before : Word), s.mem.wf = true → s.hazard.satcntBefore = some before →
          exec .encbuf s = .next t →
          t.satcnt.toNat ≤ min (before.toNat + s.satEvents s.cmd.count.toNat) (2 ^ 32 - 1))
      ∧ (∀ t, exec .enc s = .next t → (encodeSample s.active s.cmd.din).satev = false → t.sat = s.sat)
      ∧ ∀ t, s.mem.wf = true → exec .encbuf s = .next t → s.satEvents s.cmd.count.toNat = 0 → t.sat = s.sat

/-! ## The whole machine -/

/-- 10_state.md R47, 70_reset_and_hazards.md R240: the register fields, the phase and the abort request after reset. -/
def Obligations.ResetStateIsR47 : Prop :=
  State.reset.ieDone = false ∧ State.reset.ieErr = false ∧ State.reset.done = false ∧ State.reset.sat = false
    ∧ State.reset.ovr = false ∧ State.reset.pvalid = false ∧ State.reset.err = 0
    ∧ State.reset.profileCfg = ⟨0, 0, 0⟩ ∧ State.reset.profile = ⟨0, 0, 0, 0⟩ ∧ State.reset.group = ⟨0, 0⟩
    ∧ State.reset.src = 0 ∧ State.reset.dst = 0 ∧ State.reset.count = 0 ∧ State.reset.pad = 0
    ∧ State.reset.outlen = 0 ∧ State.reset.din = 0 ∧ State.reset.dout = 0 ∧ State.reset.satcnt = 0
    ∧ State.reset.phase = .idle ∧ State.reset.abortReq = false ∧ State.reset.irq = false

/-- The state after reset meets the invariant. -/
def Obligations.ResetStateMeetsTheInvariant : Prop := State.reset.Inv

/-- Every step keeps the invariant: memory's canonical form, a legal profile with its alignment group exactly when
PVALID = 1, DONE and ERR clear while Busy, no abort request or hazard without its command, ERR a code of R210, BUS only
with MEM_ERRORS = 1. -/
def Obligations.StepKeepsTheInvariant : Prop := ∀ s t : State, s.Inv → step s = .next t → t.Inv

/-- 00_scope.md R9, 93_implementation_defined.md section 2: the parameters are fixed for the whole run. -/
def Obligations.StepNeverChangesTheParameters : Prop := ∀ s t : State, step s = .next t → t.params = s.params

/-- 10_state.md R26, 40_command_cycle.md R90, R98: SAT falls only by a STATUS write with bit 2 = 1 or a reset (or where
such a write met the running command, R246); DONE falls only by a STATUS write with bit 1 = 1, a launch or a reset. -/
def Obligations.StickyFlagsFallOnlyByTheirClears : Prop :=
  ∀ s t : State, step s = .next t → s.nextResets = false →
    (s.sat = true → t.sat = false →
        (∃ v, s.nextWrites .status v ∧ v.getLsbD 2 = true) ∨ s.hazard.satCleared = true)
      ∧ (s.done = true → t.done = false →
        (∃ v, s.nextWrites .status v ∧ v.getLsbD 1 = true) ∨ (s.phase = .idle ∧ ∃ w, s.nextWrites .cmd w))

/-- 10_state.md R47, 93_implementation_defined.md U10: the latched record is never read while Idle: two Idle states that
differ only in it take the same step, and are equal once Busy. -/
def Obligations.IdleStepsNeverReadTheLatchedCommand : Prop :=
  ∀ (s : State) (c : Command), s.phase = .idle →
    (∀ t, step s = .next t → ∃ d, step { s with cmd := c } = .next { t with cmd := d }
        ∧ (t.phase = .busy → d = t.cmd))
      ∧ (∀ f, step s = .fault f → step { s with cmd := c } = .fault f)
      ∧ (∀ r, step s = .refused r → step { s with cmd := c } = .refused r)
end

