-- ==== Sys2Proof/Laws/Bits.lean ====
section
/-! SUPPORT. Bit fields, ceiling division, leading zeros, and the strings of fields of the packer. -/

namespace Sys2Proof.Machine

/-! ## Bit fields -/

theorem bitField_eq (v lo width : Nat) : bitField v lo width = v / 2 ^ lo % 2 ^ width := by
  rw [bitField, Nat.shiftRight_eq_div_pow]

theorem bitField_lt (v lo width : Nat) : bitField v lo width < 2 ^ width := Nat.mod_lt _ (by positivity)

theorem testBit_bitField (v lo width i : Nat) :
    (bitField v lo width).testBit i = (decide (i < width) && v.testBit (lo + i)) := by
  rw [bitField, Nat.testBit_mod_two_pow, Nat.testBit_shiftRight]

theorem bitField_eq_self {v width : Nat} (h : v < 2 ^ width) : bitField v 0 width = v := by
  rw [bitField, Nat.shiftRight_zero, Nat.mod_eq_of_lt h]

/-- The value of a register composed of two fields. -/
theorem toNat_append {n m : Nat} (a : BitVec n) (b : BitVec m) : (a ++ b).toNat = a.toNat * 2 ^ m + b.toNat := by
  rw [BitVec.toNat_append, ← Nat.shiftLeft_add_eq_or_of_lt b.isLt, Nat.shiftLeft_eq]

/-! ## The one's complement (00_scope.md R16) -/

theorem onesComplement_lt (n v : Nat) : onesComplement n v < 2 ^ n := by
  have := Nat.two_pow_pos n
  unfold onesComplement
  omega

theorem onesComplement_onesComplement {n v : Nat} (h : v < 2 ^ n) : onesComplement n (onesComplement n v) = v := by
  unfold onesComplement
  omega

theorem testBit_onesComplement {n v i : Nat} (h : v < 2 ^ n) :
    (onesComplement n v).testBit i = (decide (i < n) && !v.testBit i) := by
  rw [onesComplement, show 2 ^ n - 1 - v = 2 ^ n - (v + 1) by omega]
  exact Nat.testBit_two_pow_sub_succ h i

/-! ## Ceiling division (00_scope.md R12) -/

/-- `ceil_div(a, q)` is the least c with c * q ≥ a. -/
theorem ceilDiv_le_iff {a q : Nat} (hq : 1 ≤ q) (c : Nat) : ceilDiv a q ≤ c ↔ a ≤ c * q := by
  rw [ceilDiv, Nat.div_le_iff_le_mul_add_pred (by omega), Nat.mul_comm]
  omega

theorem le_ceilDiv_mul (a : Nat) {q : Nat} (hq : 1 ≤ q) : a ≤ ceilDiv a q * q :=
  (ceilDiv_le_iff hq _).mp le_rfl

theorem lt_ceilDiv_iff {a q : Nat} (hq : 1 ≤ q) (c : Nat) : c < ceilDiv a q ↔ c * q < a := by
  rw [← Nat.not_le, ceilDiv_le_iff hq, Nat.not_le]

theorem ceilDiv_mul_lt_add (a : Nat) {q : Nat} (hq : 1 ≤ q) : ceilDiv a q * q < a + q := by
  have h := Nat.div_mul_le_self (a + q - 1) q
  unfold ceilDiv
  omega

/-! ## Leading zeros (00_scope.md R14) -/

theorem leadingZeros_le (n m : Nat) : leadingZeros n m ≤ n := by
  induction n with
  | zero => simp [leadingZeros]
  | succ n ih =>
    rw [leadingZeros]
    split <;> omega

/-- A value below 2^n has exactly its leading zeros above its leading 1. -/
theorem leadingZeros_spec {n m : Nat} (h : m < 2 ^ n) (hm : m ≠ 0) :
    leadingZeros n m < n ∧ 2 ^ (n - 1 - leadingZeros n m) ≤ m ∧ m < 2 ^ (n - leadingZeros n m) := by
  induction n with
  | zero => omega
  | succ n ih =>
    rw [leadingZeros]
    by_cases hb : m.testBit n = true
    · have hge := Nat.ge_two_pow_of_testBit hb
      rw [if_pos hb]
      exact ⟨by omega, by simpa using hge, by simpa using h⟩
    · rw [if_neg hb]
      have hlt : m < 2 ^ n := by
        by_contra hge
        exact hb (by rw [Nat.testBit_eq_decide_div_mod_eq, Nat.div_eq_of_lt_le (k := 1)] <;>
          simp <;> omega)
      have ⟨h1, h2, h3⟩ := ih hlt
      exact ⟨by omega, by rwa [show n + 1 - 1 - (leadingZeros n m + 1) = n - 1 - leadingZeros n m by omega],
        by rwa [show n + 1 - (leadingZeros n m + 1) = n - leadingZeros n m by omega]⟩

theorem leadingZeros_zero (n : Nat) : leadingZeros n 0 = n := by
  induction n with
  | zero => rfl
  | succ n ih => rw [leadingZeros, Nat.zero_testBit, ih]; simp

/-! ## Strings of fields (30_encoding.md R79, 43_packer.md R181, R186) -/

theorem concatFields_nil (w : Nat) : concatFields w [] = 0 := rfl

theorem concatFields_concat (w : Nat) (l : List Nat) {v : Nat} (hv : v < 2 ^ w) :
    concatFields w (l ++ [v]) = concatFields w l * 2 ^ w + v := by
  rw [concatFields, List.foldl_append, List.foldl_cons, List.foldl_nil, ← Nat.shiftLeft_add_eq_or_of_lt hv,
    Nat.shiftLeft_eq]
  rfl

theorem concatFields_lt (w : Nat) (l : List Nat) (h : ∀ v ∈ l, v < 2 ^ w) :
    concatFields w l < 2 ^ (w * l.length) := by
  induction l using List.reverseRecOn with
  | nil => simp [concatFields_nil]
  | append_singleton l v ih =>
    have hv : v < 2 ^ w := h v (by simp)
    have hl := ih fun u hu => h u (by simp [hu])
    rw [concatFields_concat w l hv, List.length_append, List.length_singleton, Nat.mul_add, Nat.mul_one, Nat.pow_add]
    nlinarith

/-- The string of fields as a sum: the first field is the most significant. -/
theorem concatFields_eq_sum (w n : Nat) (f : Nat → Nat) (h : ∀ i < n, f i < 2 ^ w) :
    concatFields w ((List.range n).map f) = ∑ i ∈ Finset.range n, f i * 2 ^ (w * (n - 1 - i)) := by
  induction n with
  | zero => rfl
  | succ n ih =>
    rw [List.range_succ, List.map_append, List.map_singleton, concatFields_concat _ _ (h n (by omega)),
      ih fun i hi => h i (by omega), Finset.sum_range_succ, Finset.sum_mul]
    simp only [Nat.add_sub_cancel, Nat.sub_self, Nat.mul_zero, Nat.pow_zero, Nat.mul_one, Nat.add_right_cancel_iff]
    refine Finset.sum_congr rfl fun i hi => ?_
    have hi := Finset.mem_range.mp hi
    rw [Nat.mul_assoc, ← Nat.pow_add, ← Nat.mul_succ, show (n - 1 - i).succ = n - i by omega]

/-- Field `i` of a string of fields is field `i`. -/
theorem bitField_concatFields (w : Nat) (l : List Nat) (h : ∀ v ∈ l, v < 2 ^ w) {i : Nat} (hi : i < l.length) :
    bitField (concatFields w l) (w * (l.length - 1 - i)) w = l[i] := by
  induction l using List.reverseRecOn with
  | nil => simp at hi
  | append_singleton l v ih =>
    have hv : v < 2 ^ w := h v (by simp)
    have hl : ∀ u ∈ l, u < 2 ^ w := fun u hu => h u (by simp [hu])
    rw [List.length_append, List.length_singleton] at hi
    rw [concatFields_concat w l hv, bitField_eq]
    simp only [List.length_append, List.length_singleton, Nat.add_sub_cancel]
    rcases Nat.lt_succ_iff_lt_or_eq.mp hi with hlt | rfl
    · rw [List.getElem_append_left hlt, ← ih hl hlt, bitField_eq,
        show w * (l.length - i) = w + w * (l.length - 1 - i) by
          rw [show l.length - i = (l.length - 1 - i) + 1 by omega, Nat.mul_succ, Nat.add_comm],
        Nat.pow_add, ← Nat.div_div_eq_div_mul]
      congr 2
      rw [Nat.add_comm, Nat.add_mul_div_right _ _ (by positivity), Nat.div_eq_of_lt hv, Nat.zero_add]
    · simp [Nat.mod_eq_of_lt hv]

theorem length_splitFields (w n b : Nat) : (splitFields w n b).length = n := by simp [splitFields]

theorem getElem_splitFields (w n b : Nat) {i : Nat} (hi : i < (splitFields w n b).length) :
    (splitFields w n b)[i] = bitField b (w * (n - 1 - i)) w := by simp [splitFields]

theorem splitFields_lt (w n b : Nat) : ∀ v ∈ splitFields w n b, v < 2 ^ w := by
  intro v hv
  obtain ⟨i, -, rfl⟩ := List.mem_map.mp hv
  exact bitField_lt _ _ _

/-- Splitting a string of `n` fields gives the fields. -/
theorem splitFields_concatFields (w : Nat) (l : List Nat) (h : ∀ v ∈ l, v < 2 ^ w) :
    splitFields w l.length (concatFields w l) = l := by
  refine List.ext_getElem (length_splitFields _ _ _) fun i h1 h2 => ?_
  rw [getElem_splitFields, bitField_concatFields w l h h2]

theorem splitFields_succ (w n b : Nat) : splitFields w (n + 1) b = splitFields w n (b / 2 ^ w) ++ [b % 2 ^ w] := by
  unfold splitFields
  rw [List.range_succ, List.map_append, List.map_singleton]
  congr 1
  · refine List.map_congr_left fun i hi => ?_
    have hi := List.mem_range.mp hi
    rw [bitField_eq, bitField_eq, Nat.div_div_eq_div_mul, ← Nat.pow_add, show n + 1 - 1 - i = n - 1 - i + 1 by omega,
      Nat.mul_succ, Nat.add_comm]
  · simp [bitField_eq]

/-- Putting the fields of a string together gives the string, cut to their width. -/
theorem concatFields_splitFields (w n b : Nat) : concatFields w (splitFields w n b) = b % 2 ^ (w * n) := by
  induction n generalizing b with
  | zero => simp [splitFields, concatFields_nil, Nat.mod_one]
  | succ n ih =>
    rw [splitFields_succ, concatFields_concat _ _ (Nat.mod_lt _ (by positivity)), ih, Nat.mul_succ, Nat.add_comm (w * n),
      Nat.pow_add, Nat.mod_mul, Nat.add_comm, Nat.mul_comm]

end Sys2Proof.Machine
end

