-- ==== Sys2Proof/Laws/Profile.lean ====
section
/-! SUPPORT. The alignment group (41_profile.md R126) and the ranges of a valid profile. -/

namespace Sys2Proof.Machine

/-- The search from `k` finds the first multiple it meets, when there is one within its fuel. -/
theorem searchUnits_spec {outbit j : Nat} (hj : 16 * j % outbit = 0) :
    ∀ {fuel k : Nat}, k ≤ j → j ≤ k + fuel →
      k ≤ searchUnits outbit fuel k ∧ searchUnits outbit fuel k ≤ j
        ∧ 16 * searchUnits outbit fuel k % outbit = 0
        ∧ ∀ i, k ≤ i → i < searchUnits outbit fuel k → 16 * i % outbit ≠ 0 := by
  intro fuel
  induction fuel with
  | zero =>
    intro k hk hf
    obtain rfl : k = j := by omega
    exact ⟨le_rfl, le_rfl, hj, fun i h1 h2 => absurd h2 (by rw [searchUnits]; omega)⟩
  | succ fuel ih =>
    intro k hk hf
    rw [searchUnits]
    split
    · exact ⟨le_rfl, hk, ‹_›, fun i h1 h2 => absurd h2 (by omega)⟩
    · have hne : k ≠ j := by rintro rfl; contradiction
      obtain ⟨h1, h2, h3, h4⟩ := ih (k := k + 1) (by omega) (by omega)
      refine ⟨by omega, h2, h3, fun i hi hlt => ?_⟩
      rcases Nat.eq_or_lt_of_le hi with rfl | hi
      · assumption
      · exact h4 i hi hlt

/-- k is the smallest positive integer with 16 * k a multiple of outbit, and k ≤ outbit (41_profile.md R126). -/
theorem inputUnits_spec {outbit : Nat} (h : 1 ≤ outbit) :
    1 ≤ inputUnits outbit ∧ inputUnits outbit ≤ outbit ∧ 16 * inputUnits outbit % outbit = 0
      ∧ ∀ i, 1 ≤ i → i < inputUnits outbit → 16 * i % outbit ≠ 0 :=
  searchUnits_spec (j := outbit) (by simp) h (by omega)

/-- k * 16 = G * outbit exactly (41_profile.md R126). -/
theorem outputSamples_mul {outbit : Nat} (h : 1 ≤ outbit) : outputSamples outbit * outbit = 16 * inputUnits outbit :=
  Nat.div_mul_cancel (Nat.dvd_of_mod_eq_zero (inputUnits_spec h).2.2.1)

/-- The ranges of 10_state.md R30 for a legal profile. -/
theorem group_ranges {outbit : Nat} (h2 : 2 ≤ outbit) (h16 : outbit ≤ 16) :
    1 ≤ inputUnits outbit ∧ inputUnits outbit ≤ 15 ∧ 1 ≤ outputSamples outbit ∧ outputSamples outbit ≤ 16 := by
  interval_cases outbit <;> decide

/-- What `validProfile` says (41_profile.md R121). -/
theorem validProfile_iff {rc : Bool} {o m q : Nat} :
    validProfile rc o m q = true ↔ 2 ≤ o ∧ o ≤ 16 ∧ m ≤ o - 1 ∧ 1 ≤ q ∧ rangeOk rc o m q = true := by
  simp [validProfile, and_assoc]

/-- The profile CFG commits is legal, and its group is the alignment group (41_profile.md R127). -/
theorem commitProfile_legal (s : State) {c : ProfileCfg}
    (h : validProfile s.params.rangeCheck c.outbit.toNat c.mant.toNat c.quant.toNat = true) :
    (s.commitProfile c).active.Legal ∧ (s.commitProfile c).active.Grouped := by
  obtain ⟨h2, h16, hm, hq, -⟩ := validProfile_iff.mp h
  obtain ⟨-, hk, -, hG⟩ := group_ranges h2 h16
  have hq' : c.quant.toNat < 16 := c.quant.isLt
  refine ⟨⟨h2, h16, hm, hq, by change c.quant.toNat ≤ 15; omega, ?_⟩, ?_, ?_⟩
  · change (BitVec.ofNat 5 _).toNat = _
    rw [BitVec.toNat_ofNat, Nat.mod_eq_of_lt (by omega)]
    rfl
  · change (BitVec.ofNat 5 _).toNat = _
    rw [BitVec.toNat_ofNat, Nat.mod_eq_of_lt (by omega)]
    rfl
  · change (BitVec.ofNat 5 _).toNat = _
    rw [BitVec.toNat_ofNat, Nat.mod_eq_of_lt (by omega)]
    rfl

/-- The group of a legal profile in numbers. -/
theorem ActiveProfile.Legal.group {p : ActiveProfile} (h : p.Legal) (hg : p.Grouped) :
    1 ≤ p.k ∧ p.k ≤ 15 ∧ 1 ≤ p.G ∧ p.G ≤ 16 ∧ p.G * p.outbit = 16 * p.k := by
  obtain ⟨hk, hG⟩ := hg
  obtain ⟨a, b, c, d⟩ := group_ranges h.outbit_ge h.outbit_le
  rw [hk, hG]
  exact ⟨a, b, c, d, outputSamples_mul (Nat.le_of_succ_le h.outbit_ge)⟩

end Sys2Proof.Machine
end

