-- ==== Sys2Proof/Laws/Codec.lean ====
section
/-! SUPPORT. The Sample Codec: the ranges of its values, the fields of a code word, and which bits of a magnitude a
round trip keeps (42_codec.md R146, R147, R157). -/

namespace Sys2Proof.Machine

/-! ## Samples (42_codec.md R141) -/

theorem magnitude_lt (s : Half) : magnitude s < 2 ^ 15 := by
  unfold magnitude
  split
  · exact onesComplement_lt _ _
  · exact bitField_lt _ _ _

theorem sampleSign_assembleSample {sign : Bool} {mag : Nat} (h : mag < 2 ^ 15) :
    sampleSign (assembleSample sign mag) = sign := by
  have h1 : mag.testBit 15 = false := Nat.testBit_lt_two_pow h
  have h2 : (onesComplement 15 mag).testBit 15 = false := Nat.testBit_lt_two_pow (onesComplement_lt _ _)
  unfold sampleSign assembleSample
  rw [BitVec.getLsbD_ofNat]
  cases sign
  · simp [h1]
  · simp only [if_true, Nat.testBit_or, h2, Bool.or_false]
    decide

theorem bitField_assembleSample {sign : Bool} {mag : Nat} (h : mag < 2 ^ 15) :
    bitField (assembleSample sign mag).toNat 0 15 = if sign then onesComplement 15 mag else mag := by
  refine Nat.eq_of_testBit_eq fun i => ?_
  have hc := onesComplement_lt 15 mag
  rw [testBit_bitField, Nat.zero_add, BitVec.testBit_toNat]
  unfold assembleSample
  rw [BitVec.getLsbD_ofNat]
  by_cases hi : i < 15
  · cases sign
    · simp [hi, show i < 16 by omega]
    · have : Nat.testBit 0x8000 i = false := by interval_cases i <;> decide
      simp [hi, show i < 16 by omega, Nat.testBit_or, this]
  · have hm : ∀ v < 2 ^ 15, v.testBit i = false := fun v hv =>
      Nat.testBit_lt_two_pow (lt_of_lt_of_le hv (Nat.pow_le_pow_right (by omega) (by omega)))
    cases sign
    · simp [hi, hm _ h]
    · simp [hi, hm _ hc]

/-- The magnitude of the sample Decode builds is the magnitude it builds it from (42_codec.md R147, step 4). -/
theorem magnitude_assembleSample {sign : Bool} {mag : Nat} (h : mag < 2 ^ 15) :
    magnitude (assembleSample sign mag) = mag := by
  unfold magnitude
  rw [sampleSign_assembleSample h, bitField_assembleSample h]
  cases sign
  · simp
  · simp only [if_true]
    exact onesComplement_onesComplement h

/-- The sample Decode builds, as a number: the magnitude, or 0x8000 and its one's complement (42_codec.md R147,
step 4). -/
theorem toNat_assembleSample {sign : Bool} {mag : Nat} (h : mag < 2 ^ 15) :
    (assembleSample sign mag).toNat = if sign then 2 ^ 15 + (2 ^ 15 - 1 - mag) else mag := by
  unfold assembleSample onesComplement
  cases sign
  · simp; omega
  · have : 0x8000 ||| (2 ^ 15 - 1 - mag) = 2 ^ 15 * 1 + (2 ^ 15 - 1 - mag) := by
      rw [Nat.two_pow_add_eq_or_of_lt (by omega)]
    simp only [if_true, BitVec.toNat_ofNat, this]
    omega

/-- A sample is the sample of its sign and its magnitude. -/
theorem assembleSample_self (s : Half) : assembleSample (sampleSign s) (magnitude s) = s := by
  have hf : bitField s.toNat 0 15 < 2 ^ 15 := bitField_lt _ _ _
  refine BitVec.eq_of_getLsbD_eq fun i hi => ?_
  have hbit : (bitField s.toNat 0 15).testBit i = (decide (i < 15) && s.getLsbD i) := by
    rw [testBit_bitField, Nat.zero_add, BitVec.testBit_toNat]
  unfold assembleSample magnitude
  rw [BitVec.getLsbD_ofNat]
  cases hs : sampleSign s
  · by_cases h15 : i < 15
    · simp [hbit, h15, hi]
    · obtain rfl : i = 15 := by omega
      rw [if_neg Bool.false_ne_true, if_neg Bool.false_ne_true, hbit, show s.getLsbD 15 = false from hs]
      decide
  · simp only [if_true, onesComplement_onesComplement hf, Nat.testBit_or, hbit]
    by_cases h15 : i < 15
    · have : Nat.testBit 0x8000 i = false := by interval_cases i <;> decide
      simp [h15, hi, this]
    · obtain rfl : i = 15 := by omega
      have : s.getLsbD 15 = true := hs
      rw [this]
      decide

/-! ## Margins (42_codec.md R142 to R144) -/

theorem rawMargin_le (mag : Nat) : rawMargin mag ≤ 14 := by unfold rawMargin; omega

theorem storedMargin_lt (p : ActiveProfile) (mag : Nat) : storedMargin p mag < 2 ^ p.E := by
  have := Nat.two_pow_pos p.E
  unfold storedMargin maxMargin
  omega

theorem mantissaAt_lt (p : ActiveProfile) (mag shift : Nat) : mantissaAt p mag shift < 2 ^ p.M := by
  unfold mantissaAt
  split
  · positivity
  · exact Nat.mod_lt _ (by positivity)

/-- Bit `i` of the mantissa is magnitude bit 14 - shift - (M - 1 - i), or 0 below bit 0 (42_codec.md R145). -/
theorem testBit_mantissaAt (p : ActiveProfile) (mag : Nat) {shift : Nat} (h : shift < 15) (i : Nat) :
    (mantissaAt p mag shift).testBit i =
      (decide (i < p.M) && decide (p.M ≤ 15 - shift + i) && mag.testBit (15 - shift + i - p.M)) := by
  rw [mantissaAt, if_neg (by omega), Nat.testBit_mod_two_pow, Nat.testBit_shiftRight, Nat.testBit_shiftLeft, Bool.and_assoc]

/-! ## Code words (30_encoding.md R74, R75) -/

theorem testBit_assembleWord {p : ActiveProfile} (hp : p.outbit - 1 = p.M + p.E) {sm mant : Nat} (sign : Bool)
    (hs : sm < 2 ^ p.E) (hm : mant < 2 ^ p.M) (i : Nat) :
    (assembleWord p sign sm mant).testBit i =
      if i < p.M then mant.testBit i
      else if i < p.M + p.E then sm.testBit (i - p.M)
      else (decide (i = p.M + p.E) && sign) := by
  have hsign : (sign.toNat <<< (p.M + p.E)).testBit i = (decide (i = p.M + p.E) && sign) := by
    rw [Nat.testBit_shiftLeft]
    rcases lt_trichotomy i (p.M + p.E) with h | h | h
    · simp [Nat.not_le.mpr h, Nat.ne_of_lt h]
    · subst h; cases sign <;> simp
    · have : Nat.testBit sign.toNat (i - (p.M + p.E)) = false := by
        refine Nat.testBit_lt_two_pow (lt_of_le_of_lt (Bool.toNat_le sign) ?_)
        exact Nat.one_lt_two_pow (by omega)
      simp [this, Nat.ne_of_gt h]
  unfold assembleWord
  rw [hp, Nat.testBit_or, Nat.testBit_or, hsign, Nat.testBit_shiftLeft]
  split
  · simp [show ¬ p.M ≤ i by omega, show i ≠ p.M + p.E by omega]
  · have hmf : mant.testBit i = false :=
      Nat.testBit_lt_two_pow (lt_of_lt_of_le hm (Nat.pow_le_pow_right (by omega) (by omega)))
    split
    · simp [hmf, show p.M ≤ i by omega, show i ≠ p.M + p.E by omega]
    · have hsf : sm.testBit (i - p.M) = false :=
        Nat.testBit_lt_two_pow (lt_of_lt_of_le hs (Nat.pow_le_pow_right (by omega) (by omega)))
      simp [hmf, hsf]

theorem ActiveProfile.Legal.split {p : ActiveProfile} (h : p.Legal) : p.outbit - 1 = p.M + p.E := by
  have := h.mant_le
  have := h.margin_eq
  omega

/-- Each field of an assembled word is the field it was assembled from: none overflows into another. -/
theorem assembleWord_fields {p : ActiveProfile} (hp : p.Legal) {sm mant : Nat} (sign : Bool) (hs : sm < 2 ^ p.E)
    (hm : mant < 2 ^ p.M) :
    assembleWord p sign sm mant < 2 ^ p.outbit
      ∧ (assembleWord p sign sm mant).testBit (p.outbit - 1) = sign
      ∧ marginField p (assembleWord p sign sm mant) = sm
      ∧ mantissaField p (assembleWord p sign sm mant) = mant := by
  have ho := hp.split
  have h2 := hp.outbit_ge
  have hbit := testBit_assembleWord ho sign hs hm
  have hzero : ∀ {v n i : Nat}, v < 2 ^ n → n ≤ i → v.testBit i = false := fun hv hi =>
    Nat.testBit_lt_two_pow (lt_of_lt_of_le hv (Nat.pow_le_pow_right (by omega) hi))
  refine ⟨?_, ?_, ?_, ?_⟩
  · refine Nat.lt_pow_two_of_testBit _ fun i hi => ?_
    rw [hbit, if_neg (by omega), if_neg (by omega), decide_eq_false (by omega), Bool.false_and]
  · rw [hbit, ho, if_neg (by omega), if_neg (by omega)]
    simp
  · refine Nat.eq_of_testBit_eq fun i => ?_
    rw [marginField, testBit_bitField, hbit]
    by_cases hi : i < p.E
    · rw [if_neg (by omega), if_pos (by omega)]
      simp [hi]
    · simp [hi, hzero hs (Nat.not_lt.mp hi)]
  · refine Nat.eq_of_testBit_eq fun i => ?_
    rw [mantissaField, testBit_bitField, Nat.zero_add, hbit]
    by_cases hi : i < p.M
    · simp [hi]
    · simp [hi, hzero hm (Nat.not_lt.mp hi)]

/-- The fields of an encoded sample (42_codec.md R146). -/
theorem encodeSample_fields {p : ActiveProfile} (hp : p.Legal) (s : Half) :
    (encodeSample p s).word < 2 ^ p.outbit
      ∧ (encodeSample p s).word.testBit (p.outbit - 1) = sampleSign s
      ∧ marginField p (encodeSample p s).word = storedMargin p (magnitude s)
      ∧ mantissaField p (encodeSample p s).word
          = mantissaAt p (magnitude s) (storedMargin p (magnitude s) * p.Q) :=
  assembleWord_fields hp _ (storedMargin_lt _ _) (mantissaAt_lt _ _ _)

/-! ## The round trip -/

theorem magnitudeAt_lt {p : ActiveProfile} {mant : Nat} (h : mant < 2 ^ p.M) (shift : Nat) :
    magnitudeAt p mant shift < 2 ^ 15 := by
  unfold magnitudeAt
  split
  · positivity
  · rw [Nat.shiftLeft_eq, Nat.shiftRight_eq_div_pow, Nat.div_lt_iff_lt_mul (by positivity), Nat.mul_comm]
    exact lt_of_lt_of_le (Nat.mul_lt_mul_of_pos_left h (by positivity))
      (Nat.mul_le_mul_right _ (Nat.pow_le_pow_right (by omega) (by omega)))

/-- Decode's magnitude holds mantissa bit i at bit i + 15 - shift - M, and nothing below bit 0 (42_codec.md R147,
step 3). -/
theorem testBit_magnitudeAt {p : ActiveProfile} {mant : Nat} (h : mant < 2 ^ p.M) (shift b : Nat) :
    (magnitudeAt p mant shift).testBit b =
      (decide (b + shift ≤ 14) && decide (15 ≤ b + shift + p.M) && mant.testBit (b + shift + p.M - 15)) := by
  unfold magnitudeAt
  by_cases hs : 15 ≤ shift
  · rw [if_pos hs, Nat.zero_testBit, decide_eq_false (show ¬ b + shift ≤ 14 by omega)]
    simp
  · rw [if_neg hs, Nat.testBit_shiftRight, Nat.testBit_shiftLeft]
    by_cases h1 : 15 ≤ b + shift + p.M
    · by_cases h2 : b + shift ≤ 14
      · rw [show p.M + b - (15 - shift) = b + shift + p.M - 15 by omega]
        simp [h1, h2, show 15 - shift ≤ p.M + b by omega]
      · have : mant.testBit (p.M + b - (15 - shift)) = false :=
          Nat.testBit_lt_two_pow (lt_of_lt_of_le h (Nat.pow_le_pow_right (by omega) (by omega)))
        simp [h2, this]
    · simp [h1, show ¬ (15 - shift ≤ p.M + b) by omega]

/-- Decode's magnitude keeps exactly the bits of the window [14 - shift, 15 - shift - M] of the magnitude
(42_codec.md R149, law 2). -/
theorem testBit_magnitudeAt_mantissaAt (p : ActiveProfile) (mag shift b : Nat) :
    (magnitudeAt p (mantissaAt p mag shift) shift).testBit b =
      (mag.testBit b && decide (b + shift ≤ 14) && decide (15 ≤ b + shift + p.M)) := by
  rw [testBit_magnitudeAt (mantissaAt_lt p mag shift)]
  by_cases h1 : b + shift ≤ 14
  · by_cases h2 : 15 ≤ b + shift + p.M
    · rw [testBit_mantissaAt p mag (by omega), show 15 - shift + (b + shift + p.M - 15) - p.M = b by omega]
      simp [h1, h2, show b + shift + p.M - 15 < p.M by omega, show p.M ≤ 15 - shift + (b + shift + p.M - 15) by omega]
    · simp [h2]
  · simp [h1]

/-- What Decode makes of an encoded sample. -/
theorem decodeWord_encodeSample {p : ActiveProfile} (hp : p.Legal) (s : Half) :
    decodeWord p (encodeSample p s).word =
      assembleSample (sampleSign s)
        (magnitudeAt p (mantissaAt p (magnitude s) (storedMargin p (magnitude s) * p.Q))
          (storedMargin p (magnitude s) * p.Q)) := by
  obtain ⟨-, h1, h2, h3⟩ := encodeSample_fields hp s
  rw [decodeWord, h1, h2, h3]

end Sys2Proof.Machine
end

