-- ==== Sys2Proof/Laws/State.lean ====
section
/-! SUPPORT. One lemma per field per update of State, each true by rfl, so that no proof unfolds a record update. -/

namespace Sys2Proof.Machine

variable (s : State)

/-! ## Launch (40_command_cycle.md R90) -/

@[simp] theorem State.launch_params (word : Word) : (s.launch word).params = s.params := rfl
@[simp] theorem State.launch_ieDone (word : Word) : (s.launch word).ieDone = s.ieDone := rfl
@[simp] theorem State.launch_ieErr (word : Word) : (s.launch word).ieErr = s.ieErr := rfl
@[simp] theorem State.launch_done (word : Word) : (s.launch word).done = false := rfl
@[simp] theorem State.launch_sat (word : Word) : (s.launch word).sat = s.sat := rfl
@[simp] theorem State.launch_ovr (word : Word) : (s.launch word).ovr = s.ovr := rfl
@[simp] theorem State.launch_pvalid (word : Word) : (s.launch word).pvalid = s.pvalid := rfl
@[simp] theorem State.launch_err (word : Word) : (s.launch word).err = 0 := rfl
@[simp] theorem State.launch_profileCfg (word : Word) : (s.launch word).profileCfg = s.profileCfg := rfl
@[simp] theorem State.launch_profile (word : Word) : (s.launch word).profile = s.profile := rfl
@[simp] theorem State.launch_group (word : Word) : (s.launch word).group = s.group := rfl
@[simp] theorem State.launch_src (word : Word) : (s.launch word).src = s.src := rfl
@[simp] theorem State.launch_dst (word : Word) : (s.launch word).dst = s.dst := rfl
@[simp] theorem State.launch_count (word : Word) : (s.launch word).count = s.count := rfl
@[simp] theorem State.launch_pad (word : Word) : (s.launch word).pad = s.pad := rfl
@[simp] theorem State.launch_outlen (word : Word) : (s.launch word).outlen = s.outlen := rfl
@[simp] theorem State.launch_satcnt (word : Word) : (s.launch word).satcnt = s.satcnt := rfl
@[simp] theorem State.launch_din (word : Word) : (s.launch word).din = s.din := rfl
@[simp] theorem State.launch_dout (word : Word) : (s.launch word).dout = s.dout := rfl
@[simp] theorem State.launch_phase (word : Word) : (s.launch word).phase = .busy := rfl
@[simp] theorem State.launch_cmd (word : Word) : (s.launch word).cmd = ⟨word, s.src, s.dst, s.count, s.pad, s.din, s.profileCfg⟩ := rfl
@[simp] theorem State.launch_abortReq (word : Word) : (s.launch word).abortReq = false := rfl
@[simp] theorem State.launch_mem (word : Word) : (s.launch word).mem = s.mem := rfl
@[simp] theorem State.launch_pending (word : Word) : (s.launch word).pending = s.pending := rfl
@[simp] theorem State.launch_replies (word : Word) : (s.launch word).replies = s.replies := rfl
@[simp] theorem State.launch_hazard (word : Word) : (s.launch word).hazard = Hazard.clear := rfl
@[simp] theorem State.launch_draws (word : Word) : (s.launch word).draws = s.draws := rfl

/-! ## Completion (40_command_cycle.md R95) -/

@[simp] theorem State.complete_params (e : ErrCode) : (s.complete e).params = s.params := rfl
@[simp] theorem State.complete_ieDone (e : ErrCode) : (s.complete e).ieDone = s.ieDone := rfl
@[simp] theorem State.complete_ieErr (e : ErrCode) : (s.complete e).ieErr = s.ieErr := rfl
@[simp] theorem State.complete_done (e : ErrCode) : (s.complete e).done = true := rfl
@[simp] theorem State.complete_sat (e : ErrCode) : (s.complete e).sat = s.sat := rfl
@[simp] theorem State.complete_ovr (e : ErrCode) : (s.complete e).ovr = s.ovr := rfl
@[simp] theorem State.complete_pvalid (e : ErrCode) : (s.complete e).pvalid = s.pvalid := rfl
@[simp] theorem State.complete_err (e : ErrCode) : (s.complete e).err = e.code := rfl
@[simp] theorem State.complete_profileCfg (e : ErrCode) : (s.complete e).profileCfg = s.profileCfg := rfl
@[simp] theorem State.complete_profile (e : ErrCode) : (s.complete e).profile = s.profile := rfl
@[simp] theorem State.complete_group (e : ErrCode) : (s.complete e).group = s.group := rfl
@[simp] theorem State.complete_src (e : ErrCode) : (s.complete e).src = s.src := rfl
@[simp] theorem State.complete_dst (e : ErrCode) : (s.complete e).dst = s.dst := rfl
@[simp] theorem State.complete_count (e : ErrCode) : (s.complete e).count = s.count := rfl
@[simp] theorem State.complete_pad (e : ErrCode) : (s.complete e).pad = s.pad := rfl
@[simp] theorem State.complete_outlen (e : ErrCode) : (s.complete e).outlen = s.outlen := rfl
@[simp] theorem State.complete_satcnt (e : ErrCode) : (s.complete e).satcnt = s.satcnt := rfl
@[simp] theorem State.complete_din (e : ErrCode) : (s.complete e).din = s.din := rfl
@[simp] theorem State.complete_dout (e : ErrCode) : (s.complete e).dout = s.dout := rfl
@[simp] theorem State.complete_phase (e : ErrCode) : (s.complete e).phase = .idle := rfl
@[simp] theorem State.complete_cmd (e : ErrCode) : (s.complete e).cmd = s.cmd := rfl
@[simp] theorem State.complete_abortReq (e : ErrCode) : (s.complete e).abortReq = false := rfl
@[simp] theorem State.complete_mem (e : ErrCode) : (s.complete e).mem = s.mem := rfl
@[simp] theorem State.complete_pending (e : ErrCode) : (s.complete e).pending = s.pending := rfl
@[simp] theorem State.complete_replies (e : ErrCode) : (s.complete e).replies = s.replies := rfl
@[simp] theorem State.complete_hazard (e : ErrCode) : (s.complete e).hazard = Hazard.clear := rfl
@[simp] theorem State.complete_draws (e : ErrCode) : (s.complete e).draws = s.draws := rfl

/-! ## An error at a launch check -/

@[simp] theorem State.raise_params (e : ErrCode) : (s.raise e).params = s.params := rfl
@[simp] theorem State.raise_ieDone (e : ErrCode) : (s.raise e).ieDone = s.ieDone := rfl
@[simp] theorem State.raise_ieErr (e : ErrCode) : (s.raise e).ieErr = s.ieErr := rfl
@[simp] theorem State.raise_done (e : ErrCode) : (s.raise e).done = true := rfl
@[simp] theorem State.raise_sat (e : ErrCode) : (s.raise e).sat = s.sat := rfl
@[simp] theorem State.raise_ovr (e : ErrCode) : (s.raise e).ovr = s.ovr := rfl
@[simp] theorem State.raise_pvalid (e : ErrCode) : (s.raise e).pvalid = s.pvalid := rfl
@[simp] theorem State.raise_err (e : ErrCode) : (s.raise e).err = e.code := rfl
@[simp] theorem State.raise_profileCfg (e : ErrCode) : (s.raise e).profileCfg = s.profileCfg := rfl
@[simp] theorem State.raise_profile (e : ErrCode) : (s.raise e).profile = s.profile := rfl
@[simp] theorem State.raise_group (e : ErrCode) : (s.raise e).group = s.group := rfl
@[simp] theorem State.raise_src (e : ErrCode) : (s.raise e).src = s.src := rfl
@[simp] theorem State.raise_dst (e : ErrCode) : (s.raise e).dst = s.dst := rfl
@[simp] theorem State.raise_count (e : ErrCode) : (s.raise e).count = s.count := rfl
@[simp] theorem State.raise_pad (e : ErrCode) : (s.raise e).pad = s.pad := rfl
@[simp] theorem State.raise_outlen (e : ErrCode) : (s.raise e).outlen = s.outlen := rfl
@[simp] theorem State.raise_satcnt (e : ErrCode) : (s.raise e).satcnt = s.settledSatcnt 0 := rfl
@[simp] theorem State.raise_din (e : ErrCode) : (s.raise e).din = s.din := rfl
@[simp] theorem State.raise_dout (e : ErrCode) : (s.raise e).dout = s.dout := rfl
@[simp] theorem State.raise_phase (e : ErrCode) : (s.raise e).phase = .idle := rfl
@[simp] theorem State.raise_cmd (e : ErrCode) : (s.raise e).cmd = s.cmd := rfl
@[simp] theorem State.raise_abortReq (e : ErrCode) : (s.raise e).abortReq = false := rfl
@[simp] theorem State.raise_mem (e : ErrCode) : (s.raise e).mem = s.mem := rfl
@[simp] theorem State.raise_pending (e : ErrCode) : (s.raise e).pending = s.pending := rfl
@[simp] theorem State.raise_replies (e : ErrCode) : (s.raise e).replies = s.replies := rfl
@[simp] theorem State.raise_hazard (e : ErrCode) : (s.raise e).hazard = Hazard.clear := rfl
@[simp] theorem State.raise_draws (e : ErrCode) : (s.raise e).draws = s.draws := rfl

/-! ## An error at a launch check of a buffer command -/

@[simp] theorem State.raiseBuffer_params (e : ErrCode) : (s.raiseBuffer e).params = s.params := rfl
@[simp] theorem State.raiseBuffer_ieDone (e : ErrCode) : (s.raiseBuffer e).ieDone = s.ieDone := rfl
@[simp] theorem State.raiseBuffer_ieErr (e : ErrCode) : (s.raiseBuffer e).ieErr = s.ieErr := rfl
@[simp] theorem State.raiseBuffer_done (e : ErrCode) : (s.raiseBuffer e).done = true := rfl
@[simp] theorem State.raiseBuffer_sat (e : ErrCode) : (s.raiseBuffer e).sat = s.sat := rfl
@[simp] theorem State.raiseBuffer_ovr (e : ErrCode) : (s.raiseBuffer e).ovr = s.ovr := rfl
@[simp] theorem State.raiseBuffer_pvalid (e : ErrCode) : (s.raiseBuffer e).pvalid = s.pvalid := rfl
@[simp] theorem State.raiseBuffer_err (e : ErrCode) : (s.raiseBuffer e).err = e.code := rfl
@[simp] theorem State.raiseBuffer_profileCfg (e : ErrCode) : (s.raiseBuffer e).profileCfg = s.profileCfg := rfl
@[simp] theorem State.raiseBuffer_profile (e : ErrCode) : (s.raiseBuffer e).profile = s.profile := rfl
@[simp] theorem State.raiseBuffer_group (e : ErrCode) : (s.raiseBuffer e).group = s.group := rfl
@[simp] theorem State.raiseBuffer_src (e : ErrCode) : (s.raiseBuffer e).src = s.src := rfl
@[simp] theorem State.raiseBuffer_dst (e : ErrCode) : (s.raiseBuffer e).dst = s.dst := rfl
@[simp] theorem State.raiseBuffer_count (e : ErrCode) : (s.raiseBuffer e).count = s.count := rfl
@[simp] theorem State.raiseBuffer_pad (e : ErrCode) : (s.raiseBuffer e).pad = s.pad := rfl
@[simp] theorem State.raiseBuffer_outlen (e : ErrCode) : (s.raiseBuffer e).outlen = 0 := rfl
@[simp] theorem State.raiseBuffer_satcnt (e : ErrCode) : (s.raiseBuffer e).satcnt = s.settledSatcnt 0 := rfl
@[simp] theorem State.raiseBuffer_din (e : ErrCode) : (s.raiseBuffer e).din = s.din := rfl
@[simp] theorem State.raiseBuffer_dout (e : ErrCode) : (s.raiseBuffer e).dout = s.dout := rfl
@[simp] theorem State.raiseBuffer_phase (e : ErrCode) : (s.raiseBuffer e).phase = .idle := rfl
@[simp] theorem State.raiseBuffer_cmd (e : ErrCode) : (s.raiseBuffer e).cmd = s.cmd := rfl
@[simp] theorem State.raiseBuffer_abortReq (e : ErrCode) : (s.raiseBuffer e).abortReq = false := rfl
@[simp] theorem State.raiseBuffer_mem (e : ErrCode) : (s.raiseBuffer e).mem = s.mem := rfl
@[simp] theorem State.raiseBuffer_pending (e : ErrCode) : (s.raiseBuffer e).pending = s.pending := rfl
@[simp] theorem State.raiseBuffer_replies (e : ErrCode) : (s.raiseBuffer e).replies = s.replies := rfl
@[simp] theorem State.raiseBuffer_hazard (e : ErrCode) : (s.raiseBuffer e).hazard = Hazard.clear := rfl
@[simp] theorem State.raiseBuffer_draws (e : ErrCode) : (s.raiseBuffer e).draws = s.draws := rfl

/-! ## Completion of a transfer -/

@[simp] theorem State.finish_params (p : Progress) (n : Nat) (e : ErrCode) : (s.finish p n e).params = s.params := rfl
@[simp] theorem State.finish_ieDone (p : Progress) (n : Nat) (e : ErrCode) : (s.finish p n e).ieDone = s.ieDone := rfl
@[simp] theorem State.finish_ieErr (p : Progress) (n : Nat) (e : ErrCode) : (s.finish p n e).ieErr = s.ieErr := rfl
@[simp] theorem State.finish_done (p : Progress) (n : Nat) (e : ErrCode) : (s.finish p n e).done = true := rfl
@[simp] theorem State.finish_sat (p : Progress) (n : Nat) (e : ErrCode) : (s.finish p n e).sat = s.settledSat p.sats := rfl
@[simp] theorem State.finish_ovr (p : Progress) (n : Nat) (e : ErrCode) : (s.finish p n e).ovr = s.ovr := rfl
@[simp] theorem State.finish_pvalid (p : Progress) (n : Nat) (e : ErrCode) : (s.finish p n e).pvalid = s.pvalid := rfl
@[simp] theorem State.finish_err (p : Progress) (n : Nat) (e : ErrCode) : (s.finish p n e).err = e.code := rfl
@[simp] theorem State.finish_profileCfg (p : Progress) (n : Nat) (e : ErrCode) : (s.finish p n e).profileCfg = s.profileCfg := rfl
@[simp] theorem State.finish_profile (p : Progress) (n : Nat) (e : ErrCode) : (s.finish p n e).profile = s.profile := rfl
@[simp] theorem State.finish_group (p : Progress) (n : Nat) (e : ErrCode) : (s.finish p n e).group = s.group := rfl
@[simp] theorem State.finish_src (p : Progress) (n : Nat) (e : ErrCode) : (s.finish p n e).src = s.src := rfl
@[simp] theorem State.finish_dst (p : Progress) (n : Nat) (e : ErrCode) : (s.finish p n e).dst = s.dst := rfl
@[simp] theorem State.finish_count (p : Progress) (n : Nat) (e : ErrCode) : (s.finish p n e).count = s.count := rfl
@[simp] theorem State.finish_pad (p : Progress) (n : Nat) (e : ErrCode) : (s.finish p n e).pad = s.pad := rfl
@[simp] theorem State.finish_outlen (p : Progress) (n : Nat) (e : ErrCode) : (s.finish p n e).outlen = BitVec.ofNat 32 n := rfl
@[simp] theorem State.finish_satcnt (p : Progress) (n : Nat) (e : ErrCode) : (s.finish p n e).satcnt = s.settledSatcnt p.sats := rfl
@[simp] theorem State.finish_din (p : Progress) (n : Nat) (e : ErrCode) : (s.finish p n e).din = s.din := rfl
@[simp] theorem State.finish_dout (p : Progress) (n : Nat) (e : ErrCode) : (s.finish p n e).dout = s.dout := rfl
@[simp] theorem State.finish_phase (p : Progress) (n : Nat) (e : ErrCode) : (s.finish p n e).phase = .idle := rfl
@[simp] theorem State.finish_cmd (p : Progress) (n : Nat) (e : ErrCode) : (s.finish p n e).cmd = s.cmd := rfl
@[simp] theorem State.finish_abortReq (p : Progress) (n : Nat) (e : ErrCode) : (s.finish p n e).abortReq = false := rfl
@[simp] theorem State.finish_mem (p : Progress) (n : Nat) (e : ErrCode) : (s.finish p n e).mem = p.mem := rfl
@[simp] theorem State.finish_pending (p : Progress) (n : Nat) (e : ErrCode) : (s.finish p n e).pending = s.pending := rfl
@[simp] theorem State.finish_replies (p : Progress) (n : Nat) (e : ErrCode) : (s.finish p n e).replies = s.replies := rfl
@[simp] theorem State.finish_hazard (p : Progress) (n : Nat) (e : ErrCode) : (s.finish p n e).hazard = Hazard.clear := rfl
@[simp] theorem State.finish_draws (p : Progress) (n : Nat) (e : ErrCode) : (s.finish p n e).draws = s.draws := rfl

/-! ## CFG commit (41_profile.md R127) -/

@[simp] theorem State.commitProfile_params (c : ProfileCfg) : (s.commitProfile c).params = s.params := rfl
@[simp] theorem State.commitProfile_ieDone (c : ProfileCfg) : (s.commitProfile c).ieDone = s.ieDone := rfl
@[simp] theorem State.commitProfile_ieErr (c : ProfileCfg) : (s.commitProfile c).ieErr = s.ieErr := rfl
@[simp] theorem State.commitProfile_done (c : ProfileCfg) : (s.commitProfile c).done = s.done := rfl
@[simp] theorem State.commitProfile_sat (c : ProfileCfg) : (s.commitProfile c).sat = s.sat := rfl
@[simp] theorem State.commitProfile_ovr (c : ProfileCfg) : (s.commitProfile c).ovr = s.ovr := rfl
@[simp] theorem State.commitProfile_pvalid (c : ProfileCfg) : (s.commitProfile c).pvalid = true := rfl
@[simp] theorem State.commitProfile_err (c : ProfileCfg) : (s.commitProfile c).err = s.err := rfl
@[simp] theorem State.commitProfile_profileCfg (c : ProfileCfg) : (s.commitProfile c).profileCfg = s.profileCfg := rfl
@[simp] theorem State.commitProfile_profile (c : ProfileCfg) : (s.commitProfile c).profile = ⟨c.outbit, c.mant, c.quant, BitVec.ofNat 5 (c.outbit.toNat - 1 - c.mant.toNat)⟩ := rfl
@[simp] theorem State.commitProfile_group (c : ProfileCfg) : (s.commitProfile c).group = ⟨BitVec.ofNat 5 (inputUnits c.outbit.toNat), BitVec.ofNat 5 (outputSamples c.outbit.toNat)⟩ := rfl
@[simp] theorem State.commitProfile_src (c : ProfileCfg) : (s.commitProfile c).src = s.src := rfl
@[simp] theorem State.commitProfile_dst (c : ProfileCfg) : (s.commitProfile c).dst = s.dst := rfl
@[simp] theorem State.commitProfile_count (c : ProfileCfg) : (s.commitProfile c).count = s.count := rfl
@[simp] theorem State.commitProfile_pad (c : ProfileCfg) : (s.commitProfile c).pad = s.pad := rfl
@[simp] theorem State.commitProfile_outlen (c : ProfileCfg) : (s.commitProfile c).outlen = s.outlen := rfl
@[simp] theorem State.commitProfile_satcnt (c : ProfileCfg) : (s.commitProfile c).satcnt = s.satcnt := rfl
@[simp] theorem State.commitProfile_din (c : ProfileCfg) : (s.commitProfile c).din = s.din := rfl
@[simp] theorem State.commitProfile_dout (c : ProfileCfg) : (s.commitProfile c).dout = s.dout := rfl
@[simp] theorem State.commitProfile_phase (c : ProfileCfg) : (s.commitProfile c).phase = s.phase := rfl
@[simp] theorem State.commitProfile_cmd (c : ProfileCfg) : (s.commitProfile c).cmd = s.cmd := rfl
@[simp] theorem State.commitProfile_abortReq (c : ProfileCfg) : (s.commitProfile c).abortReq = s.abortReq := rfl
@[simp] theorem State.commitProfile_mem (c : ProfileCfg) : (s.commitProfile c).mem = s.mem := rfl
@[simp] theorem State.commitProfile_pending (c : ProfileCfg) : (s.commitProfile c).pending = s.pending := rfl
@[simp] theorem State.commitProfile_replies (c : ProfileCfg) : (s.commitProfile c).replies = s.replies := rfl
@[simp] theorem State.commitProfile_hazard (c : ProfileCfg) : (s.commitProfile c).hazard = s.hazard := rfl
@[simp] theorem State.commitProfile_draws (c : ProfileCfg) : (s.commitProfile c).draws = s.draws := rfl

/-! ## CFG failure (41_profile.md R128) -/

@[simp] theorem State.clearProfile_params : s.clearProfile.params = s.params := rfl
@[simp] theorem State.clearProfile_ieDone : s.clearProfile.ieDone = s.ieDone := rfl
@[simp] theorem State.clearProfile_ieErr : s.clearProfile.ieErr = s.ieErr := rfl
@[simp] theorem State.clearProfile_done : s.clearProfile.done = s.done := rfl
@[simp] theorem State.clearProfile_sat : s.clearProfile.sat = s.sat := rfl
@[simp] theorem State.clearProfile_ovr : s.clearProfile.ovr = s.ovr := rfl
@[simp] theorem State.clearProfile_pvalid : s.clearProfile.pvalid = false := rfl
@[simp] theorem State.clearProfile_err : s.clearProfile.err = s.err := rfl
@[simp] theorem State.clearProfile_profileCfg : s.clearProfile.profileCfg = s.profileCfg := rfl
@[simp] theorem State.clearProfile_profile : s.clearProfile.profile = ⟨0, 0, 0, 0⟩ := rfl
@[simp] theorem State.clearProfile_group : s.clearProfile.group = ⟨0, 0⟩ := rfl
@[simp] theorem State.clearProfile_src : s.clearProfile.src = s.src := rfl
@[simp] theorem State.clearProfile_dst : s.clearProfile.dst = s.dst := rfl
@[simp] theorem State.clearProfile_count : s.clearProfile.count = s.count := rfl
@[simp] theorem State.clearProfile_pad : s.clearProfile.pad = s.pad := rfl
@[simp] theorem State.clearProfile_outlen : s.clearProfile.outlen = s.outlen := rfl
@[simp] theorem State.clearProfile_satcnt : s.clearProfile.satcnt = s.satcnt := rfl
@[simp] theorem State.clearProfile_din : s.clearProfile.din = s.din := rfl
@[simp] theorem State.clearProfile_dout : s.clearProfile.dout = s.dout := rfl
@[simp] theorem State.clearProfile_phase : s.clearProfile.phase = s.phase := rfl
@[simp] theorem State.clearProfile_cmd : s.clearProfile.cmd = s.cmd := rfl
@[simp] theorem State.clearProfile_abortReq : s.clearProfile.abortReq = s.abortReq := rfl
@[simp] theorem State.clearProfile_mem : s.clearProfile.mem = s.mem := rfl
@[simp] theorem State.clearProfile_pending : s.clearProfile.pending = s.pending := rfl
@[simp] theorem State.clearProfile_replies : s.clearProfile.replies = s.replies := rfl
@[simp] theorem State.clearProfile_hazard : s.clearProfile.hazard = s.hazard := rfl
@[simp] theorem State.clearProfile_draws : s.clearProfile.draws = s.draws := rfl

/-! ## Taking the next event -/

@[simp] theorem State.stepped_params : s.stepped.params = s.params := rfl
@[simp] theorem State.stepped_ieDone : s.stepped.ieDone = s.ieDone := rfl
@[simp] theorem State.stepped_ieErr : s.stepped.ieErr = s.ieErr := rfl
@[simp] theorem State.stepped_done : s.stepped.done = s.done := rfl
@[simp] theorem State.stepped_sat : s.stepped.sat = s.sat := rfl
@[simp] theorem State.stepped_ovr : s.stepped.ovr = s.ovr := rfl
@[simp] theorem State.stepped_pvalid : s.stepped.pvalid = s.pvalid := rfl
@[simp] theorem State.stepped_err : s.stepped.err = s.err := rfl
@[simp] theorem State.stepped_profileCfg : s.stepped.profileCfg = s.profileCfg := rfl
@[simp] theorem State.stepped_profile : s.stepped.profile = s.profile := rfl
@[simp] theorem State.stepped_group : s.stepped.group = s.group := rfl
@[simp] theorem State.stepped_src : s.stepped.src = s.src := rfl
@[simp] theorem State.stepped_dst : s.stepped.dst = s.dst := rfl
@[simp] theorem State.stepped_count : s.stepped.count = s.count := rfl
@[simp] theorem State.stepped_pad : s.stepped.pad = s.pad := rfl
@[simp] theorem State.stepped_outlen : s.stepped.outlen = s.outlen := rfl
@[simp] theorem State.stepped_satcnt : s.stepped.satcnt = s.satcnt := rfl
@[simp] theorem State.stepped_din : s.stepped.din = s.din := rfl
@[simp] theorem State.stepped_dout : s.stepped.dout = s.dout := rfl
@[simp] theorem State.stepped_phase : s.stepped.phase = s.phase := rfl
@[simp] theorem State.stepped_cmd : s.stepped.cmd = s.cmd := rfl
@[simp] theorem State.stepped_abortReq : s.stepped.abortReq = s.abortReq := rfl
@[simp] theorem State.stepped_mem : s.stepped.mem = s.mem := rfl
@[simp] theorem State.stepped_pending : s.stepped.pending = s.pending.tail := rfl
@[simp] theorem State.stepped_replies : s.stepped.replies = s.replies := rfl
@[simp] theorem State.stepped_hazard : s.stepped.hazard = s.hazard := rfl
@[simp] theorem State.stepped_draws : s.stepped.draws = s.draws + 1 := rfl

/-! ## Reset -/

@[simp] theorem State.resetEffect_params : s.resetEffect.params = s.params := rfl
@[simp] theorem State.resetEffect_ieDone : s.resetEffect.ieDone = false := rfl
@[simp] theorem State.resetEffect_ieErr : s.resetEffect.ieErr = false := rfl
@[simp] theorem State.resetEffect_done : s.resetEffect.done = false := rfl
@[simp] theorem State.resetEffect_sat : s.resetEffect.sat = false := rfl
@[simp] theorem State.resetEffect_ovr : s.resetEffect.ovr = false := rfl
@[simp] theorem State.resetEffect_pvalid : s.resetEffect.pvalid = false := rfl
@[simp] theorem State.resetEffect_err : s.resetEffect.err = 0 := rfl
@[simp] theorem State.resetEffect_profileCfg : s.resetEffect.profileCfg = ⟨0, 0, 0⟩ := rfl
@[simp] theorem State.resetEffect_profile : s.resetEffect.profile = ⟨0, 0, 0, 0⟩ := rfl
@[simp] theorem State.resetEffect_group : s.resetEffect.group = ⟨0, 0⟩ := rfl
@[simp] theorem State.resetEffect_src : s.resetEffect.src = 0 := rfl
@[simp] theorem State.resetEffect_dst : s.resetEffect.dst = 0 := rfl
@[simp] theorem State.resetEffect_count : s.resetEffect.count = 0 := rfl
@[simp] theorem State.resetEffect_pad : s.resetEffect.pad = 0 := rfl
@[simp] theorem State.resetEffect_outlen : s.resetEffect.outlen = 0 := rfl
@[simp] theorem State.resetEffect_satcnt : s.resetEffect.satcnt = 0 := rfl
@[simp] theorem State.resetEffect_din : s.resetEffect.din = 0 := rfl
@[simp] theorem State.resetEffect_dout : s.resetEffect.dout = 0 := rfl
@[simp] theorem State.resetEffect_phase : s.resetEffect.phase = .idle := rfl
@[simp] theorem State.resetEffect_cmd : s.resetEffect.cmd = ⟨0, 0, 0, 0, 0, 0, ⟨0, 0, 0⟩⟩ := rfl
@[simp] theorem State.resetEffect_abortReq : s.resetEffect.abortReq = false := rfl
@[simp] theorem State.resetEffect_mem : s.resetEffect.mem = s.memAfterReset := rfl
@[simp] theorem State.resetEffect_pending : s.resetEffect.pending = s.pending := rfl
@[simp] theorem State.resetEffect_replies : s.resetEffect.replies = s.replies := rfl
@[simp] theorem State.resetEffect_hazard : s.resetEffect.hazard = Hazard.clear := rfl
@[simp] theorem State.resetEffect_draws : s.resetEffect.draws = s.draws := rfl

end Sys2Proof.Machine
end

