-- ==== Sys2Proof/Laws/Memory.lean ====
section
/-! SUPPORT. Memory: its operations keep the canonical form, a read after a write, and what a write leaves alone. -/

namespace Sys2Proof.Machine

namespace Memory

/-- Every listed address is above `a`. -/
def Above (a : Nat) (m : Memory) : Prop := ∀ c ∈ m, a < c.1

theorem above_nil (a : Nat) : Above a [] := by simp [Above]

theorem above_cons {a b : Nat} {v : Byte} {m : Memory} : Above a ((b, v) :: m) ↔ a < b ∧ Above a m := by
  simp [Above]

theorem Above.trans {a b : Nat} {m : Memory} (h : a ≤ b) (hb : Above b m) : Above a m :=
  fun c hc => Nat.lt_of_le_of_lt h (hb c hc)

/-- The canonical form of a list with a head. -/
theorem wf_cons {a : Nat} {v : Byte} {m : Memory} :
    wf ((a, v) :: m) = true ↔ v ≠ unlisted ∧ a < 2 ^ 32 ∧ Above a m ∧ wf m = true := by
  induction m generalizing a v with
  | nil => simp [wf, Above]
  | cons c m ih =>
    obtain ⟨b, u⟩ := c
    rw [wf, Bool.and_eq_true, ih, above_cons]
    simp only [Bool.and_eq_true, bne_iff_ne, decide_eq_true_eq]
    constructor
    · rintro ⟨⟨⟨hv, ha⟩, hab⟩, hu, hb, hm, hw⟩
      exact ⟨hv, ha, ⟨hab, hm.trans hab.le⟩, hu, hb, hm, hw⟩
    · rintro ⟨hv, ha, ⟨hab, -⟩, hu, hb, hm, hw⟩
      exact ⟨⟨⟨hv, ha⟩, hab⟩, hu, hb, hm, hw⟩

theorem readByte_of_above {a : Nat} {m : Memory} (h : Above a m) : readByte m a = unlisted := by
  cases m with
  | nil => rfl
  | cons c m => simp [readByte, (above_cons.mp h).1]

theorem readByte_cons (m : Memory) (a : Nat) (v : Byte) (h : Above a m) (b : Nat) :
    readByte (cons a v m) b = if b = a then v else readByte m b := by
  unfold cons
  split
  · subst v
    split
    · subst b; exact readByte_of_above h
    · rfl
  · rw [readByte]
    split
    · have hb : Above b m := h.trans (by omega)
      rw [if_neg (by omega), readByte_of_above hb]
    · rfl

theorem above_consByte {a b : Nat} {v : Byte} {m : Memory} (hab : b < a) (h : Above b m) : Above b (cons a v m) := by
  unfold cons
  split
  · exact h
  · exact above_cons.mpr ⟨hab, h⟩

theorem wf_consByte {a : Nat} {v : Byte} {m : Memory} (ha : a < 2 ^ 32) (h : Above a m) (hm : wf m = true) :
    wf (cons a v m) = true := by
  unfold cons
  split
  · exact hm
  · exact wf_cons.mpr ⟨‹_›, ha, h, hm⟩

theorem above_writeByte {m : Memory} {a b : Nat} {v : Byte} (hab : b < a) (h : Above b m) :
    Above b (writeByte m a v) := by
  induction m with
  | nil => exact above_consByte hab h
  | cons c m ih =>
    obtain ⟨d, u⟩ := c
    have ⟨hd, hm⟩ := above_cons.mp h
    rw [writeByte]
    split
    · exact above_consByte hab h
    · split
      · exact above_consByte hab hm
      · exact above_cons.mpr ⟨hd, ih hm⟩

/-- A byte store keeps the canonical form. -/
theorem wf_writeByte {m : Memory} (hm : wf m = true) {a : Nat} (ha : a < 2 ^ 32) (v : Byte) :
    wf (writeByte m a v) = true := by
  induction m with
  | nil => exact wf_consByte ha (above_nil a) rfl
  | cons c m ih =>
    obtain ⟨b, u⟩ := c
    have ⟨hu, hb, hab, hw⟩ := wf_cons.mp hm
    rw [writeByte]
    split
    · exact wf_consByte ha (above_cons.mpr ⟨‹_›, hab.trans (by omega)⟩) hm
    · split
      · subst a; exact wf_consByte ha hab hw
      · exact wf_cons.mpr ⟨hu, hb, above_writeByte (by omega) hab, ih hw⟩

/-- Read after write: the byte stored at its address, every other byte as before. -/
theorem readByte_writeByte {m : Memory} (hm : wf m = true) (a : Nat) (v : Byte) (b : Nat) :
    readByte (writeByte m a v) b = if b = a then v else readByte m b := by
  induction m with
  | nil => exact readByte_cons [] a v (above_nil a) b
  | cons c m ih =>
    obtain ⟨d, u⟩ := c
    have ⟨_, _, hd, hw⟩ := wf_cons.mp hm
    rw [writeByte]
    split
    · exact readByte_cons _ a v (above_cons.mpr ⟨‹_›, hd.trans (by omega)⟩) b
    · split
      · subst a
        rw [readByte_cons _ _ _ hd, readByte]
        split
        · rfl
        · split
          · exact readByte_of_above (hd.trans (by omega))
          · rfl
      · rw [readByte, readByte, ih hw]
        split
        · rw [if_neg (by omega)]
        · split
          · rw [if_neg (by omega)]
          · rfl

/-- A halfword store keeps the canonical form. -/
theorem wf_writeHalf {m : Memory} (hm : wf m = true) {a : Nat} (ha : a + 2 ≤ 2 ^ 32) (v : Half) :
    wf (writeHalf m a v) = true :=
  wf_writeByte (wf_writeByte hm (by omega) _) (by omega) _

/-- A halfword store is little-endian and leaves every other byte (20_memory.md R53). -/
theorem readByte_writeHalf {m : Memory} (hm : wf m = true) {a : Nat} (ha : a + 2 ≤ 2 ^ 32) (v : Half) (b : Nat) :
    readByte (writeHalf m a v) b =
      if b = a then v.extractLsb' 0 8 else if b = a + 1 then v.extractLsb' 8 8 else readByte m b := by
  unfold writeHalf
  rw [readByte_writeByte (wf_writeByte hm (by omega) _), readByte_writeByte hm]
  split
  · rw [if_neg (by omega)]
  · rfl

theorem append_extractLsb' (v : Half) : (v.extractLsb' 8 8 ++ v.extractLsb' 0 8 : BitVec 16) = v := by
  ext i hi
  simp only [BitVec.getElem_append, BitVec.getElem_extractLsb']
  split
  · simp [BitVec.getLsbD_eq_getElem hi]
  · rw [show 8 + (i - 8) = i by omega, BitVec.getLsbD_eq_getElem hi]

theorem readHalf_eq_of_bytes {m m' : Memory} {a : Nat} (h0 : readByte m a = readByte m' a)
    (h1 : readByte m (a + 1) = readByte m' (a + 1)) : readHalf m a = readHalf m' a := by
  unfold readHalf
  rw [h0, h1]

/-- A halfword read after a halfword store at the same address. -/
theorem readHalf_writeHalf_same {m : Memory} (hm : wf m = true) {a : Nat} (ha : a + 2 ≤ 2 ^ 32) (v : Half) :
    readHalf (writeHalf m a v) a = v := by
  unfold readHalf
  rw [readByte_writeHalf hm ha, readByte_writeHalf hm ha]
  simp only [if_true, if_neg (show ¬ a + 1 = a by omega)]
  exact append_extractLsb' v

/-- Consecutive halfword stores keep the canonical form. -/
theorem wf_writeHalves {l : List Half} : ∀ {m : Memory}, wf m = true → ∀ {a : Nat}, a + 2 * l.length ≤ 2 ^ 32 →
    wf (writeHalves m a l) = true := by
  induction l with
  | nil => intro m hm a _; exact hm
  | cons v l ih =>
    intro m hm a ha
    rw [List.length_cons] at ha
    exact ih (wf_writeHalf hm (by omega) v) (by omega)

/-- Consecutive halfword stores leave every byte outside them. -/
theorem readByte_writeHalves_outside {l : List Half} : ∀ {m : Memory}, wf m = true → ∀ {a : Nat},
    a + 2 * l.length ≤ 2 ^ 32 → ∀ {b : Nat}, b < a ∨ a + 2 * l.length ≤ b →
    readByte (writeHalves m a l) b = readByte m b := by
  induction l with
  | nil => intro m _ a _ b _; rfl
  | cons v l ih =>
    intro m hm a ha b hb
    rw [List.length_cons] at ha hb
    rw [writeHalves, ih (wf_writeHalf hm (by omega) v) (by omega) (by omega), readByte_writeHalf hm (by omega),
      if_neg (by omega), if_neg (by omega)]

/-- Consecutive halfword stores put element `i` at halfword `i`. -/
theorem readHalf_writeHalves {l : List Half} : ∀ {m : Memory}, wf m = true → ∀ {a : Nat},
    a + 2 * l.length ≤ 2 ^ 32 → ∀ {i : Nat} (hi : i < l.length), readHalf (writeHalves m a l) (a + 2 * i) = l[i] := by
  induction l with
  | nil => intro m _ a _ i hi; exact absurd hi (by simp)
  | cons v l ih =>
    intro m hm a ha i hi
    rw [List.length_cons] at ha hi
    have hw := wf_writeHalf hm (show a + 2 ≤ 2 ^ 32 by omega) v
    cases i with
    | zero =>
      rw [writeHalves, List.getElem_cons_zero, Nat.mul_zero, Nat.add_zero]
      rw [readHalf_eq_of_bytes (readByte_writeHalves_outside hw (by omega) (by omega))
        (readByte_writeHalves_outside hw (by omega) (by omega))]
      exact readHalf_writeHalf_same hm (by omega) v
    | succ i =>
      rw [writeHalves, List.getElem_cons_succ, show a + 2 * (i + 1) = a + 2 + 2 * i by omega]
      exact ih hw (by omega) (by omega)

/-- Two memories that agree on the bytes of a halfword read the same halfword. -/
theorem readHalf_congr {m m' : Memory} {a : Nat} (h : ∀ b, a ≤ b → b < a + 2 → readByte m b = readByte m' b) :
    readHalf m a = readHalf m' a :=
  readHalf_eq_of_bytes (h a (by omega) (by omega)) (h (a + 1) (by omega) (by omega))

end Memory

end Sys2Proof.Machine
end

