-- ==== Sys2Proof/Laws/Transfer.lean ====
section
/-! SUPPORT. The launch checks, the choice of an ending, and what the groups of a transfer leave in memory. -/

namespace Sys2Proof.Machine

/-! ## The launch checks (42_codec.md R152, 60_exceptions.md R212) -/

@[simp] theorem firstError_nil : firstError [] = none := rfl

theorem firstError_cons (b : Bool) (e : ErrCode) (l : List (Bool × ErrCode)) :
    firstError ((b, e) :: l) = if b then some e else firstError l := rfl

theorem fits_iff {a l : Nat} : fits a l = true ↔ a + l ≤ 2 ^ 32 := by simp [fits]

theorem overlap_eq_false_iff {a la b lb : Nat} :
    overlap a la b lb = false ↔ la = 0 ∨ lb = 0 ∨ b + lb ≤ a ∨ a + la ≤ b := by
  simp only [overlap, Bool.and_eq_false_iff, decide_eq_false_iff_not]
  omega

theorem odd_iff (w : Word) : w.getLsbD 0 = false ↔ w.toNat % 2 = 0 := by
  rw [← BitVec.testBit_toNat, Nat.testBit_zero]
  simp

/-- Two ranges overlap exactly when they share an address (00_scope.md R14). -/
theorem overlap_iff_exists {a la b lb : Nat} :
    overlap a la b lb = true ↔ ∃ c, a ≤ c ∧ c < a + la ∧ b ≤ c ∧ c < b + lb := by
  simp only [overlap, Bool.and_eq_true, decide_eq_true_eq]
  constructor
  · intro h; exact ⟨max a b, by omega, by omega, by omega, by omega⟩
  · rintro ⟨c, h⟩; omega

/-- The launch checks pass exactly when the profile is valid, the addresses are even, the stream is good, the ranges
fit, and they are apart or, where that is allowed, the same. -/
theorem bufferCheck_eq_none_iff {s : State} {sh : Shape} {sb ip : Bool} :
    bufferCheck s sh sb ip = none ↔
      s.pvalid = true ∧ s.aligned ∧ sb = false ∧ s.inRange sh.outcount
        ∧ (s.apart sh.outcount
            ∨ (ip = true ∧ s.cmd.src.toNat = s.cmd.dst.toNat ∧ 2 * s.cmd.count.toNat = 2 * sh.outcount)) := by
  have hov := overlap_eq_false_iff (a := s.cmd.src.toNat) (la := 2 * s.cmd.count.toNat) (b := s.cmd.dst.toNat)
    (lb := 2 * sh.outcount)
  simp only [bufferCheck, firstError_cons, firstError_nil, State.aligned, State.inRange, State.apart, ← odd_iff,
    ← fits_iff]
  cases s.pvalid <;> cases s.cmd.src.getLsbD 0 <;> cases s.cmd.dst.getLsbD 0 <;> cases sb <;>
    cases fits s.cmd.src.toNat (2 * s.cmd.count.toNat) <;> cases fits s.cmd.dst.toNat (2 * sh.outcount) <;>
    simp
  cases hval : overlap s.cmd.src.toNat (2 * s.cmd.count.toNat) s.cmd.dst.toNat (2 * sh.outcount)
  · have := hov.mp hval
    exact iff_of_true (by simp) (.inl (by omega))
  · have hna : ¬ (s.cmd.count.toNat = 0 ∨ sh.outcount = 0
        ∨ s.cmd.src.toNat + 2 * s.cmd.count.toNat ≤ s.cmd.dst.toNat
        ∨ s.cmd.dst.toNat + 2 * sh.outcount ≤ s.cmd.src.toNat) := fun h =>
      Bool.noConfusion (hval.symm.trans (hov.mpr (by omega)))
    simp [hna, and_assoc]

/-- The first launch check that fails is the error reported (60_exceptions.md R212). -/
theorem bufferCheck_first (s : State) (sh : Shape) (sb ip : Bool) :
    (s.pvalid = false → bufferCheck s sh sb ip = some .noprofile)
      ∧ (s.pvalid = true → ¬ s.aligned → bufferCheck s sh sb ip = some .align)
      ∧ (s.pvalid = true → s.aligned → sb = true → bufferCheck s sh sb ip = some .stream)
      ∧ (s.pvalid = true → s.aligned → sb = false → ¬ s.inRange sh.outcount → bufferCheck s sh sb ip = some .range)
      ∧ (s.pvalid = true → s.aligned → sb = false → s.inRange sh.outcount → ¬ s.apart sh.outcount →
          (ip = true → s.cmd.src ≠ s.cmd.dst) → bufferCheck s sh sb ip = some .overlap) := by
  simp only [bufferCheck, firstError_cons, firstError_nil, State.aligned, State.inRange, State.apart, ← odd_iff,
    ← fits_iff]
  have hov := overlap_eq_false_iff (a := s.cmd.src.toNat) (la := 2 * s.cmd.count.toNat) (b := s.cmd.dst.toNat)
    (lb := 2 * sh.outcount)
  refine ⟨fun h => by simp [h], fun h h2 => ?_, fun h h2 h3 => ?_, fun h h2 h3 h4 => ?_, fun h h2 h3 h4 h5 h6 => ?_⟩
  · rw [if_neg (by simp [h]), if_pos]
    revert h2
    cases s.cmd.src.getLsbD 0 <;> cases s.cmd.dst.getLsbD 0 <;> simp
  · rw [if_neg (by simp [h]), if_neg (by rw [h2.1, h2.2]; simp), if_pos h3]
  · rw [if_neg (by simp [h]), if_neg (by rw [h2.1, h2.2]; simp), if_neg (by rw [h3]; simp), if_pos]
    rw [Bool.not_eq_true', ← Bool.not_eq_true, Bool.and_eq_true]
    exact h4
  · rw [if_neg (by simp [h]), if_neg (by rw [h2.1, h2.2]; simp), if_neg (by rw [h3]; simp),
      if_neg (by rw [h4.1, h4.2]; simp), if_pos]
    have h7 : overlap s.cmd.src.toNat (2 * s.cmd.count.toNat) s.cmd.dst.toNat (2 * sh.outcount) = true := by
      rw [← Bool.not_eq_false, hov]
      omega
    rw [h7, Bool.true_and, Bool.not_eq_true']
    cases ip
    · rfl
    · have : ¬ s.cmd.src.toNat = s.cmd.dst.toNat := fun h => h6 rfl (BitVec.eq_of_toNat_eq h)
      simp [this]

theorem streamBad_eq_false_iff (s : State) :
    streamBad s.active s.cmd.count.toNat s.cmd.pad.toNat = false ↔ s.streamOk := by
  simp only [streamBad, State.streamOk, Bool.or_eq_false_iff, Bool.and_eq_false_iff, bne_eq_false_iff_eq,
    beq_eq_false_iff_ne, decide_eq_false_iff_not]
  omega

/-! ## The ending (40_command_cycle.md R101, R103) -/

theorem abortEnding_cases (s : State) (ng : Nat) :
    s.abortEnding ng = .full ∨ ∃ js, js < ng ∧ s.abortEnding ng = .aborted js := by
  simp only [State.abortEnding]
  split
  · exact .inr ⟨_, ‹_›, rfl⟩
  · exact .inl rfl

theorem busEnding_cases (s : State) (ng : Nat) :
    s.busEnding ng = .full ∨ ∃ jf, jf < ng ∧ s.busEnding ng = .bus jf := by
  simp only [State.busEnding]
  split
  · exact .inr ⟨_, ‹_›, rfl⟩
  · exact .inl rfl

/-- How a transfer can end: in full; after js < ng groups if an abort is requested; at a group jf < ng if the bus may
fail. -/
theorem ending_cases (s : State) (ng : Nat) :
    s.ending ng = .full
      ∨ (s.abortReq = true ∧ ∃ js, js < ng ∧ s.ending ng = .aborted js)
      ∨ (s.params.memErrors = true ∧ ∃ jf, jf < ng ∧ s.ending ng = .bus jf) := by
  have ha := abortEnding_cases s ng
  have hb := busEnding_cases s ng
  unfold State.ending
  cases s.params.memErrors <;> cases s.abortReq
  · exact .inl rfl
  · exact ha.imp id fun h => .inl ⟨rfl, h⟩
  · exact hb.imp id fun h => .inr ⟨rfl, h⟩
  · dsimp only
    split
    · exact hb.imp id fun h => .inr ⟨rfl, h⟩
    · exact ha.imp id fun h => .inl ⟨rfl, h⟩

theorem ending_of_undisturbed {s : State} (h : s.Undisturbed) (ng : Nat) : s.ending ng = .full := by
  unfold State.ending
  rw [h.no_abort, h.no_mem_errors]

/-- What a buffer command can do: it is rejected by a launch check, or it transfers and ends in one of three ways. -/
theorem transfer_cases {s : State} {check : Option ErrCode} {sh : Shape} {body : Nat → Memory → GroupOut}
    {newPad : Word} {t : State} (h : s.transfer check sh body newPad = .next t) :
    (∃ e, check = some e ∧ t = s.raiseBuffer e)
      ∨ (check = none ∧ (t = s.endFull sh body newPad
          ∨ (s.abortReq = true ∧ ∃ js, js < sh.ng ∧ t = s.endAborted sh body js)
          ∨ (s.params.memErrors = true ∧ ∃ jf, jf < sh.ng ∧ t = s.endBus sh body jf))) := by
  unfold State.transfer at h
  cases check with
  | some e => exact .inl ⟨e, rfl, (Host.Outcome.next.inj h).symm⟩
  | none =>
    refine .inr ⟨rfl, ?_⟩
    rcases ending_cases s sh.ng with he | ⟨ha, js, hj, he⟩ | ⟨hm, jf, hj, he⟩
    all_goals
      simp only [he] at h
      have ht := (Host.Outcome.next.inj h).symm
    · exact .inl ht
    · exact .inr (.inl ⟨ha, js, hj, ht⟩)
    · exact .inr (.inr ⟨hm, jf, hj, ht⟩)

/-- A buffer command always answers a next state (40_command_cycle.md R96). -/
theorem transfer_next (s : State) (check : Option ErrCode) (sh : Shape) (body : Nat → Memory → GroupOut)
    (newPad : Word) : ∃ t, s.transfer check sh body newPad = .next t := by
  unfold State.transfer
  cases check with
  | some e => exact ⟨_, rfl⟩
  | none => dsimp only; split <;> exact ⟨_, rfl⟩

/-- An undisturbed buffer command whose launch checks pass ends in full. -/
theorem transfer_of_undisturbed {s : State} (h : s.Undisturbed) (sh : Shape) (body : Nat → Memory → GroupOut)
    (newPad : Word) : s.transfer none sh body newPad = .next (s.endFull sh body newPad) := by
  unfold State.transfer
  simp only [ending_of_undisturbed h]

/-! ## Without hazards, completion counts exactly (10_state.md R38) -/

theorem settledSatcnt_of_clear {s : State} (h : s.hazard = Hazard.clear) (n : Nat) :
    s.settledSatcnt n = addSats s.satcnt n := by
  rw [State.settledSatcnt, h]
  rfl

theorem settledSat_of_clear {s : State} (h : s.hazard = Hazard.clear) (n : Nat) :
    s.settledSat n = (s.sat || decide (0 < n)) := by
  rw [State.settledSat, h]
  by_cases hn : n = 0
  · simp [hn]
  · simp [hn, Hazard.clear, Nat.pos_of_ne_zero hn]

theorem settledPad_of_clear {s : State} (h : s.hazard = Hazard.clear) (w : Word) : s.settledPad w = w := by
  rw [State.settledPad, h]
  rfl

/-- Counting events one by one is adding them, up to 2^32 - 1 (00_scope.md R14, 42_codec.md R153). -/
theorem toNat_addSats (c : Word) (n : Nat) : (addSats c n).toNat = min (c.toNat + n) (2 ^ 32 - 1) := by
  have hc := c.isLt
  induction n with
  | zero => rw [addSats]; omega
  | succ n ih =>
    rw [addSats, satinc32, BitVec.toNat_ofNat, ih, Nat.mod_eq_of_lt (by omega)]
    omega

@[simp] theorem addSats_zero (c : Word) : addSats c 0 = c := rfl

theorem addSats_eq (c : Word) (n : Nat) : addSats c n = BitVec.ofNat 32 (min (c.toNat + n) (2 ^ 32 - 1)) := by
  apply BitVec.eq_of_toNat_eq
  rw [toNat_addSats, BitVec.toNat_ofNat, Nat.mod_eq_of_lt (by omega)]

/-- Without hazards, an error changes nothing but the completion (40_command_cycle.md R95). -/
theorem raise_of_clear {s : State} (h : s.hazard = Hazard.clear) (e : ErrCode) : s.raise e = s.completed e.code := by
  unfold State.raise State.completed State.complete
  rw [settledSatcnt_of_clear h]
  rfl

/-- The same with OUTLEN ← 0 (40_command_cycle.md R95). -/
theorem raiseBuffer_of_clear {s : State} (h : s.hazard = Hazard.clear) (e : ErrCode) :
    s.raiseBuffer e = { s with outlen := 0 }.completed e.code :=
  raise_of_clear (s := { s with outlen := 0 }) h e

/-- A host write to SATCNT that met the command leaves at most the count without the write (R246). -/
theorem settledSatcnt_le {s : State} {before : Word} (h : s.hazard.satcntBefore = some before) {n m : Nat}
    (hnm : n ≤ m) : (s.settledSatcnt n).toNat ≤ min (before.toNat + m) (2 ^ 32 - 1) := by
  unfold State.settledSatcnt
  rw [h]
  have h1 := toNat_addSats before n
  have h2 := Nat.mod_lt (Config.freeSatcnt s.draws) (show (addSats before n).toNat + 1 > 0 by omega)
  simp only [BitVec.toNat_ofNat]
  rw [Nat.mod_eq_of_lt (by omega)]
  omega

/-- The same bound, as the count itself: what it would be without the write (R246). -/
theorem settledSatcnt_le_addSats {s : State} {before : Word} (h : s.hazard.satcntBefore = some before) (n : Nat) :
    (s.settledSatcnt n).toNat ≤ (addSats before n).toNat := by
  have h1 := settledSatcnt_le h (le_refl n)
  rw [toNat_addSats]; exact h1

/-! ## Shapes -/

/-- The destination elements are those of whole groups, but for the last, which may be short. -/
structure Shape.Lawful (sh : Shape) : Prop where
  le_outcount : ∀ j, j < sh.ng → j * sh.per ≤ sh.outcount
  outcount_le : sh.outcount ≤ sh.ng * sh.per

theorem Shape.Lawful.out_eq {sh : Shape} (h : sh.Lawful) {j : Nat} (hj : j < sh.ng) : sh.out j = j * sh.per :=
  Nat.min_eq_left (h.le_outcount j hj)

theorem Shape.Lawful.out_ng {sh : Shape} (h : sh.Lawful) : sh.out sh.ng = sh.outcount := Nat.min_eq_right h.outcount_le

theorem Shape.out_le (sh : Shape) (j : Nat) : sh.out j ≤ sh.outcount := Nat.min_le_right _ _

theorem Shape.out_mono (sh : Shape) {i j : Nat} (h : i ≤ j) : sh.out i ≤ sh.out j :=
  min_le_min_right _ (Nat.mul_le_mul_right _ h)

/-- The destination elements of group `j` in a list of its output. -/
def Fills (sh : Shape) (body : Nat → Memory → GroupOut) : Prop :=
  ∀ j m, j < sh.ng → (body j m).halves.length = sh.out (j + 1) - sh.out j

theorem elementShape_lawful (s : State) : (elementShape s).Lawful where
  le_outcount j hj := by
    change j * 1 ≤ s.cmd.count.toNat
    have : j < s.cmd.count.toNat := hj
    omega
  outcount_le := by change s.cmd.count.toNat ≤ s.cmd.count.toNat * 1; omega

theorem packShape_lawful (s : State) : (packShape s).Lawful where
  le_outcount _ hj := Nat.mul_le_mul_right _ hj.le
  outcount_le := le_rfl

theorem unpackShape_lawful {s : State} (h : s.streamOk) : (unpackShape s).Lawful where
  le_outcount j hj := by
    have hj : j < s.cmd.count.toNat / s.active.k := hj
    have hm : 0 < s.cmd.count.toNat := by
      by_contra h0
      rw [Nat.eq_zero_of_not_pos h0, Nat.zero_div] at hj
      omega
    have hp := h.2.2 hm
    have := Nat.mul_le_mul_right s.active.G hj
    change j * s.active.G ≤ s.cmd.count.toNat / s.active.k * s.active.G - s.cmd.pad.toNat
    rw [Nat.succ_mul] at this
    omega
  outcount_le := Nat.sub_le _ _

/-! ## The groups in memory (20_memory.md R66, 40_command_cycle.md R101) -/

section Groups

variable {dst : Nat} {sh : Shape} {body : Nat → Memory → GroupOut} {m : Memory}

theorem runGroups_succ (dst per : Nat) (body : Nat → Memory → GroupOut) (m : Memory) (j : Nat) :
    (runGroups dst per body m (j + 1)).mem =
      (runGroups dst per body m j).mem.writeHalves (dst + 2 * (j * per))
        (body j (runGroups dst per body m j).mem).halves := rfl

theorem runGroups_succ_sats (dst per : Nat) (body : Nat → Memory → GroupOut) (m : Memory) (j : Nat) :
    (runGroups dst per body m (j + 1)).sats =
      (runGroups dst per body m j).sats + (body j (runGroups dst per body m j).mem).sats := rfl

/-- Group `j` lies in the destination range. -/
theorem group_range (hl : sh.Lawful) (hf : Fills sh body) (hfit : dst + 2 * sh.outcount ≤ 2 ^ 32) {j : Nat}
    (hj : j < sh.ng) (m : Memory) :
    dst + 2 * (j * sh.per) + 2 * (body j m).halves.length ≤ 2 ^ 32
      ∧ dst + 2 * (j * sh.per) + 2 * (body j m).halves.length = dst + 2 * sh.out (j + 1) := by
  have h1 := sh.out_le (j + 1)
  have h2 := sh.out_mono (show j ≤ j + 1 by omega)
  rw [hl.out_eq hj] at h2
  rw [hf j m hj, hl.out_eq hj]
  constructor <;> omega

theorem wf_runGroups (hm : m.wf = true) (hl : sh.Lawful) (hf : Fills sh body) (hfit : dst + 2 * sh.outcount ≤ 2 ^ 32)
    {n : Nat} (hn : n ≤ sh.ng) : (runGroups dst sh.per body m n).mem.wf = true := by
  induction n with
  | zero => exact hm
  | succ n ih => exact Memory.wf_writeHalves (ih (by omega)) (group_range hl hf hfit hn _).1

/-- A group leaves every byte outside its own destination halfwords. -/
theorem readByte_runGroups_succ (hm : m.wf = true) (hl : sh.Lawful) (hf : Fills sh body)
    (hfit : dst + 2 * sh.outcount ≤ 2 ^ 32) {n : Nat} (hn : n < sh.ng) {b : Nat}
    (hb : b < dst + 2 * sh.out n ∨ dst + 2 * sh.out (n + 1) ≤ b) :
    (runGroups dst sh.per body m (n + 1)).mem.readByte b = (runGroups dst sh.per body m n).mem.readByte b := by
  obtain ⟨h1, h2⟩ := group_range (dst := dst) hl hf hfit hn (runGroups dst sh.per body m n).mem
  rw [runGroups_succ]
  refine Memory.readByte_writeHalves_outside (wf_runGroups hm hl hf hfit hn.le) h1 ?_
  rw [h2, ← hl.out_eq hn]
  exact hb

/-- Going from `i` groups to `n` leaves every byte outside the destination halfwords of groups i .. n - 1. -/
theorem readByte_runGroups_mono (hm : m.wf = true) (hl : sh.Lawful) (hf : Fills sh body)
    (hfit : dst + 2 * sh.outcount ≤ 2 ^ 32) {i n : Nat} (hi : i ≤ n) (hn : n ≤ sh.ng) {b : Nat}
    (hb : b < dst + 2 * sh.out i ∨ dst + 2 * sh.out n ≤ b) :
    (runGroups dst sh.per body m n).mem.readByte b = (runGroups dst sh.per body m i).mem.readByte b := by
  induction n, hi using Nat.le_induction with
  | base => rfl
  | succ n hin ih =>
    have h1 := sh.out_mono hin
    have h2 := sh.out_mono (show n ≤ n + 1 by omega)
    rw [readByte_runGroups_succ hm hl hf hfit hn (by omega), ih (by omega) (by omega)]

/-- The first `n` groups write only their own destination halfwords. -/
theorem readByte_runGroups_outside (hm : m.wf = true) (hl : sh.Lawful) (hf : Fills sh body)
    (hfit : dst + 2 * sh.outcount ≤ 2 ^ 32) {n : Nat} (hn : n ≤ sh.ng) {b : Nat}
    (hb : b < dst ∨ dst + 2 * sh.out n ≤ b) : (runGroups dst sh.per body m n).mem.readByte b = m.readByte b :=
  readByte_runGroups_mono hm hl hf hfit (Nat.zero_le n) hn (by rw [Shape.out, Nat.zero_mul, Nat.zero_min]; omega)

/-- Destination element `j * per + i` holds element `i` of what group `j` gave. -/
theorem readHalf_runGroups (hm : m.wf = true) (hl : sh.Lawful) (hf : Fills sh body)
    (hfit : dst + 2 * sh.outcount ≤ 2 ^ 32) {j n : Nat} (hj : j < n) (hn : n ≤ sh.ng) {i : Nat}
    (hi : i < (body j (runGroups dst sh.per body m j).mem).halves.length) :
    (runGroups dst sh.per body m n).mem.readHalf (dst + 2 * (j * sh.per + i)) =
      (body j (runGroups dst sh.per body m j).mem).halves[i] := by
  have hjn : j < sh.ng := by omega
  obtain ⟨h1, h2⟩ := group_range (dst := dst) hl hf hfit hjn (runGroups dst sh.per body m j).mem
  have hsame : (runGroups dst sh.per body m n).mem.readHalf (dst + 2 * (j * sh.per + i))
      = (runGroups dst sh.per body m (j + 1)).mem.readHalf (dst + 2 * (j * sh.per + i)) :=
    Memory.readHalf_congr fun b hb hb' => readByte_runGroups_mono hm hl hf hfit (show j + 1 ≤ n from hj) hn (by omega)
  rw [hsame, runGroups_succ, show dst + 2 * (j * sh.per + i) = dst + 2 * (j * sh.per) + 2 * i by omega]
  exact Memory.readHalf_writeHalves (wf_runGroups hm hl hf hfit hjn.le) h1 hi

end Groups

end Sys2Proof.Machine
end

