-- ==== Sys2Proof/Laws/Commands.lean ====
section
/-! SUPPORT. What the groups of each buffer command give, and that a transfer finds its source as the command found it
(42_codec.md R155, 43_packer.md R189). -/

namespace Sys2Proof.Machine

/-! ## The groups fill their destination elements -/

theorem elementShape_out (s : State) {j : Nat} (h : j ≤ s.cmd.count.toNat) : (elementShape s).out j = j := by
  change min (j * 1) s.cmd.count.toNat = j
  omega

theorem encbufGroup_fills (s : State) : Fills (elementShape s) (encbufGroup s) := fun j m hj => by
  have hj : j < s.cmd.count.toNat := hj
  rw [elementShape_out s (show j + 1 ≤ _ from hj), elementShape_out s hj.le, Nat.add_sub_cancel_left]
  rfl

theorem decbufGroup_fills (s : State) : Fills (elementShape s) (decbufGroup s) := fun j m hj => by
  have hj : j < s.cmd.count.toNat := hj
  rw [elementShape_out s (show j + 1 ≤ _ from hj), elementShape_out s hj.le, Nat.add_sub_cancel_left]
  rfl

theorem length_packGroup (s : State) (j : Nat) (m : Memory) : (packGroup s j m).halves.length = s.active.k := by
  simp [packGroup, length_splitFields]

theorem packGroup_fills (s : State) : Fills (packShape s) (packGroup s) := fun j m hj => by
  rw [length_packGroup, (packShape_lawful s).out_eq hj]
  have h : (j + 1) * (packShape s).per ≤ (packShape s).outcount := Nat.mul_le_mul_right _ hj
  rw [Shape.out, Nat.min_eq_left h, Nat.succ_mul, Nat.add_sub_cancel_left]
  rfl

theorem length_unpackGroup (s : State) (j : Nat) (m : Memory) :
    (unpackGroup s j m).halves.length = min ((unpackShape s).outcount - j * s.active.G) s.active.G := by
  simp [unpackGroup, length_splitFields]

theorem unpackGroup_fills {s : State} (h : s.streamOk) : Fills (unpackShape s) (unpackGroup s) := fun j m hj => by
  have hle := (unpackShape_lawful h).le_outcount j hj
  rw [length_unpackGroup, (unpackShape_lawful h).out_eq hj, Shape.out]
  change min (_ - j * s.active.G) s.active.G = min ((j + 1) * s.active.G) _ - j * s.active.G
  rw [Nat.succ_mul]
  omega

/-- Only ENCBUF's groups saturate. -/
theorem runGroups_sats_zero {dst per : Nat} {body : Nat → Memory → GroupOut} {m : Memory}
    (h : ∀ j m, (body j m).sats = 0) (n : Nat) : (runGroups dst per body m n).sats = 0 := by
  induction n with
  | zero => rfl
  | succ n ih => rw [runGroups_succ_sats, ih, h]

theorem packGroup_sats (s : State) (j : Nat) (m : Memory) : (packGroup s j m).sats = 0 := rfl

theorem unpackGroup_sats (s : State) (j : Nat) (m : Memory) : (unpackGroup s j m).sats = 0 := rfl

theorem decbufGroup_sats (s : State) (j : Nat) (m : Memory) : (decbufGroup s j m).sats = 0 := rfl

/-! ## The source is as the command found it -/

section Source

variable {s : State} {sh : Shape} {body : Nat → Memory → GroupOut}

/-- The first `j` groups leave source element `i` alone: the ranges are apart, or they are the same and element `i` is
none of the `j` written (42_codec.md R155). -/
theorem readHalf_source (hm : s.mem.wf = true) (hl : sh.Lawful) (hf : Fills sh body) (hr : s.inRange sh.outcount)
    {i j : Nat} (hi : i < s.cmd.count.toNat) (hj : j ≤ sh.ng)
    (hsrc : s.apart sh.outcount ∨ (s.cmd.src.toNat = s.cmd.dst.toNat ∧ sh.out j ≤ i)) :
    (runGroups s.cmd.dst.toNat sh.per body s.mem j).mem.readHalf (s.cmd.src.toNat + 2 * i) = s.sourceHalf i := by
  have hle := sh.out_le j
  refine Memory.readHalf_congr fun b hb hb' => readByte_runGroups_outside hm hl hf hr.2 hj ?_
  unfold State.apart at hsrc
  by_cases h0 : sh.out j = 0
  · rw [h0]; omega
  · omega

end Source

/-- Each group of ENCBUF encodes its own source element as the command found it (42_codec.md R153, R155). -/
theorem encbufGroup_runGroups {s : State} (hm : s.mem.wf = true) (hr : s.inRange s.cmd.count.toNat)
    (ha : s.apart s.cmd.count.toNat ∨ s.cmd.src.toNat = s.cmd.dst.toNat) {j : Nat} (hj : j < s.cmd.count.toNat) :
    encbufGroup s j (runGroups s.cmd.dst.toNat 1 (encbufGroup s) s.mem j).mem = encbufGroup s j s.mem := by
  have := readHalf_source (sh := elementShape s) hm (elementShape_lawful s) (encbufGroup_fills s) hr hj
    (show j ≤ (elementShape s).ng from hj.le) (ha.imp id fun h => ⟨h, (elementShape_out s hj.le).le⟩)
  change (runGroups s.cmd.dst.toNat 1 (encbufGroup s) s.mem j).mem.readHalf _ = s.mem.readHalf _ at this
  simp only [encbufGroup, this]

/-- Each group of DECBUF decodes its own source element as the command found it (42_codec.md R156). -/
theorem decbufGroup_runGroups {s : State} (hm : s.mem.wf = true) (hr : s.inRange s.cmd.count.toNat)
    (ha : s.apart s.cmd.count.toNat ∨ s.cmd.src.toNat = s.cmd.dst.toNat) {j : Nat} (hj : j < s.cmd.count.toNat) :
    decbufGroup s j (runGroups s.cmd.dst.toNat 1 (decbufGroup s) s.mem j).mem = decbufGroup s j s.mem := by
  have := readHalf_source (sh := elementShape s) hm (elementShape_lawful s) (decbufGroup_fills s) hr hj
    (show j ≤ (elementShape s).ng from hj.le) (ha.imp id fun h => ⟨h, (elementShape_out s hj.le).le⟩)
  change (runGroups s.cmd.dst.toNat 1 (decbufGroup s) s.mem j).mem.readHalf _ = s.mem.readHalf _ at this
  simp only [decbufGroup, this]

/-- Each group of PACK packs its source words as the command found them (43_packer.md R189). -/
theorem packGroup_runGroups {s : State} (hm : s.mem.wf = true) (hr : s.inRange (packShape s).outcount)
    (ha : s.apart (packShape s).outcount) {j : Nat} (hj : j ≤ (packShape s).ng) :
    packGroup s j (runGroups s.cmd.dst.toNat s.active.k (packGroup s) s.mem j).mem = packGroup s j s.mem := by
  have hw : ∀ idx, packWord s (runGroups s.cmd.dst.toNat s.active.k (packGroup s) s.mem j).mem idx
      = packWord s s.mem idx := fun idx => by
    unfold packWord
    split
    · have := readHalf_source (sh := packShape s) hm (packShape_lawful s) (packGroup_fills s) hr ‹_› hj (.inl ha)
      change (runGroups s.cmd.dst.toNat s.active.k (packGroup s) s.mem j).mem.readHalf _ = s.mem.readHalf _ at this
      rw [this]
    · rfl
  simp only [packGroup, hw]

/-- Each group of UNPACK unpacks its source units as the command found them (43_packer.md R189). -/
theorem unpackGroup_runGroups {s : State} (hm : s.mem.wf = true) (hst : s.streamOk)
    (hr : s.inRange (unpackShape s).outcount) (ha : s.apart (unpackShape s).outcount) {j : Nat}
    (hj : j < (unpackShape s).ng) :
    unpackGroup s j (runGroups s.cmd.dst.toNat s.active.G (unpackGroup s) s.mem j).mem = unpackGroup s j s.mem := by
  have hw : ∀ t ∈ List.range s.active.k,
      ((runGroups s.cmd.dst.toNat s.active.G (unpackGroup s) s.mem j).mem.readHalf
        (s.cmd.src.toNat + 2 * (j * s.active.k + t))).toNat
      = (s.mem.readHalf (s.cmd.src.toNat + 2 * (j * s.active.k + t))).toNat := fun t ht => by
    have ht := List.mem_range.mp ht
    have hlt : j * s.active.k + t < s.cmd.count.toNat := by
      have hj : j + 1 ≤ s.cmd.count.toNat / s.active.k := hj
      have h1 := Nat.mul_le_mul_right s.active.k hj
      have h2 := Nat.div_mul_le_self s.cmd.count.toNat s.active.k
      rw [Nat.succ_mul] at h1
      omega
    have := readHalf_source (sh := unpackShape s) hm (unpackShape_lawful hst) (unpackGroup_fills hst) hr hlt
      (Nat.le_of_lt hj) (.inl ha)
    change (runGroups s.cmd.dst.toNat s.active.G (unpackGroup s) s.mem j).mem.readHalf _ = s.mem.readHalf _ at this
    rw [this]
  simp only [unpackGroup, List.map_congr_left hw]

/-! ## Every buffer command is a transfer -/

/-- The groups of a buffer command; the other commands have none. -/
def groupOf (i : Instr) (s : State) : Nat → Memory → GroupOut :=
  match i with
  | .encbuf => encbufGroup s
  | .decbuf => decbufGroup s
  | .pack => packGroup s
  | .unpack => unpackGroup s
  | .cfg | .enc | .dec => fun _ _ => ⟨[], 0⟩

/-- PAD after success. -/
def newPadOf (i : Instr) (s : State) : Word :=
  match i with
  | .pack => s.settledPad (BitVec.ofNat 32 (packPadding s))
  | .encbuf | .decbuf | .unpack | .cfg | .enc | .dec => s.pad

theorem exec_eq_transfer {i : Instr} {s : State} {sh : Shape} (h : shapeOf i s = some sh) :
    exec i s = s.transfer (bufferCheckOf i s) sh (groupOf i s) (newPadOf i s) := by
  cases i <;> simp only [shapeOf, reduceCtorEq, Option.some.injEq] at h <;> subst h <;> rfl

theorem groupOf_sats {i : Instr} (s : State) (h : i ≠ .encbuf) (j : Nat) (m : Memory) : (groupOf i s j m).sats = 0 := by
  cases i <;> first | rfl | exact absurd rfl h

/-- A transfer whose launch checks pass stays in its destination range, which fits in memory. -/
theorem groupOf_lawful {i : Instr} {s : State} {sh : Shape} (h : shapeOf i s = some sh)
    (hc : bufferCheckOf i s = none) :
    sh.Lawful ∧ Fills sh (groupOf i s) ∧ s.cmd.dst.toNat + 2 * sh.outcount ≤ 2 ^ 32 := by
  cases i <;> simp only [shapeOf, reduceCtorEq, Option.some.injEq] at h <;> subst h
  · exact ⟨elementShape_lawful s, encbufGroup_fills s, (bufferCheck_eq_none_iff.mp hc).2.2.2.1.2⟩
  · exact ⟨elementShape_lawful s, decbufGroup_fills s, (bufferCheck_eq_none_iff.mp hc).2.2.2.1.2⟩
  · exact ⟨packShape_lawful s, packGroup_fills s, (bufferCheck_eq_none_iff.mp hc).2.2.2.1.2⟩
  · have hc := bufferCheck_eq_none_iff.mp hc
    have hst := (streamBad_eq_false_iff s).mp hc.2.2.1
    exact ⟨unpackShape_lawful hst, unpackGroup_fills hst, hc.2.2.2.1.2⟩

/-- ENCBUF counts one SaturationEvent for each source sample that saturates (42_codec.md R153). -/
theorem encbuf_sats {s : State} (hm : s.mem.wf = true) (hr : s.inRange s.cmd.count.toNat)
    (ha : s.apart s.cmd.count.toNat ∨ s.cmd.src.toNat = s.cmd.dst.toNat) {j : Nat} (hj : j ≤ s.cmd.count.toNat) :
    (runGroups s.cmd.dst.toNat 1 (encbufGroup s) s.mem j).sats = s.satEvents j := by
  induction j with
  | zero => rfl
  | succ j ih =>
    rw [runGroups_succ_sats, ih (by omega), encbufGroup_runGroups hm hr ha (show j < _ from hj)]
    unfold State.satEvents
    rw [List.range_succ, List.filter_append, List.length_append]
    congr 1
    change (saturates s.active (magnitude (s.sourceHalf j))).toNat = _
    cases h : saturates s.active (magnitude (s.sourceHalf j)) <;> simp [h]

/-- The same, of an ENCBUF whose launch checks pass. -/
theorem encbuf_sats_of_check {s : State} (hm : s.mem.wf = true) (hc : elementCheck s = none) {j : Nat}
    (hj : j ≤ s.cmd.count.toNat) :
    (runGroups s.cmd.dst.toNat 1 (encbufGroup s) s.mem j).sats = s.satEvents j := by
  obtain ⟨-, -, -, hr, ha⟩ := bufferCheck_eq_none_iff.mp hc
  exact encbuf_sats hm hr (ha.imp_right fun h => h.2.1) hj

theorem satEvents_mono (s : State) {j n : Nat} (h : j ≤ n) : s.satEvents j ≤ s.satEvents n :=
  ((List.range_sublist.mpr h).filter _).length_le

/-- What an ENC leaves in SATCNT and SAT, in every outcome: the SaturationEvents of some part of its work. -/
theorem enc_counts {s t : State} (h : exec .enc s = .next t) :
    ∃ n, n ≤ (encodeSample s.active s.cmd.din).sats ∧ t.satcnt = s.settledSatcnt n ∧ t.sat = s.settledSat n := by
  simp only [exec, execEnc] at h; split at h <;> cases h
  · exact ⟨_, le_rfl, rfl, rfl⟩
  · exact ⟨0, Nat.zero_le _, rfl, rfl⟩

/-- What an ENCBUF leaves in SATCNT and SAT, in every outcome. -/
theorem encbuf_counts {s t : State} (hm : s.mem.wf = true) (h : exec .encbuf s = .next t) :
    ∃ n, n ≤ s.satEvents s.cmd.count.toNat ∧ t.satcnt = s.settledSatcnt n ∧ t.sat = s.settledSat n := by
  rcases transfer_cases h with ⟨e, hc, rfl⟩ | ⟨hc, rfl | ⟨-, js, hj, rfl⟩ | ⟨-, jf, hj, rfl⟩⟩
  · exact ⟨0, Nat.zero_le _, rfl, rfl⟩
  · exact ⟨_, (encbuf_sats_of_check hm hc le_rfl).le, rfl, rfl⟩
  · exact ⟨_, (encbuf_sats_of_check hm hc hj.le).le.trans (satEvents_mono s hj.le), rfl, rfl⟩
  · exact ⟨_, (encbuf_sats_of_check hm hc hj.le).le.trans (satEvents_mono s hj.le), rfl, rfl⟩

/-- How many SaturationEvents a transfer counts does not depend on what SATCNT held or on the writes that met it. -/
theorem transfer_satcnt (s : State) (check : Option ErrCode) (sh : Shape) (body : Nat → Memory → GroupOut)
    (newPad : Word) : ∃ n, ∀ (c : Word) (hz : Hazard) {t : State},
    State.transfer { s with satcnt := c, hazard := hz } check sh body newPad = .next t →
    t.satcnt = State.settledSatcnt { s with satcnt := c, hazard := hz } n := by
  let sats (j : Nat) : Nat := (runGroups s.cmd.dst.toNat sh.per body s.mem j).sats
  cases check with
  | some e => exact ⟨0, fun c hz t h => by cases h; rfl⟩
  | none =>
    have key (c : Word) (hz : Hazard) : State.ending { s with satcnt := c, hazard := hz } sh.ng = s.ending sh.ng := rfl
    unfold State.transfer
    cases he : s.ending sh.ng with
    | full => exact ⟨sats sh.ng, fun c hz t h => by rw [key, he] at h; cases h; rfl⟩
    | aborted js => exact ⟨sats js, fun c hz t h => by rw [key, he] at h; cases h; rfl⟩
    | bus jf => exact ⟨sats jf, fun c hz t h => by rw [key, he] at h; cases h; rfl⟩

/-- Element `i` of a buffer of one-element groups holds what group `i` gives from memory as the command found it. -/
theorem readHalf_elements {s : State} {body : Nat → Memory → GroupOut} (hm : s.mem.wf = true)
    (hr : s.inRange s.cmd.count.toNat) (hf : Fills (elementShape s) body) {i : Nat} (hi : i < s.cmd.count.toNat)
    (hb : body i (runGroups s.cmd.dst.toNat 1 body s.mem i).mem = body i s.mem) {v : Half}
    (hv : (body i s.mem).halves = [v]) :
    (runGroups s.cmd.dst.toNat 1 body s.mem s.cmd.count.toNat).mem.readHalf (s.cmd.dst.toNat + 2 * i) = v := by
  have hb' : body i (runGroups s.cmd.dst.toNat (elementShape s).per body s.mem i).mem = body i s.mem := hb
  have h := readHalf_runGroups (j := i) (n := s.cmd.count.toNat) (i := 0) hm (elementShape_lawful s) hf hr.2 hi le_rfl
    (by rw [hb', hv]; simp)
  rw [show s.cmd.dst.toNat + 2 * i = s.cmd.dst.toNat + 2 * (i * (elementShape s).per + 0) by
    change _ = _ + 2 * (i * 1 + 0); omega]
  refine Eq.trans h ?_
  simp only [hb', hv, List.getElem_cons_zero]

/-- A reset keeps memory's canonical form, and every byte but the destination range of a Busy buffer command whose
launch checks pass (40_command_cycle.md R104). -/
theorem memAfterReset_spec {s : State} (hm : s.mem.wf = true) :
    s.memAfterReset.wf = true
      ∧ ∀ a, (∀ i sh, s.phase = .busy → s.running = some i → shapeOf i s = some sh → bufferCheckOf i s = none →
            a < s.cmd.dst.toNat ∨ s.cmd.dst.toNat + 2 * sh.outcount ≤ a) →
          s.memAfterReset.readByte a = s.mem.readByte a := by
  unfold State.memAfterReset
  split
  · rename_i i hb hr
    split
    · rename_i sh hsh hc
      obtain ⟨-, -, hfit⟩ := groupOf_lawful hsh hc
      have hlen : (freeHalves (Config.freeCutHalf s.draws) sh.outcount).length = sh.outcount := by simp [freeHalves]
      refine ⟨Memory.wf_writeHalves hm (by rw [hlen]; exact hfit), fun a h => ?_⟩
      exact Memory.readByte_writeHalves_outside hm (by rw [hlen]; exact hfit)
        (by rw [hlen]; exact h i sh hb hr hsh hc)
    · exact ⟨hm, fun _ _ => rfl⟩
  · exact ⟨hm, fun _ _ => rfl⟩

end Sys2Proof.Machine
end

