-- ==== Sys2Proof/Laws/Step.lean ====
section
/-! SUPPORT. What one step can do: the inversion lemmas of the step function, and the decoder's table. -/

namespace Sys2Proof

/-- The decoder in the words of 30_encoding.md R82. -/
theorem decode_ok_iff (w : Word) (i : Instr) : decode w = .ok i ↔ rsvdField w = 0 ∧ opcodeMap (opcodeField w) = some i := by
  unfold decode
  by_cases h : rsvdField w = 0
  · rw [if_pos h]
    cases opcodeMap (opcodeField w) <;> simp [h]
  · rw [if_neg h]
    simp [show ¬ rsvdField w = 0#24 from h]

/-- The opcode map has exactly the commands' opcodes (30_encoding.md R71). -/
theorem opcodeMap_eq_some_iff (o : BitVec 8) (i : Instr) : opcodeMap o = some i ↔ o = opcodeOf i := by
  cases i <;> (revert o; decide)

/-- A command word is its two fields (30_encoding.md R70). -/
theorem toNat_word (w : Word) : w.toNat = (rsvdField w).toNat * 256 + (opcodeField w).toNat := by
  simp only [rsvdField, opcodeField, BitVec.extractLsb'_toNat, Nat.shiftRight_eq_div_pow]
  have := w.isLt
  omega

namespace Machine

/-- The next step, when it is not the engine's. -/
theorem step_of_event {s : State} {e : Event} {rest : List Event} (h : s.pending = e :: rest) :
    step s = stepEvent e s.stepped := by
  unfold step
  rw [h]
  simp only [State.stepped, h, List.tail_cons]

/-- The engine's step, with no event pending. -/
theorem step_of_busy {s : State} (h : s.pending = []) (hb : s.phase = .busy) : step s = engineStep s.stepped := by
  simp [step, h, hb, State.stepped]

/-- With no event pending, an Idle machine does nothing (60_exceptions.md R233). -/
theorem step_of_idle {s : State} (h : s.pending = []) (hb : s.phase = .idle) : step s = .next s := by
  unfold step
  rw [h, hb]

/-- A step that answers a next state is the oldest pending event's, the engine's, or none. -/
theorem step_cases {s t : State} (h : step s = .next t) :
    (∃ e rest, s.pending = e :: rest ∧ stepEvent e s.stepped = .next t)
      ∨ (s.pending = [] ∧ s.phase = .busy ∧ engineStep s.stepped = .next t)
      ∨ (s.pending = [] ∧ s.phase = .idle ∧ t = s) := by
  cases hp : s.pending with
  | cons e rest => exact .inl ⟨e, rest, rfl, step_of_event hp ▸ h⟩
  | nil =>
    cases hb : s.phase with
    | busy => exact .inr (.inl ⟨rfl, rfl, step_of_busy hp hb ▸ h⟩)
    | idle => exact .inr (.inr ⟨rfl, rfl, Host.Outcome.next.inj ((step_of_idle hp hb).symm.trans h) |>.symm⟩)

/-- The engine's step runs the latched word's command, or completes with ILLEGAL (40_command_cycle.md R92). -/
theorem engineStep_cases (s : State) :
    (∃ i, s.running = some i ∧ engineStep s = exec i s)
      ∨ (s.running = none ∧ engineStep s = .next (s.raiseBuffer .illegal)) := by
  unfold engineStep State.running
  cases h : decode s.cmd.word with
  | ok i => exact .inl ⟨i, rfl, rfl⟩
  | error e => exact .inr ⟨rfl, rfl⟩

/-- The engine's step, in either of the two ways it comes. -/
theorem step_of_engineNext {s : State} (h : s.engineNext) : step s = engineStep s.stepped := by
  obtain ⟨hb, h | ⟨rest, h⟩⟩ := h
  · exact step_of_busy h hb
  · rw [step_of_event h]
    simp [stepEvent, engineTurn, hb]

/-- A step that writes a register writes it. -/
theorem step_of_nextWrites {s : State} {r : Reg} {v : Word} (h : s.nextWrites r v) :
    step s = .next (s.stepped.writeReg r v) := by
  obtain ⟨addr, rest, hr, hp⟩ := h
  have hr' : regAt s.stepped.params.regBase 32 addr = some r := hr
  rw [step_of_event hp]
  simp only [stepEvent, State.regAccess, hr']

/-- A register read returns a value and changes nothing else (10_state.md R39). -/
theorem regAccess_read {s t : State} {width addr : Nat} (h : s.regAccess (.read width addr) = .next t) :
    ∃ r, regAt s.params.regBase width addr = some r
      ∧ t = { s with replies := .reg (s.busyView.readReg r) :: s.replies } := by
  unfold State.regAccess at h
  cases hr : regAt s.params.regBase width addr with
  | none => simp [hr] at h
  | some r =>
    simp only [hr] at h
    exact ⟨r, rfl, (Host.Outcome.next.inj h).symm⟩

/-- A register write writes one register. -/
theorem regAccess_write {s t : State} {width addr : Nat} {v : Word} (h : s.regAccess (.write width addr v) = .next t) :
    ∃ r, regAt s.params.regBase width addr = some r ∧ t = s.writeReg r v := by
  unfold State.regAccess at h
  cases hr : regAt s.params.regBase width addr with
  | none => simp [hr] at h
  | some r =>
    simp only [hr] at h
    exact ⟨r, rfl, (Host.Outcome.next.inj h).symm⟩

/-- The register at an offset of the window (10_state.md R22). -/
theorem regAt_add (base offset : Nat) : regAt base 32 (base + offset) = Reg.ofOffset offset := by simp [regAt]

/-- The register an access reaches exists exactly when the access is well formed (20_memory.md R50). -/
theorem regAt_isSome (base width addr : Nat) : (regAt base width addr).isSome = RegAccess.wfAt base width addr := by
  unfold regAt RegAccess.wfAt
  by_cases hw : width = 32
  · by_cases hb : base ≤ addr
    · simp only [hw, hb, and_self, if_true]
      generalize addr - base = o
      by_cases ho : o ≤ 0x3C
      · interval_cases o <;> simp [Reg.ofOffset, Nat.ble_eq, hb]
      · have : Reg.ofOffset o = none := by
          unfold Reg.ofOffset
          split <;> first | omega | rfl
        simp [this, ho, Nat.ble_eq]
    · simp [hw, hb, Nat.ble_eq]
  · simp [hw]

theorem outcomeUnless_next {f : Option Fault} {t u : State} (h : outcomeUnless f t = .next u) : f = none ∧ u = t := by
  cases f with
  | some f => simp [outcomeUnless] at h
  | none => exact ⟨rfl, (Host.Outcome.next.inj h).symm⟩

/-- What a host memory access can do: add a reply, or store in memory bytes that no running command owns. -/
theorem memAccess_cases {s t : State} {a : MemAccess} (h : s.memAccess a = .next t) :
    (∃ r, t = { s with replies := r :: s.replies })
      ∨ (∃ x v, s.hostWriteFault x 1 = none ∧ t = { s with mem := s.mem.writeByte x v })
      ∨ (∃ x v, s.hostWriteFault x 2 = none ∧ t = { s with mem := s.mem.writeHalf x v }) := by
  cases a with
  | readByte x => exact .inl ⟨_, (outcomeUnless_next h).2⟩
  | readHalf x => exact .inl ⟨_, (outcomeUnless_next h).2⟩
  | writeByte x v => exact .inr (.inl ⟨_, v, outcomeUnless_next h⟩)
  | writeHalf x v => exact .inr (.inr ⟨_, v, outcomeUnless_next h⟩)

/-- A reset during an access is a reset of the state before it or after it (70_reset_and_hazards.md R243). -/
theorem resetDuring_cases {s t : State} {a : RegAccess} (h : s.resetDuring a = .next t) :
    ∃ u, s.regAccess a = .next u ∧ (t = u.resetEffect ∨ t = s.resetEffect) := by
  unfold State.resetDuring at h
  split at h
  · refine ⟨_, ‹_›, ?_⟩
    have := (Host.Outcome.next.inj h).symm
    split at this
    · exact .inl this
    · exact .inr this
  · simp at h
  · simp at h

/-- What a step that is no reset can do: nothing; a reply; a register write; a store of the host; a turn the Idle
engine leaves; or the engine's step. -/
theorem step_cases_of_not_reset {s t : State} (h : step s = .next t) (hr : s.nextResets = false) :
    t = s ∨ (∃ r, t = { s.stepped with replies := r :: s.replies })
      ∨ (∃ r v, s.nextWrites r v ∧ t = s.stepped.writeReg r v ∧ ¬ (r = .ctrl ∧ v.getLsbD 0 = true))
      ∨ (∃ m, t = { s.stepped with mem := m }) ∨ (s.phase = .idle ∧ t = s.stepped)
      ∨ (s.engineNext ∧ engineStep s.stepped = .next t) := by
  rcases step_cases h with ⟨e, rest, hp, he⟩ | ⟨hp, hb, he⟩ | ⟨_, _, rfl⟩
  · cases e with
    | reg a =>
      cases a with
      | read w x =>
        obtain ⟨r, -, rfl⟩ := regAccess_read he
        exact .inr (.inl ⟨_, rfl⟩)
      | write w x v =>
        obtain ⟨r, hx, rfl⟩ := regAccess_write he
        have hx' : regAt s.params.regBase w x = some r := hx
        have hw : w = 32 := by
          unfold regAt at hx
          by_contra hne
          simp [hne] at hx
        subst hw
        refine .inr (.inr (.inl ⟨r, v, ⟨x, rest, hx', hp⟩, rfl, ?_⟩))
        rintro ⟨rfl, hv⟩
        simp [State.nextResets, hp, hx'] at hr
        simp [hr] at hv
    | mem a =>
      rcases memAccess_cases he with ⟨_, rfl⟩ | ⟨_, _, _, rfl⟩ | ⟨_, _, _, rfl⟩
      · exact .inr (.inl ⟨_, rfl⟩)
      · exact .inr (.inr (.inr (.inl ⟨_, rfl⟩)))
      · exact .inr (.inr (.inr (.inl ⟨_, rfl⟩)))
    | engineTurn =>
      simp only [stepEvent, engineTurn] at he
      split at he
      · rename_i hb
        exact .inr (.inr (.inr (.inr (.inr ⟨⟨hb, .inr ⟨_, hp⟩⟩, he⟩))))
      · rename_i hb
        cases he
        exact .inr (.inr (.inr (.inr (.inl ⟨hb, rfl⟩))))
    | reset => simp [State.nextResets, hp] at hr
    | resetDuring a => simp [State.nextResets, hp] at hr
  · exact .inr (.inr (.inr (.inr (.inr ⟨⟨hb, .inl hp⟩, he⟩))))
  · exact .inl rfl

/-- CFG either commits a valid profile or clears the profile and raises CONFIG (41_profile.md R127 to R129). -/
theorem execCfg_eq (s : State) :
    execCfg s =
      if validProfile s.params.rangeCheck s.cmd.cfg.outbit.toNat s.cmd.cfg.mant.toNat s.cmd.cfg.quant.toNat then
        .next ((s.commitProfile s.cmd.cfg).complete .none)
      else .next (s.clearProfile.raise .config) := rfl

end Machine

end Sys2Proof
end

