-- ==== Sys2Proof/Laws/PerInstr.lean ====
section
/-! SUPPORT. The family TableRow: for each command, its word is its row of spec/opcode_table.json, as a number. -/

namespace Sys2Proof.Laws

/-- The command's word is `match` of its row under the full mask, RSVD is 0, and the row's word decodes to it
(30_encoding.md R70, R71). -/
def TableRow.Statement (i : Instr) : Prop :=
  (encode i).toNat = (opcodeOf i).toNat ∧ rsvdField (encode i) = 0 ∧ opcodeField (encode i) = opcodeOf i
    ∧ decodeTableWord 32 (opcodeOf i).toNat = some i

theorem TableRow.cfg : TableRow.Statement .cfg := ⟨rfl, rfl, rfl, rfl⟩
theorem TableRow.enc : TableRow.Statement .enc := ⟨rfl, rfl, rfl, rfl⟩
theorem TableRow.dec : TableRow.Statement .dec := ⟨rfl, rfl, rfl, rfl⟩
theorem TableRow.encbuf : TableRow.Statement .encbuf := ⟨rfl, rfl, rfl, rfl⟩
theorem TableRow.decbuf : TableRow.Statement .decbuf := ⟨rfl, rfl, rfl, rfl⟩
theorem TableRow.pack : TableRow.Statement .pack := ⟨rfl, rfl, rfl, rfl⟩
theorem TableRow.unpack : TableRow.Statement .unpack := ⟨rfl, rfl, rfl, rfl⟩

end Sys2Proof.Laws
end

