-- ==== Sys2Proof/Tests/Slice0.lean ====
section
/-! SUPPORT. Tests on small states, with the expected values of 95_test_vectors.md, 30_encoding.md and the commands'
own examples; and, for every statement with hypotheses, a concrete state and operands that meet them together. -/

namespace Sys2Proof.Tests

open Sys2Proof Sys2Proof.Machine

/-! ## Small states -/

/-- The base address of the window in the tests. -/
abbrev base : Nat := 0x40000000

/-- The state after reset, on a build without the margin check and without bus errors. -/
abbrev idle : State := { State.reset with params := ⟨false, false, base⟩ }

/-- A state with an active profile. -/
abbrev withProfile (outbit M : BitVec 5) (Q : BitVec 4) : State := idle.commitProfile ⟨outbit, M, Q⟩

/-- The profile (10, 6, 2) of the spec's examples. -/
abbrev ten : State := withProfile 10 6 2

/-- The profile (8, 4, 1) of the source's scenario. -/
abbrev eight : State := withProfile 8 4 1

/-- The operand registers of a buffer command. -/
abbrev buffers (s : State) (src dst count pad : Word) : State :=
  { s with src := src, dst := dst, count := count, pad := pad }

/-- Halfwords in memory. -/
abbrev stored (s : State) (a : Nat) (l : List Half) : State := { s with mem := s.mem.writeHalves a l }

/-- A host write and a host read of the register at an offset. -/
abbrev wr (offset : Nat) (v : Word) : Event := .reg (.write 32 (base + offset) v)

abbrev rd (offset : Nat) : Event := .reg (.read 32 (base + offset))

/-- The next event. -/
abbrev next (e : Event) (s : State) : State := { s with pending := [e] }

/-- The state a step answers. -/
def after (o : Host.Outcome State Fault Refusal) : Option State :=
  match o with
  | .next t => some t
  | .fault _ => none
  | .refused _ => none

/-- A running ENC, an idle state with memory, and a running ENCBUF, PACK and UNPACK. -/
abbrev encRuns : State := { ten with din := 0x1234 }.launch 0x00000002

abbrev cfgRuns : State := { idle with profileCfg := ⟨10, 6, 2⟩ }.launch 0x00000001

abbrev encbufRuns : State := (buffers (stored ten 0x1000 [0x1234, 0xFFFF]) 0x1000 0x2000 2 0).launch 0x00000004

abbrev decbufRuns : State := (buffers (stored ten 0x2000 [0x0064, 0x03C0]) 0x2000 0x3000 2 0).launch 0x00000005

abbrev packRuns : State :=
  (buffers (stored ten 0x1000 [0x3FF, 0x000, 0x155, 0x2AA, 0x001, 0x200, 0x0F0, 0x30F]) 0x1000 0x2000 8 0).launch
    0x00000006

abbrev unpackRuns : State :=
  (buffers (stored ten 0x3000 [0xFFC0, 0x0556, 0xAA00, 0x6003, 0xC30F]) 0x3000 0x4000 5 0).launch 0x00000007

/-- A command with other operands. -/
abbrev operands (s : State) (src dst count pad : Word) : State :=
  { s with cmd := { s.cmd with src := src, dst := dst, count := count, pad := pad } }

/-! ## Decoding, from the encodings of 30_encoding.md R70 and R71: RSVD (24 bits) then OPCODE (8 bits) -/

theorem test_decode_cfg : decode 0b00000000000000000000000000000001 = .ok .cfg := by decide
theorem test_decode_enc : decode 0b00000000000000000000000000000010 = .ok .enc := by decide
theorem test_decode_dec : decode 0b00000000000000000000000000000011 = .ok .dec := by decide
theorem test_decode_encbuf : decode 0b00000000000000000000000000000100 = .ok .encbuf := by decide
theorem test_decode_decbuf : decode 0b00000000000000000000000000000101 = .ok .decbuf := by decide
theorem test_decode_pack : decode 0b00000000000000000000000000000110 = .ok .pack := by decide
theorem test_decode_unpack : decode 0b00000000000000000000000000000111 = .ok .unpack := by decide

/-- 95_test_vectors.md section 2.7. -/
theorem test_decode_illegal :
    decode 0x00000000 = .error (.noSuchOpcode 0x00) ∧ decode 0x00000008 = .error (.noSuchOpcode 0x08)
      ∧ decode 0x00000101 = .error .reservedBitsSet := by decide

/-- A command word is wider than no row of the table, and bits above 32 belong to none. -/
theorem test_decodeTableWord :
    decodeTableWord 32 7 = some .unpack ∧ decodeTableWord 8 0x104 = some .encbuf
      ∧ decodeTableWord 40 0x100000004 = none := by decide

/-! ## Well-formedness: each check refuses an ill-formed register access (20_memory.md R50) -/

theorem test_wf_accepts : RegAccess.wf base (.write 32 (base + 0x3C) 0) = true := by decide
theorem test_wf_refuses_width : RegAccess.wf base (.read 16 (base + 0x10)) = false := by decide
theorem test_wf_refuses_offset : RegAccess.wf base (.read 32 (base + 0x12)) = false := by decide
theorem test_wf_refuses_above : RegAccess.wf base (.read 32 (base + 0x40)) = false := by decide
theorem test_wf_refuses_below : RegAccess.wf base (.write 32 (base - 4) 0) = false := by decide

/-! ## The commands -/

/-- 41_profile.md R129, example: PROFILE = 0x0302060A, GROUP = 0x00000805. -/
theorem test_cfg : (after (step cfgRuns)).map (fun t => (t.readReg .profile, t.readReg .group, t.pvalid, t.err))
    = some (0x0302060A, 0x00000805, true, 0) := by decide

/-- 95_test_vectors.md section 2.1: (8, 4, 1) with RANGE_CHECK = 1. -/
theorem test_cfg_range_check :
    (after (step ({ eight with params := ⟨true, false, base⟩, profileCfg := ⟨8, 4, 1⟩ }.launch 1))).map
      (fun t => (t.readReg .profile, t.pvalid, t.err)) = some (0, false, 2) := by decide

/-- 42_codec.md R150, example. -/
theorem test_enc : (after (step encRuns)).map (fun t => (t.dout, t.satcnt, t.err)) = some (0x0064, 0, 0) := by decide

/-- 95_test_vectors.md section 2.4: SATCNT at 2^32 - 1 stays there. -/
theorem test_enc_saturates :
    (after (step ({ eight with din := 0x0004, satcnt := 0xFFFFFFFF }.launch 2))).map (fun t => (t.dout, t.satcnt, t.sat))
      = some (0x0070, 0xFFFFFFFF, true) := by decide

/-- 42_codec.md R151, example. -/
theorem test_dec : (after (step ({ ten with din := 0x0064 }.launch 3))).map (fun t => t.dout) = some 0x1200 := by decide

/-- 95_test_vectors.md section 2.3: bits 15..10 of DIN are ignored. -/
theorem test_dec_high_bits :
    (after (step ({ ten with din := 0xFF64 }.launch 3))).map (fun t => t.dout) = some 0xFFED := by decide

/-- 42_codec.md R153, example. -/
theorem test_encbuf :
    (after (step encbufRuns)).map (fun t => (t.mem.readHalf 0x2000, t.mem.readHalf 0x2002, t.outlen, t.err))
      = some (0x0064, 0x03C0, 2, 0) := by decide

/-- 95_test_vectors.md section 2.5: in place. -/
theorem test_encbuf_in_place :
    (after (exec .encbuf (operands (stored ten 0x1000 [0x7FFF, 0x8000, 0x0004]) 0x1000 0x1000 3 0))).map
      (fun t => (t.mem.readHalf 0x1000, t.mem.readHalf 0x1002, t.mem.readHalf 0x1004))
        = some (0x003F, 0x023F, 0x01A0) := by decide

/-- 42_codec.md R156, example. -/
theorem test_decbuf :
    (after (step decbufRuns)).map (fun t => (t.mem.readHalf 0x3000, t.mem.readHalf 0x3002, t.outlen))
      = some (0x1200, 0xFFFF, 2) := by decide

/-- 43_packer.md R184, example. -/
theorem test_pack :
    (after (step packRuns)).map
      (fun t => (t.mem.readHalf 0x2000, t.mem.readHalf 0x2002, t.mem.readHalf 0x2008, t.pad, t.outlen))
        = some (0xFFC0, 0x0556, 0xC30F, 0, 5) := by decide

/-- 95_test_vectors.md section 2.6: outbit 8, three words, PAD = 1. -/
theorem test_pack_pads :
    (after (exec .pack (operands (stored eight 0x1000 [0x12, 0x34, 0x56]) 0x1000 0x2000 3 0))).map
      (fun t => (t.mem.readHalf 0x2000, t.mem.readHalf 0x2002, t.pad, t.outlen)) = some (0x1234, 0x5600, 1, 2) := by
  decide

/-- 43_packer.md R184 example, unpacked. -/
theorem test_unpack :
    (after (step unpackRuns)).map
      (fun t => (t.mem.readHalf 0x4000, t.mem.readHalf 0x4004, t.mem.readHalf 0x400E, t.outlen))
        = some (0x03FF, 0x0155, 0x030F, 8) := by decide

/-- 95_test_vectors.md section 2.6: padding that does not fit the last group. -/
theorem test_unpack_stream :
    (after (exec .unpack (operands unpackRuns 0x3000 0x4000 5 8))).map (fun t => (t.err, t.outlen)) = some (6, 0) := by
  decide

/-! ## The command cycle and the register port (95_test_vectors.md sections 2.7 and 2.8) -/

theorem test_illegal_word :
    (after (step ({ idle with outlen := 7 }.launch 0x00000101))).map (fun t => (t.err, t.outlen, t.done))
      = some (1, 0, true) := by decide

theorem test_status_w1c :
    (after (step (next (wr 0x0C 0x0000000E) { ten with err := 9, ovr := true, sat := true, done := true }))).map
      (fun t => t.readReg .status) = some 0x00000910 := by decide

theorem test_ctrl_soft_reset :
    (after (step (next (wr 0x08 0x00000301) ten))).map (fun t => (t.readReg .ctrl, t.pvalid)) = some (0, false) := by
  decide

theorem test_ctrl_abort_idle :
    (after (step (next (wr 0x08 0x00000302) ten))).map (fun t => (t.readReg .ctrl, t.abortReq)) = some (0x300, false) := by
  decide

theorem test_profile_cfg_reserved_bits :
    (after (step (next (wr 0x14 0xFFF2E60A) idle))).map (fun t => t.readReg .profileCfg) = some 0x0002060A := by decide

theorem test_cmd_while_busy :
    (after (step (next (wr 0x10 1) encRuns))).map (fun t => (t.ovr, t.cmd.word, t.phase)) = some (true, 2, .busy) := by
  decide

theorem test_host_write_to_source_is_a_hazard :
    step (next (.mem (.writeByte 0x1003 0)) encbufRuns) = .fault .hazard := rfl

theorem test_byte_order :
    ((stored idle 0x3000 [0x193C]).mem.readByte 0x3000, (stored idle 0x3000 [0x193C]).mem.readByte 0x3001)
      = (0x3C, 0x19) := by decide

/-- The very next step runs a placed word. -/
theorem test_withFetchWord :
    (after (step (State.withFetchWord { ten with din := 0x1234 } 32 2))).map (fun t => t.dout) = some 0x0064 := by
  decide

/-! ## Witnesses: for each statement with hypotheses, a state and operands that meet them -/

theorem ten_legal : ten.active.Legal := ⟨by decide, by decide, by decide, by decide, by decide, by decide⟩

/-- The state of (10, 6, 2) with memory and a running command meets the invariant. -/
theorem inv_of_ten {s : State} (hm : s.mem.wf = true) (hp : s.params = idle.params) (hv : s.pvalid = true)
    (hf : s.profile = ten.profile) (hg : s.group = ten.group) (hb : s.phase = .busy) (hd : s.done = false)
    (he : s.err = 0) (ha : s.abortReq = false) (hz : s.hazard = Hazard.clear) : s.Inv where
  mem_wf := hm
  profile_valid _ := by
    have : s.active = ten.active := by unfold State.active; rw [hf, hg]
    rw [this, hp]
    exact ⟨by decide, ten_legal, by decide, by decide⟩
  profile_clear h := by rw [hv] at h; cases h
  busy_quiet _ := ⟨hd, he⟩
  idle_quiet h := by rw [hb] at h; cases h
  abort_buffer h := by rw [ha] at h; cases h
  err_code := ⟨.none, he⟩
  bus_allowed h := by rw [he] at h; exact absurd h (by decide)
  hazard_pad h := by rw [hz] at h; cases h
  hazard_sat h := by rw [hz] at h; cases h
  hazard_satcnt h := by rw [hz] at h; cases h

theorem encbufRuns_inv : encbufRuns.Inv := inv_of_ten (by decide) rfl rfl rfl rfl rfl rfl rfl rfl rfl

theorem packRuns_inv : packRuns.Inv := inv_of_ten (by decide) rfl rfl rfl rfl rfl rfl rfl rfl rfl

theorem unpackRuns_inv : unpackRuns.Inv := inv_of_ten (by decide) rfl rfl rfl rfl rfl rfl rfl rfl rfl

theorem witness_DecodeIsTheInverseOfEncode : Instr.wf .unpack = true ∧ decode 7 = .ok .unpack ∧ encode .unpack = 7 := by
  decide

theorem witness_StepRunsTheLatchedCommand :
    encRuns.engineNext ∧ decode encRuns.cmd.word = .ok .enc
      ∧ ten.phase = .idle ∧ ten.pending = [] ∧ (next .engineTurn ten).pending = .engineTurn :: [] :=
  ⟨⟨rfl, .inl rfl⟩, by decide, rfl, rfl, rfl⟩

theorem witness_PlacedWordRunsNext : decodeTableWord 32 4 = some .encbuf := by decide

theorem witness_IllegalWordCompletesWithIllegal :
    (idle.launch 8).engineNext ∧ (∃ e, decode (idle.launch 8).cmd.word = .error e)
      ∧ (idle.launch 8).hazard = Hazard.clear := ⟨⟨rfl, .inl rfl⟩, ⟨.noSuchOpcode 8, by decide⟩, rfl⟩

theorem witness_AlignmentGroupIsTheSmallest : 1 ≤ 10 ∧ inputUnits 10 = 5 ∧ outputSamples 10 = 8 := by decide

/-- Both sides of the margin check: 7 ≥ 6 passes, 7 < 11 fails (95_test_vectors.md section 2.1). -/
theorem witness_ValidProfileIsTheRangesAndTheMarginCheck :
    validProfile true 8 4 2 = true ∧ validProfile true 8 4 1 = false ∧ validProfile false 8 4 1 = true
      ∧ IsLeast (fun c => 15 - 4 ≤ c * 2) 6 :=
  ⟨by decide, by decide, by decide, by change 15 - 4 ≤ 6 * 2; omega, fun c (hc : 15 - 4 ≤ c * 2) => by omega⟩

theorem witness_CfgCommitsAValidProfile : validProfile cfgRuns.params.rangeCheck cfgRuns.cmd.cfg.outbit.toNat
    cfgRuns.cmd.cfg.mant.toNat cfgRuns.cmd.cfg.quant.toNat = true := by decide

theorem witness_CfgRejectsAnInvalidProfile :
    (ten.launch 1).hazard = Hazard.clear
      ∧ validProfile ten.params.rangeCheck (ten.launch 1).cmd.cfg.outbit.toNat (ten.launch 1).cmd.cfg.mant.toNat
          (ten.launch 1).cmd.cfg.quant.toNat = false := by decide

theorem witness_OnlyCfgAndResetChangeTheProfile :
    (∃ t, step encRuns = .next t) ∧ encRuns.nextResets = false
      ∧ ¬ (encRuns.engineNext ∧ encRuns.running = some .cfg) :=
  ⟨⟨_, rfl⟩, rfl, fun h => absurd h.2 (by decide)⟩

/-- The ends of both clauses: 0 and 1, 2 and 2^15 - 1. -/
theorem witness_RawMarginFindsTheLeadingOne :
    rawMargin 0 = 14 ∧ rawMargin 1 = 14 ∧ rawMargin 2 = 13 ∧ rawMargin 0x7FFF = 0 ∧ 0x7FFF < 2 ^ 15 := by decide

theorem witness_ScanCapDoesNotChangeTheStoredMargin : ten.active.Legal := ten_legal

/-- Under (8, 4, 1) raw 7 is the largest that does not saturate, and raw 8 saturates. -/
theorem witness_SaturationIsExactlyTheClamp :
    eight.active.Legal ∧ (encodeSample eight.active 0x0080).satev = false
      ∧ (encodeSample eight.active 0x0040).satev = true :=
  ⟨⟨by decide, by decide, by decide, by decide, by decide, by decide⟩, by decide, by decide⟩

/-- Under (10, 6, 2) sample 0x0001: mantissa bit 5 is magnitude bit 0, bit 4 lies below it. -/
theorem witness_EncodedWordHoldsItsFields :
    ten.active.Legal ∧ 5 < ten.active.M ∧ (encodeSample ten.active 0x0001).word.testBit 5 = true
      ∧ (encodeSample ten.active 0x0001).word.testBit 4 = false := ⟨ten_legal, by decide, by decide, by decide⟩

theorem witness_RoundTripKeepsSignAndWindow :
    ten.active.Legal ∧ (0xE07F : Half) = decodeWord ten.active (encodeSample ten.active 0xC000).word
      ∧ (0xC000 : Half).getLsbD 15 = true := ⟨ten_legal, by decide, by decide⟩

theorem witness_RoundTripIsExactWhenNoBitIsLost :
    ten.active.Legal ∧ (0x7E00 : Half) = decodeWord ten.active (encodeSample ten.active 0x7FFF).word
      ∧ rawMargin (magnitude 0x7FFF) = 0 ∧ 15 ≤ (withProfile 16 15 1).active.M :=
  ⟨ten_legal, by decide, by decide, by decide⟩

theorem witness_WidestProfileRoundTripsEverySample :
    (withProfile 16 15 1).active.Legal ∧ (withProfile 16 15 1).active.outbit = 16 ∧ (withProfile 16 15 1).active.M = 15
      ∧ (0x7FFF : Half).getLsbD 15 = false ∧ (0x8000 : Half).getLsbD 15 = true :=
  ⟨⟨by decide, by decide, by decide, by decide, by decide, by decide⟩, by decide, by decide, by decide, by decide⟩

theorem witness_DecIgnoresBitsAboveOutbit :
    encRuns.pvalid = true
      ∧ (0xFE34 : Half).toNat % 2 ^ encRuns.active.outbit = encRuns.cmd.din.toNat % 2 ^ encRuns.active.outbit
      ∧ ∃ t, exec .dec encRuns = .next t := ⟨rfl, by decide, _, rfl⟩

theorem witness_EncEncodesOneSample :
    encRuns.pvalid = true ∧ encRuns.hazard = Hazard.clear
      ∧ (⟨0x64, false⟩ : Encoded) = encodeSample encRuns.active encRuns.cmd.din
      ∧ (encodeSample eight.active 0x0004).satev = true := by decide

/-- Under (12, 7, 5): the largest shift below 15 is 10 (0x17C), and the next one is 15 (0x980, with a sign, and 0x1FF,
with a mantissa that no encode gives beside that shift). -/
theorem witness_DecDecodesOneWord :
    ({ ten with din := 0x0064 }.launch 3).pvalid = true ∧ (withProfile 12 7 5).active.Legal
      ∧ 10 = 0x17C / 2 ^ 7 % 2 ^ (12 - 1 - 7) * 5 ∧ 15 = 0x1FF / 2 ^ 7 % 2 ^ (12 - 1 - 7) * 5 ∧ 0x1FF < 2 ^ 12
      ∧ decodeWord (withProfile 12 7 5).active 0x17C = 0x001F ∧ decodeWord (withProfile 12 7 5).active 0x1FF = 0
      ∧ decodeWord (withProfile 12 7 5).active 0x980 = 0xFFFF :=
  ⟨rfl, ⟨by decide, by decide, by decide, by decide, by decide, by decide⟩, by decide⟩

theorem witness_DataCommandsNeedAProfile :
    Instr.pack ≠ .cfg ∧ (idle.launch 6).pvalid = false ∧ (idle.launch 6).hazard = Hazard.clear := by decide

theorem encbufRuns_ready :
    encbufRuns.mem.wf = true ∧ encbufRuns.pvalid = true ∧ encbufRuns.Undisturbed ∧ encbufRuns.aligned
      ∧ encbufRuns.inRange 2 ∧ encbufRuns.apart 2 :=
  ⟨by decide, rfl, ⟨rfl, rfl, rfl⟩, ⟨by decide, by decide⟩, ⟨by decide, by decide⟩, .inr (.inr (.inl (by decide)))⟩

theorem witness_EncbufEncodesEverySample : 2 = encbufRuns.cmd.count.toNat ∧ encbufRuns.pvalid = true
    ∧ encbufRuns.Undisturbed ∧ encbufRuns.aligned ∧ encbufRuns.inRange 2 ∧ encbufRuns.apart 2 :=
  ⟨by decide, encbufRuns_ready.2⟩

/-- One word at the top of memory, and the in-place form. -/
theorem witness_EncbufEncodesEverySample_edges :
    (operands encbufRuns 0xFFFFFFFE 0x2000 1 0).inRange 1 ∧ (operands encbufRuns 0xFFFFFFFE 0x2000 1 0).apart 1
      ∧ (operands encbufRuns 0xFFFFFFFE 0xFFFFFFFE 1 0).cmd.src = (operands encbufRuns 0xFFFFFFFE 0xFFFFFFFE 1 0).cmd.dst :=
  ⟨⟨by decide, by decide⟩, .inr (.inr (.inr (by decide))), rfl⟩

theorem witness_DecbufDecodesEveryWord :
    2 = decbufRuns.cmd.count.toNat ∧ decbufRuns.mem.wf = true ∧ decbufRuns.pvalid = true ∧ decbufRuns.Undisturbed
      ∧ decbufRuns.aligned ∧ decbufRuns.inRange 2 ∧ decbufRuns.apart 2 :=
  ⟨by decide, by decide, rfl, ⟨rfl, rfl, rfl⟩, ⟨by decide, by decide⟩, ⟨by decide, by decide⟩,
    .inr (.inr (.inl (by decide)))⟩

theorem witness_BufferCommandsAgreeWithSingleCommands :
    2 = encbufRuns.cmd.count.toNat ∧ 1 < 2 ∧ encbufRuns.mem.wf = true ∧ encbufRuns.pvalid = true
      ∧ encbufRuns.Undisturbed ∧ encbufRuns.aligned ∧ encbufRuns.inRange 2 ∧ encbufRuns.apart 2 :=
  ⟨by decide, by decide, encbufRuns_ready⟩

theorem packRuns_ready :
    packRuns.Inv ∧ packRuns.pvalid = true ∧ packRuns.Undisturbed ∧ packRuns.aligned ∧ packRuns.inRange 5
      ∧ packRuns.apart 5 :=
  ⟨packRuns_inv, rfl, ⟨rfl, rfl, rfl⟩, ⟨by decide, by decide⟩, ⟨by decide, by decide⟩,
    .inr (.inr (.inl (by decide)))⟩

/-- The word and the bit string of the statement are functions it defines, so any state has them. -/
theorem witness_PackWritesThePackedStream :
    8 = packRuns.cmd.count.toNat ∧ 5 = packRuns.active.k ∧ 8 = packRuns.active.G ∧ 10 = packRuns.active.outbit
      ∧ 1 = (8 + 8 - 1) / 8 ∧ packRuns.Inv ∧ packRuns.pvalid = true ∧ packRuns.Undisturbed ∧ packRuns.aligned
      ∧ packRuns.inRange (1 * 5) ∧ packRuns.apart (1 * 5) :=
  ⟨by decide, by decide, by decide, by decide, by decide, packRuns_ready⟩

theorem witness_UnpackWritesTheCodeWords :
    5 = unpackRuns.active.k ∧ 8 = unpackRuns.active.G ∧ 10 = unpackRuns.active.outbit
      ∧ 8 = unpackRuns.cmd.count.toNat / 5 * 8 - unpackRuns.cmd.pad.toNat ∧ unpackRuns.Inv ∧ unpackRuns.pvalid = true
      ∧ unpackRuns.Undisturbed ∧ unpackRuns.aligned ∧ unpackRuns.streamOk ∧ unpackRuns.inRange 8
      ∧ unpackRuns.apart 8 :=
  ⟨by decide, by decide, by decide, by decide, unpackRuns_inv, rfl, ⟨rfl, rfl, rfl⟩, ⟨by decide, by decide⟩,
    ⟨by decide, by decide, by decide⟩, ⟨by decide, by decide⟩, .inr (.inr (.inl (by decide)))⟩

/-- The UNPACK writes back to the PACK's source. -/
theorem witness_PackThenUnpackGivesBackTheWords :
    8 = packRuns.cmd.count.toNat ∧ 1 = (8 + packRuns.active.G - 1) / packRuns.active.G ∧ packRuns.Inv
      ∧ packRuns.pvalid = true ∧ packRuns.Undisturbed ∧ packRuns.aligned
      ∧ packRuns.inRange (1 * packRuns.active.k) ∧ packRuns.apart (1 * packRuns.active.k)
      ∧ (0x1000 : Word).toNat % 2 = 0 ∧ (0x1000 : Word).toNat + 2 * 8 ≤ 2 ^ 32
      ∧ (0x1000 : Word).toNat + 2 * 8 ≤ packRuns.cmd.dst.toNat :=
  ⟨by decide, by decide, packRuns_ready.1, rfl, packRuns_ready.2.2.1, packRuns_ready.2.2.2.1,
    ⟨by decide, by decide⟩, .inr (.inr (.inl (by decide))), by decide, by decide, by decide⟩

/-- One state for each clause: no profile; an odd address; a range that ends at 2^32 + 2; a partial overlap. -/
theorem witness_ElementCommandsReportTheFirstFault :
    (idle.launch 4).hazard = Hazard.clear ∧ (idle.launch 4).pvalid = false ∧ encbufRuns.hazard = Hazard.clear
      ∧ encbufRuns.pvalid = true ∧ ¬ (operands encbufRuns 0x1001 0x2000 0 0).aligned
      ∧ ((operands encbufRuns 0xFFFFFFFE 0x2000 2 0).aligned ∧ ¬ (operands encbufRuns 0xFFFFFFFE 0x2000 2 0).inRange 2)
      ∧ ((operands encbufRuns 0x1000 0x1002 2 0).aligned ∧ (operands encbufRuns 0x1000 0x1002 2 0).inRange 2
        ∧ ¬ (operands encbufRuns 0x1000 0x1002 2 0).apart 2
        ∧ (operands encbufRuns 0x1000 0x1002 2 0).cmd.src ≠ (operands encbufRuns 0x1000 0x1002 2 0).cmd.dst) := by
  unfold State.aligned State.inRange State.apart
  decide

/-- The same for PACK; the destination of 10 bytes ends at 2^32 + 2. -/
theorem witness_PackReportsTheFirstFault :
    5 = (packRuns.cmd.count.toNat + packRuns.active.G - 1) / packRuns.active.G * packRuns.active.k
      ∧ (idle.launch 6).hazard = Hazard.clear ∧ (idle.launch 6).pvalid = false ∧ packRuns.hazard = Hazard.clear
      ∧ packRuns.pvalid = true ∧ ¬ (operands packRuns 0x1000 0x2001 8 0).aligned
      ∧ ((operands packRuns 0x1000 0xFFFFFFF8 8 0).aligned ∧ ¬ (operands packRuns 0x1000 0xFFFFFFF8 8 0).inRange 5)
      ∧ ((operands packRuns 0x1000 0x1000 8 0).aligned ∧ (operands packRuns 0x1000 0x1000 8 0).inRange 5
        ∧ ¬ (operands packRuns 0x1000 0x1000 8 0).apart 5) := by
  unfold State.aligned State.inRange State.apart
  decide

/-- The same for UNPACK, and the three ways a stream is bad: COUNT, PAD, PAD of an empty stream. -/
theorem witness_UnpackReportsTheFirstFault :
    8 = unpackRuns.cmd.count.toNat / unpackRuns.active.k * unpackRuns.active.G - unpackRuns.cmd.pad.toNat
      ∧ (idle.launch 7).hazard = Hazard.clear ∧ (idle.launch 7).pvalid = false ∧ unpackRuns.hazard = Hazard.clear
      ∧ unpackRuns.pvalid = true ∧ ¬ (operands unpackRuns 0x3001 0x4000 4 0).aligned
      ∧ ((operands unpackRuns 0x3000 0xFFFFFFF0 4 0).aligned ∧ ¬ (operands unpackRuns 0x3000 0xFFFFFFF0 4 0).streamOk)
      ∧ ¬ (operands unpackRuns 0x3000 0x4000 5 8).streamOk ∧ ¬ (operands unpackRuns 0x3000 0x4000 0 1).streamOk
      ∧ ((operands unpackRuns 0x3000 0xFFFFFFF2 5 0).aligned ∧ (operands unpackRuns 0x3000 0xFFFFFFF2 5 0).streamOk
        ∧ ¬ (operands unpackRuns 0x3000 0xFFFFFFF2 5 0).inRange 8)
      ∧ ((operands unpackRuns 0x3000 0x3008 5 0).aligned ∧ (operands unpackRuns 0x3000 0x3008 5 0).streamOk
        ∧ (operands unpackRuns 0x3000 0x3008 5 0).inRange 8 ∧ ¬ (operands unpackRuns 0x3000 0x3008 5 0).apart 8) := by
  unfold State.aligned State.streamOk State.inRange State.apart
  decide

/-- A running ENCBUF with an abort request, on builds without and with bus errors. -/
abbrev aborting (memErrors : Bool) : State :=
  { encbufRuns with abortReq := true, params := ⟨false, memErrors, base⟩ }

theorem witness_AbortLeavesAPrefixOfWholeGroups :
    shapeOf .encbuf (aborting false) = some ⟨2, 1, 2⟩ ∧ bufferCheckOf .encbuf (aborting false) = none
      ∧ (aborting false).mem.wf = true ∧ (aborting false).abortReq = true ∧ (aborting false).params.memErrors = false
      ∧ (aborting false).hazard = Hazard.clear := by decide

/-- A running PACK on a build with bus errors. -/
abbrev refusing : State := { packRuns with params := ⟨false, true, base⟩ }

theorem witness_BusErrorLeavesAPrefixOfWholeGroups :
    shapeOf .pack refusing = some ⟨1, 5, 5⟩ ∧ bufferCheckOf .pack refusing = none ∧ refusing.mem.wf = true
      ∧ refusing.abortReq = false ∧ refusing.params.memErrors = true ∧ refusing.hazard = Hazard.clear := by decide

theorem witness_AbortAndBusErrorTakeEitherOutcome :
    shapeOf .encbuf (aborting true) = some ⟨2, 1, 2⟩ ∧ (aborting true).abortReq = true
      ∧ (aborting true).params.memErrors = true := by decide

/-- The bytes just below and just above the destination range [0x2000, 0x2004). -/
theorem witness_CommandsWriteOnlyTheirDestination :
    encbufRuns.mem.wf = true ∧ (∃ t, exec .encbuf encbufRuns = .next t)
      ∧ (∀ a, a = 0x1FFF ∨ a = 0x2004 → ∀ sh, shapeOf .encbuf encbufRuns = some sh →
          a < encbufRuns.cmd.dst.toNat ∨ encbufRuns.cmd.dst.toNat + 2 * sh.outcount ≤ a) := by
  refine ⟨by decide, ⟨_, rfl⟩, fun a ha sh hs => ?_⟩
  cases hs
  change a < 0x2000 ∨ 0x2000 + 2 * 2 ≤ a
  omega

theorem witness_CommandsLeaveTheOtherRegistersAlone : ∃ t, exec .unpack unpackRuns = .next t := ⟨_, rfl⟩

theorem witness_CommandsReadOnlyLatchedOperands :
    (∃ t, exec .pack packRuns = .next t) ∧ Instr.unpack ≠ .pack ∧ ∃ t, exec .unpack unpackRuns = .next t :=
  ⟨⟨_, rfl⟩, by decide, _, rfl⟩

/-- A pending write to a register of the window is the next write. -/
theorem nextWrites_wr {s : State} (hp : s.params = idle.params) {r : Reg} {offset : Nat} {v : Word}
    (hr : regAt base 32 (base + offset) = some r) : (next (wr offset v) s).nextWrites r v :=
  ⟨base + offset, [], by rw [show (next (wr offset v) s).params = idle.params from hp]; exact hr, rfl⟩

theorem witness_CmdWriteWhileIdleLaunches :
    (next (wr 0x10 4) ten).phase = .idle ∧ (next (wr 0x10 4) ten).nextWrites .cmd 4 := ⟨rfl, nextWrites_wr rfl rfl⟩

theorem witness_CmdWriteWhileBusyIsDropped :
    ((next (wr 0x10 1) encRuns).phase = .busy ∧ (next (wr 0x10 1) encRuns).nextWrites .cmd 1)
      ∧ (∃ t, step { encRuns with ovr := true } = .next t) ∧ { encRuns with ovr := true }.nextResets = false
      ∧ (∀ v, { encRuns with ovr := true }.nextWrites .status v → v.getLsbD 3 = false) :=
  ⟨⟨rfl, nextWrites_wr rfl rfl⟩, ⟨_, rfl⟩, rfl, fun _ ⟨_, _, _, h⟩ => by cases h⟩

theorem witness_StatusWriteClearsItsBits : (next (wr 0x0C 0xE) encRuns).nextWrites .status 0xE
    ∧ (0xE : Word).getLsbD 1 = true ∧ (next (wr 0x0C 0xE) ten).phase = .idle := ⟨nextWrites_wr rfl rfl, by decide, rfl⟩

theorem witness_SatcntWriteClearsTheCount : (next (wr 0x3C 9) ten).nextWrites .satcnt 9
    ∧ (next (wr 0x3C 9) ten).phase = .idle := ⟨nextWrites_wr rfl rfl, rfl⟩

/-- With bit 1 = 1, and with bit 1 = 0. -/
theorem witness_AbortWriteRequestsAnAbort :
    (next (wr 0x08 0x302) encbufRuns).nextWrites .ctrl 0x302 ∧ (0x302 : Word).getLsbD 0 = false
      ∧ (0x302 : Word).getLsbD 1 = true ∧ (next (wr 0x08 0x200) encbufRuns).nextWrites .ctrl 0x200
      ∧ (0x200 : Word).getLsbD 0 = false ∧ (0x200 : Word).getLsbD 1 = false :=
  ⟨nextWrites_wr rfl rfl, by decide, by decide, nextWrites_wr rfl rfl, by decide, by decide⟩

theorem witness_PlainRegisterWritesStoreTheirFields :
    (next (wr 0x20 1) ten).nextWrites .src 1 ∧ (next (wr 0x24 1) ten).nextWrites .dst 1
      ∧ (next (wr 0x28 1) ten).nextWrites .count 1 ∧ (next (wr 0x34 1) ten).nextWrites .din 1
      ∧ (next (wr 0x14 1) ten).nextWrites .profileCfg 1 ∧ (next (wr 0x2C 1) ten).nextWrites .pad 1
      ∧ ten.running ≠ some .pack ∧ (next (wr 0x00 1) ten).nextWrites .id 1 ∧ (next (wr 0x04 1) ten).nextWrites .param 1
      ∧ (next (wr 0x18 1) ten).nextWrites .profile 1 ∧ (next (wr 0x1C 1) ten).nextWrites .group 1
      ∧ (next (wr 0x30 1) ten).nextWrites .outlen 1 ∧ (next (wr 0x38 1) ten).nextWrites .dout 1 :=
  ⟨nextWrites_wr rfl rfl, nextWrites_wr rfl rfl, nextWrites_wr rfl rfl, nextWrites_wr rfl rfl, nextWrites_wr rfl rfl,
    nextWrites_wr rfl rfl, by decide, nextWrites_wr rfl rfl, nextWrites_wr rfl rfl, nextWrites_wr rfl rfl,
    nextWrites_wr rfl rfl, nextWrites_wr rfl rfl, nextWrites_wr rfl rfl⟩

/-- A soft reset and a reset input that cut an ENCBUF, and a byte outside its destination range. -/
theorem witness_ResetClearsEveryRegister :
    encbufRuns.mem.wf = true ∧ (next (wr 0x08 0x301) encbufRuns).nextWrites .ctrl 0x301
      ∧ (0x301 : Word).getLsbD 0 = true ∧ (∃ rest, (next .reset encbufRuns).pending = .reset :: rest)
      ∧ shapeOf .encbuf encbufRuns = some ⟨2, 1, 2⟩ ∧ bufferCheckOf .encbuf encbufRuns = none
      ∧ 0x2000 + 2 * 2 ≤ 0x2004 := ⟨by decide, nextWrites_wr rfl rfl, by decide, ⟨_, rfl⟩, by decide, by decide, by decide⟩

theorem witness_ResetDuringAnAccessTakesEitherOrder :
    (next (.resetDuring (.write 32 (base + 0x20) 5)) ten).pending = .resetDuring (.write 32 (base + 0x20) 5) :: []
      ∧ RegAccess.wf ten.params.regBase (.write 32 (base + 0x20) 5) = true := by decide

/-- Both sides of each bound: the first and the last register, below, above, between and another width. -/
theorem witness_OnlyWordAccessesToTheWindowAreTaken :
    (∃ t, step (next (rd 0x00) ten) = .next t) ∧ (∃ t, step (next (wr 0x3C 0) ten) = .next t)
      ∧ step (next (rd 0x40) ten) = .refused .badRegisterAccess ∧ step (next (rd 0x3E) ten) = .refused .badRegisterAccess
      ∧ step (next (.reg (.read 32 (base - 4))) ten) = .refused .badRegisterAccess
      ∧ step (next (.reg (.read 16 base)) ten) = .refused .badRegisterAccess :=
  ⟨⟨_, rfl⟩, ⟨_, rfl⟩, rfl, rfl, rfl, rfl⟩

theorem witness_RegisterReadsHaveNoSideEffect :
    regAt ten.params.regBase 32 (base + 0x18) = some .profile
      ∧ (next (rd 0x18) ten).pending = .reg (.read 32 (base + 0x18)) :: [] ∧ ten.phase = .idle := by decide

theorem witness_BusyReadsOfOtherRegistersAreStored :
    (next (rd 0x0C) encbufRuns).Inv ∧ (next (rd 0x0C) encbufRuns).phase = .busy
      ∧ regAt encbufRuns.params.regBase 32 (base + 0x0C) = some .status
      ∧ (next (rd 0x0C) encbufRuns).pending = .reg (.read 32 (base + 0x0C)) :: [] ∧ encbufRuns.running ≠ some .cfg
      ∧ cfgRuns.running = some .cfg :=
  ⟨inv_of_ten (by decide) rfl rfl rfl rfl rfl rfl rfl rfl rfl, rfl, by decide, rfl, by decide, by decide⟩

theorem witness_IrqIsDoneAndEnabled : encRuns.Inv ∧ encRuns.phase = .busy :=
  ⟨inv_of_ten rfl rfl rfl rfl rfl rfl rfl rfl rfl rfl, rfl⟩

/-- The bytes at and beside both ends of the source range [0x1000, 0x1004) and the destination range
[0x2000, 0x2004) of a running ENCBUF, the halfwords that touch them by one byte or not at all, and the last halfword of
memory beside the one beyond it. -/
theorem witness_HostAccessToAnOwnedRangeIsAHazard :
    [0xFFF, 0x1000, 0x1003, 0x1004].map (fun a => encbufRuns.touchesSource a 1) = [false, true, true, false]
      ∧ [0x1FFF, 0x2000, 0x2003, 0x2004].map (fun a => encbufRuns.touchesDest a 1) = [false, true, true, false]
      ∧ [0xFFE, 0xFFF, 0x1003, 0x1004].map (fun a => encbufRuns.touchesSource a 2) = [false, true, true, false]
      ∧ [0x1FFE, 0x1FFF, 0x2003, 0x2004].map (fun a => encbufRuns.touchesDest a 2) = [false, true, true, false]
      ∧ (next (.mem (.writeByte 0x1000 1)) encbufRuns).pending = .mem (.writeByte 0x1000 1) :: []
      ∧ (next (.mem (.readHalf 0x2003)) encbufRuns).pending = .mem (.readHalf 0x2003) :: []
      ∧ (0xFFFFFFFE : Word).toNat + 2 ≤ 2 ^ 32 ∧ 2 ^ 32 < (0xFFFFFFFF : Word).toNat + 2 := by decide

theorem witness_HostHalfwordsAreLittleEndian :
    ten.mem.wf = true ∧ ten.phase = .idle ∧ (0xFFFFFFFE : Word).toNat + 2 ≤ 2 ^ 32
      ∧ { ten with pending := [.mem (.writeHalf 0xFFFFFFFE 0x193C), .mem (.readHalf 0xFFFFFFFE)] }.pending
        = .mem (.writeHalf 0xFFFFFFFE 0x193C) :: .mem (.readHalf 0xFFFFFFFE) :: [] := by decide

/-- Commands that writes to PAD and SATCNT met: one that does not saturate, and one that does. -/
theorem witness_HazardousWritesLeaveBoundedValues :
    encRuns.mem.wf = true
      ∧ (∃ t u, exec .pack { encRuns with hazard := ⟨true, false, some 5⟩ } = .next t
        ∧ exec .enc { encRuns with hazard := ⟨true, false, some 5⟩ } = .next u ∧ t.err = 0)
      ∧ (encodeSample encRuns.active encRuns.cmd.din).satev = false
      ∧ encbufRuns.mem.wf = true ∧ (∃ w, exec .encbuf { encbufRuns with hazard := ⟨false, true, some 5⟩ } = .next w)
      ∧ (∃ v, exec .encbuf { encbufRuns with satcnt := 5, hazard := Hazard.clear } = .next v)
      ∧ encbufRuns.satEvents encbufRuns.cmd.count.toNat = 0
      ∧ (encodeSample eight.active 0x0040).satev = true :=
  ⟨by decide, ⟨_, _, rfl, rfl, rfl⟩, by decide, by decide, ⟨_, rfl⟩, ⟨_, rfl⟩, by decide, by decide⟩

theorem witness_StepKeepsTheInvariant : encbufRuns.Inv ∧ ∃ t, step encbufRuns = .next t := ⟨encbufRuns_inv, _, rfl⟩

theorem witness_StepNeverChangesTheParameters : ∃ t, step cfgRuns = .next t := ⟨_, rfl⟩

/-- A STATUS write that clears both flags, and a launch that clears DONE. -/
theorem witness_StickyFlagsFallOnlyByTheirClears :
    (∃ t, step (next (wr 0x0C 0x6) { ten with sat := true, done := true }) = .next t ∧ t.sat = false ∧ t.done = false)
      ∧ (next (wr 0x0C 0x6) { ten with sat := true, done := true }).nextResets = false
      ∧ ∃ t, step (next (wr 0x10 1) { ten with done := true }) = .next t ∧ t.done = false :=
  ⟨⟨_, rfl, rfl, rfl⟩, rfl, _, rfl, rfl⟩

theorem witness_IdleStepsNeverReadTheLatchedCommand :
    ten.phase = .idle ∧ (∃ t, step (next (wr 0x10 4) ten) = .next t ∧ t.phase = .busy)
      ∧ step (next (.mem (.writeHalf 0xFFFFFFFF 1)) ten) = .fault .outsideMemory
      ∧ step (next (rd 0x40) ten) = .refused .badRegisterAccess := ⟨rfl, ⟨_, rfl, rfl⟩, rfl, rfl⟩

end Sys2Proof.Tests
end

section
/-! ## The interrupt output (10_state.md R44, 60_exceptions.md R220) -/

namespace Sys2Proof.Machine

theorem State.irq_iff (s : State) :
    s.irq = true ↔ s.done = true ∧ (s.ieDone = true ∨ (s.ieErr = true ∧ s.err ≠ 0)) := by
  simp only [State.irq, Bool.and_eq_true, Bool.or_eq_true, bne_iff_ne]

theorem State.irq_of_not_done {s : State} (hd : s.done = false) : s.irq = false := by
  rw [State.irq, hd, Bool.false_and]

/-- Settles O51: the interrupt has no source but DONE, which the invariant keeps 0 from launch to completion. -/
theorem irqIsDoneAndEnabled : Obligations.IrqIsDoneAndEnabled := by
  refine ⟨State.irq_iff, fun s hinv hbusy => ?_⟩
  obtain ⟨hdone, -⟩ := hinv.busy_quiet hbusy
  exact State.irq_of_not_done hdone

end Sys2Proof.Machine
end

section
/-! ## Host writes to CMD, STATUS, SATCNT and CTRL (40_command_cycle.md R90, R97 to R100) -/

namespace Sys2Proof.Machine

/-! ### CMD, and the flag OVR -/

theorem State.writeCmd_of_idle {s : State} (hidle : s.phase = .idle) (w : Word) : s.writeCmd w = s.launch w := by
  rw [State.writeCmd, hidle]

theorem State.writeCmd_of_busy {s : State} (hbusy : s.phase = .busy) (w : Word) :
    s.writeCmd w = { s with ovr := true } := by
  rw [State.writeCmd, hbusy]

/-- A buffer command leaves OVR alone in each of its endings. -/
theorem transfer_ovr {s t : State} {check : Option ErrCode} {sh : Shape} {body : Nat → Memory → GroupOut}
    {newPad : Word} (h : s.transfer check sh body newPad = .next t) : t.ovr = s.ovr := by
  rcases transfer_cases h with ⟨e, -, rfl⟩ | ⟨-, rfl | ⟨-, js, -, rfl⟩ | ⟨-, jf, -, rfl⟩⟩ <;> rfl

/-- No command writes OVR (30_encoding.md R72). -/
theorem exec_ovr {i : Instr} {s t : State} (h : exec i s = .next t) : t.ovr = s.ovr := by
  cases i with
  | cfg =>
    rw [exec, execCfg_eq] at h
    split at h <;> cases h <;> rfl
  | enc =>
    rw [exec, execEnc] at h
    split at h <;> cases h <;> rfl
  | dec =>
    rw [exec, execDec] at h
    split at h <;> cases h <;> rfl
  | encbuf => exact transfer_ovr h
  | decbuf => exact transfer_ovr h
  | pack => exact transfer_ovr h
  | unpack => exact transfer_ovr h

theorem engineStep_ovr {s t : State} (h : engineStep s = .next t) : t.ovr = s.ovr := by
  rcases engineStep_cases s with ⟨i, -, hexec⟩ | ⟨-, hillegal⟩
  · exact exec_ovr (hexec ▸ h)
  · cases hillegal.symm.trans h
    rfl

/-- A register write that neither resets nor clears OVR keeps it set. -/
theorem State.writeReg_keeps_ovr {s : State} {r : Reg} {v : Word} (hovr : s.ovr = true)
    (hreset : ¬ (r = .ctrl ∧ v.getLsbD 0 = true)) (hclear : r = .status → v.getLsbD 3 = false) :
    (s.writeReg r v).ovr = true := by
  cases r with
  | ctrl =>
    have hbit : v.getLsbD 0 ≠ true := fun h => hreset ⟨rfl, h⟩
    rw [State.writeReg, State.writeCtrl, if_neg hbit]
    exact hovr
  | status =>
    calc (s.writeReg .status v).ovr = (s.ovr && !v.getLsbD 3) := rfl
      _ = true := by rw [hovr, hclear rfl]; rfl
  | cmd =>
    cases hphase : s.phase with
    | idle => rwa [State.writeReg, State.writeCmd_of_idle hphase, State.launch_ovr]
    | busy => rw [State.writeReg, State.writeCmd_of_busy hphase]
  | id | param | profileCfg | profile | group | src | dst | count | pad | outlen | din | dout | satcnt => exact hovr

/-- OVR falls only by its STATUS bit or a reset (40_command_cycle.md R97). -/
theorem step_keeps_ovr {s t : State} (h : step s = .next t) (hovr : s.ovr = true) (hreset : s.nextResets = false)
    (hclear : ∀ v, s.nextWrites .status v → v.getLsbD 3 = false) : t.ovr = true := by
  rcases step_cases_of_not_reset h hreset with
    rfl | ⟨r, rfl⟩ | ⟨r, v, hwrite, rfl, hctrl⟩ | ⟨m, rfl⟩ | ⟨-, rfl⟩ | ⟨-, hengine⟩
  · exact hovr
  · exact hovr
  · exact State.writeReg_keeps_ovr hovr hctrl fun hr => hclear v (hr ▸ hwrite)
  · exact hovr
  · exact hovr
  · exact (engineStep_ovr hengine).trans hovr

/-- Settles O40: while Busy the write only sets OVR, and no command and no other write clears it. -/
theorem cmdWriteWhileBusyIsDropped : Obligations.CmdWriteWhileBusyIsDropped := by
  refine ⟨fun s w hbusy hwrite => ?_, fun s t h hovr hreset hclear => step_keeps_ovr h hovr hreset hclear⟩
  have hbusy' : s.stepped.phase = .busy := hbusy
  rw [step_of_nextWrites hwrite, State.writeReg, State.writeCmd_of_busy hbusy']

/-- Settles O39: while Idle the write is the launch, which does not look at the word. -/
theorem cmdWriteWhileIdleLaunches : Obligations.CmdWriteWhileIdleLaunches := by
  intro s w hidle hwrite
  have hidle' : s.stepped.phase = .idle := hidle
  rw [step_of_nextWrites hwrite, State.writeReg, State.writeCmd_of_idle hidle']
  rfl

/-! ### STATUS and SATCNT -/

theorem State.countsSats_of_idle {s : State} (hidle : s.phase = .idle) : s.countsSats = false := by
  rw [State.countsSats, State.busy, hidle]
  rfl

/-- The write is recorded as a hazard only where it clears SAT of a running ENC or ENCBUF
(70_reset_and_hazards.md R246). -/
theorem State.writeStatus_hazard {s : State} {v : Word} (h : v.getLsbD 2 = false ∨ s.phase = .idle) :
    (s.writeStatus v).hazard = s.hazard := by
  have hmeets : (v.getLsbD 2 && s.countsSats) = false := by
    rcases h with hbit | hidle
    · rw [hbit, Bool.false_and]
    · rw [State.countsSats_of_idle hidle, Bool.and_false]
  simp only [State.writeStatus, hmeets, Bool.or_false]

theorem State.writeStatus_irq {s : State} {v : Word} (h : v.getLsbD 1 = true) : (s.writeStatus v).irq = false := by
  have hdone : (s.writeStatus v).done = false := by simp [State.writeStatus, h]
  exact State.irq_of_not_done hdone

/-- Settles O41: the write is `State.writeStatus`, which drops DONE and with it the interrupt. -/
theorem statusWriteClearsItsBits : Obligations.StatusWriteClearsItsBits := by
  intro s v hwrite
  exact ⟨s.stepped.writeStatus v, step_of_nextWrites hwrite, rfl, State.writeStatus_irq, State.writeStatus_hazard⟩

/-- While Idle there is no running ENC or ENCBUF for the write to meet (70_reset_and_hazards.md R246). -/
theorem State.writeSatcnt_hazard_of_idle {s : State} (hidle : s.phase = .idle) : s.writeSatcnt.hazard = s.hazard := by
  rcases hhazard : s.hazard with ⟨padWritten, satCleared, satcntBefore⟩
  cases satcntBefore <;> simp [State.writeSatcnt, hhazard, State.countsSats_of_idle hidle]

/-- Settles O42: the write is `State.writeSatcnt`, whatever the value. -/
theorem satcntWriteClearsTheCount : Obligations.SatcntWriteClearsTheCount := by
  intro s v hwrite
  exact ⟨s.stepped.writeSatcnt, step_of_nextWrites hwrite, rfl, State.writeSatcnt_hazard_of_idle⟩

/-! ### CTRL -/

theorem isBufferCommand_iff (i : Instr) :
    isBufferCommand i = true ↔ i = .encbuf ∨ i = .decbuf ∨ i = .pack ∨ i = .unpack := by
  cases i <;> decide

/-- Only a Busy buffer command can be aborted (40_command_cycle.md R100). -/
theorem State.bufferRuns_iff (s : State) :
    s.bufferRuns = true ↔ s.phase = .busy
      ∧ (decode s.cmd.word = .ok .encbuf ∨ decode s.cmd.word = .ok .decbuf ∨ decode s.cmd.word = .ok .pack
        ∨ decode s.cmd.word = .ok .unpack) := by
  rw [State.bufferRuns, State.busy, State.running, Bool.and_eq_true, beq_iff_eq]
  cases decode s.cmd.word with
  | ok i => simp only [isBufferCommand_iff, Except.ok.injEq]
  | error e => simp

theorem State.writeCtrl_of_no_reset {s : State} {v : Word} (h : v.getLsbD 0 = false) :
    s.writeCtrl v =
      { s with
        ieDone := v.getLsbD 8, ieErr := v.getLsbD 9
        abortReq := s.abortReq || (v.getLsbD 1 && s.bufferRuns) } := by
  rw [State.writeCtrl, h]
  rfl

/-- Settles O43: with bit 0 = 0 the write requests an abort exactly where `State.bufferRuns`. -/
theorem abortWriteRequestsAnAbort : Obligations.AbortWriteRequestsAnAbort := by
  intro s v hwrite hbit
  refine ⟨s.stepped.writeCtrl v, step_of_nextWrites hwrite, ?_, ?_⟩
  · rw [State.writeCtrl_of_no_reset hbit]
  · rw [State.writeCtrl_of_no_reset hbit, Bool.or_eq_true, Bool.and_eq_true, State.bufferRuns_iff]
    rfl

end Sys2Proof.Machine
end

section
/-! ## The decoder and the encoder (30_encoding.md R70, R71, R81, R82) -/

namespace Sys2Proof

theorem toNat_encode (i : Instr) : (encode i).toNat = (opcodeOf i).toNat := by
  cases i <;> rfl

/-- A word decodes to a command exactly when it is the command's opcode, with nothing above it. -/
theorem decode_ok_iff_toNat (w : Word) (i : Instr) : decode w = .ok i ↔ w.toNat = (opcodeOf i).toNat := by
  have hword := toNat_word w
  have hopcode := (opcodeField w).isLt
  have hopcodeOf := (opcodeOf i).isLt
  rw [decode_ok_iff, opcodeMap_eq_some_iff, ← BitVec.toNat_inj, ← BitVec.toNat_inj,
    show BitVec.toNat (0 : BitVec 24) = 0 from rfl]
  omega

/-- Settles O2: both sides say that the word is the opcode with RSVD = 0. -/
theorem decodeIsTheInverseOfEncode : Obligations.DecodeIsTheInverseOfEncode := by
  intro w i _
  rw [decode_ok_iff_toNat, ← toNat_encode, BitVec.toNat_inj, eq_comm]

theorem decode_error_iff (w : Word) : (∃ e, decode w = .error e) ↔ ∀ i, decode w ≠ .ok i := by
  cases h : decode w with
  | ok i => simp
  | error e => simp

/-- The opcodes are the numbers 1 to 7 (30_encoding.md R71). -/
theorem exists_toNat_eq_opcodeOf_iff (n : Nat) : (∃ i, n = (opcodeOf i).toNat) ↔ 1 ≤ n ∧ n ≤ 7 := by
  constructor
  · rintro ⟨i, rfl⟩
    cases i <;> decide
  · rintro ⟨hpos, hle⟩
    interval_cases n
    exacts [⟨.cfg, rfl⟩, ⟨.enc, rfl⟩, ⟨.dec, rfl⟩, ⟨.encbuf, rfl⟩, ⟨.decbuf, rfl⟩, ⟨.pack, rfl⟩, ⟨.unpack, rfl⟩]

/-- Settles O1: a word is rejected exactly when it is none of the seven opcodes. -/
theorem commandWordIsOneOfSevenOrIllegal : Obligations.CommandWordIsOneOfSevenOrIllegal := by
  intro w
  refine ⟨decode_ok_iff_toNat w .cfg, decode_ok_iff_toNat w .enc, decode_ok_iff_toNat w .dec,
    decode_ok_iff_toNat w .encbuf, decode_ok_iff_toNat w .decbuf, decode_ok_iff_toNat w .pack,
    decode_ok_iff_toNat w .unpack, ?_⟩
  rw [decode_error_iff, ← exists_toNat_eq_opcodeOf_iff, not_exists]
  exact forall_congr' fun i => not_congr (decode_ok_iff_toNat w i)

/-- Settles O3: twelve words of the spec's tables, each evaluated. -/
theorem tableWordsDecode : Obligations.TableWordsDecode := by
  unfold Obligations.TableWordsDecode
  decide

end Sys2Proof
end

section
/-! ## What every command leaves, in every outcome (30_encoding.md R72, 40_command_cycle.md R95) -/

namespace Sys2Proof.Machine

/-! ### CFG, ENC and DEC: the outcome with and without a valid profile -/

section Plain

variable {s : State}

theorem exec_cfg_of_valid
    (h : validProfile s.params.rangeCheck s.cmd.cfg.outbit.toNat s.cmd.cfg.mant.toNat s.cmd.cfg.quant.toNat = true) :
    exec .cfg s = .next ((s.commitProfile s.cmd.cfg).complete .none) := by
  rw [exec, execCfg_eq, if_pos h]

theorem exec_cfg_of_invalid
    (h : validProfile s.params.rangeCheck s.cmd.cfg.outbit.toNat s.cmd.cfg.mant.toNat s.cmd.cfg.quant.toNat = false) :
    exec .cfg s = .next (s.clearProfile.raise .config) := by
  rw [exec, execCfg_eq, if_neg (Bool.not_eq_true _ ▸ h)]

/-- The state ENC leaves with a valid profile (42_codec.md R150). -/
def State.encoded (s : State) : State :=
  { s with
    dout := BitVec.ofNat 16 (encodeSample s.active s.cmd.din).word
    satcnt := s.settledSatcnt (encodeSample s.active s.cmd.din).sats
    sat := s.settledSat (encodeSample s.active s.cmd.din).sats }.complete .none

theorem exec_enc_of_profile (h : s.pvalid = true) : exec .enc s = .next s.encoded := by
  rw [exec, execEnc, if_pos h]
  rfl

theorem exec_enc_of_no_profile (h : s.pvalid = false) : exec .enc s = .next (s.raise .noprofile) := by
  rw [exec, execEnc, if_neg (Bool.not_eq_true _ ▸ h)]

/-- The state DEC leaves with a valid profile (42_codec.md R151). -/
def State.decoded (s : State) : State :=
  { s with dout := decodeWord s.active (usedWord s.active s.cmd.din) }.complete .none

theorem exec_dec_of_profile (h : s.pvalid = true) : exec .dec s = .next s.decoded := by
  rw [exec, execDec, if_pos h]
  rfl

theorem exec_dec_of_no_profile (h : s.pvalid = false) : exec .dec s = .next (s.raise .noprofile) := by
  rw [exec, execDec, if_neg (Bool.not_eq_true _ ▸ h)]

/-- What CFG can do. -/
theorem exec_cfg_cases {t : State} (h : exec .cfg s = .next t) :
    t = (s.commitProfile s.cmd.cfg).complete .none ∨ t = s.clearProfile.raise .config := by
  cases hvalid : validProfile s.params.rangeCheck s.cmd.cfg.outbit.toNat s.cmd.cfg.mant.toNat s.cmd.cfg.quant.toNat with
  | true => exact .inl (Host.Outcome.next.inj (h.symm.trans (exec_cfg_of_valid hvalid)))
  | false => exact .inr (Host.Outcome.next.inj (h.symm.trans (exec_cfg_of_invalid hvalid)))

/-- What ENC can do. -/
theorem exec_enc_cases {t : State} (h : exec .enc s = .next t) : t = s.encoded ∨ t = s.raise .noprofile := by
  cases hvalid : s.pvalid with
  | true => exact .inl (Host.Outcome.next.inj (h.symm.trans (exec_enc_of_profile hvalid)))
  | false => exact .inr (Host.Outcome.next.inj (h.symm.trans (exec_enc_of_no_profile hvalid)))

/-- What DEC can do. -/
theorem exec_dec_cases {t : State} (h : exec .dec s = .next t) : t = s.decoded ∨ t = s.raise .noprofile := by
  cases hvalid : s.pvalid with
  | true => exact .inl (Host.Outcome.next.inj (h.symm.trans (exec_dec_of_profile hvalid)))
  | false => exact .inr (Host.Outcome.next.inj (h.symm.trans (exec_dec_of_no_profile hvalid)))

end Plain

/-! ### Registers -/

/-- A transfer writes memory, OUTLEN, PAD, SATCNT and SAT, and completes. -/
theorem transfer_frame {s t : State} {check : Option ErrCode} {sh : Shape} {body : Nat → Memory → GroupOut}
    {newPad : Word} (h : s.transfer check sh body newPad = .next t) :
    t = { s with
      mem := t.mem, outlen := t.outlen, pad := t.pad, satcnt := t.satcnt, sat := t.sat }.completed t.err := by
  rcases transfer_cases h with ⟨e, -, rfl⟩ | ⟨-, rfl | ⟨-, js, -, rfl⟩ | ⟨-, jf, -, rfl⟩⟩ <;> rfl

/-- PAD after a transfer is `newPad` after success and unchanged otherwise (43_packer.md R185). -/
theorem transfer_pad {s t : State} {check : Option ErrCode} {sh : Shape} {body : Nat → Memory → GroupOut}
    {newPad : Word} (h : s.transfer check sh body newPad = .next t) : t.pad = s.pad ∨ (t.err = 0 ∧ t.pad = newPad) := by
  rcases transfer_cases h with ⟨e, -, rfl⟩ | ⟨-, rfl | ⟨-, js, -, rfl⟩ | ⟨-, jf, -, rfl⟩⟩
  · exact .inl rfl
  · exact .inr ⟨rfl, rfl⟩
  · exact .inl rfl
  · exact .inl rfl

/-- The error codes of a transfer: BUS only where the memory port can refuse (60_exceptions.md R214). -/
theorem transfer_err {s t : State} {check : Option ErrCode} {sh : Shape} {body : Nat → Memory → GroupOut}
    {newPad : Word} (hcheck : check ≠ some .bus) (h : s.transfer check sh body newPad = .next t) :
    ∃ e : ErrCode, t.err = e.code ∧ (e = .bus → s.params.memErrors = true) := by
  rcases transfer_cases h with ⟨e, he, rfl⟩ | ⟨-, rfl | ⟨-, js, -, rfl⟩ | ⟨hbus, jf, -, rfl⟩⟩
  · exact ⟨e, rfl, fun hb => absurd (he.trans (congrArg some hb)) hcheck⟩
  · exact ⟨.none, rfl, nofun⟩
  · exact ⟨.aborted, rfl, nofun⟩
  · exact ⟨.bus, rfl, fun _ => hbus⟩

/-- Where no group saturates, a transfer that no host write met leaves SATCNT and SAT. -/
theorem transfer_keeps_counts {s t : State} {check : Option ErrCode} {sh : Shape} {body : Nat → Memory → GroupOut}
    {newPad : Word} (hsats : ∀ j m, (body j m).sats = 0) (hclear : s.hazard = Hazard.clear)
    (h : s.transfer check sh body newPad = .next t) : t.satcnt = s.satcnt ∧ t.sat = s.sat := by
  have hcount : s.settledSatcnt 0 = s.satcnt := settledSatcnt_of_clear hclear 0
  have hgroups := runGroups_sats_zero (dst := s.cmd.dst.toNat) (per := sh.per) (m := s.mem) hsats
  rcases transfer_cases h with ⟨e, -, rfl⟩ | ⟨-, rfl | ⟨-, js, -, rfl⟩ | ⟨-, jf, -, rfl⟩⟩
  · exact ⟨hcount, rfl⟩
  · exact ⟨(congrArg s.settledSatcnt (hgroups sh.ng)).trans hcount, congrArg s.settledSat (hgroups sh.ng)⟩
  · exact ⟨(congrArg s.settledSatcnt (hgroups js)).trans hcount, congrArg s.settledSat (hgroups js)⟩
  · exact ⟨(congrArg s.settledSatcnt (hgroups jf)).trans hcount, congrArg s.settledSat (hgroups jf)⟩

/-- No launch check reports BUS. -/
theorem bufferCheck_ne_bus (s : State) (sh : Shape) (streamBad inplaceOk : Bool) :
    bufferCheck s sh streamBad inplaceOk ≠ some .bus := by
  simp only [bufferCheck, firstError_cons, firstError_nil]
  repeat' split
  all_goals nofun

theorem bufferCheckOf_ne_bus (i : Instr) (s : State) : bufferCheckOf i s ≠ some .bus := by
  cases i with
  | cfg | enc | dec => nofun
  | encbuf | decbuf | pack | unpack => exact bufferCheck_ne_bus _ _ _ _

/-- CFG, ENC and DEC: the commands that make no transfer. -/
theorem shapeOf_eq_none_iff (i : Instr) (s : State) : shapeOf i s = none ↔ i = .cfg ∨ i = .enc ∨ i = .dec := by
  cases i <;> simp [shapeOf]

/-- CFG writes the profile, SATCNT only where a host write met it, and completes. -/
theorem exec_cfg_frame {s t : State} (h : exec .cfg s = .next t) :
    t = { s with profile := t.profile, group := t.group, pvalid := t.pvalid, satcnt := t.satcnt }.completed t.err := by
  rcases exec_cfg_cases h with rfl | rfl <;> rfl

theorem exec_enc_frame {s t : State} (h : exec .enc s = .next t) :
    t = { s with dout := t.dout, satcnt := t.satcnt, sat := t.sat }.completed t.err := by
  rcases exec_enc_cases h with rfl | rfl <;> rfl

theorem exec_dec_frame {s t : State} (h : exec .dec s = .next t) :
    t = { s with dout := t.dout, satcnt := t.satcnt }.completed t.err := by
  rcases exec_dec_cases h with rfl | rfl <;> rfl

theorem exec_buffer_frame {i : Instr} {s t : State} {sh : Shape} (hsh : shapeOf i s = some sh)
    (h : exec i s = .next t) :
    t = { s with
      mem := t.mem, outlen := t.outlen, pad := t.pad, satcnt := t.satcnt, sat := t.sat }.completed t.err :=
  transfer_frame ((exec_eq_transfer hsh).symm.trans h)

/-- All that any command can write. -/
theorem exec_frame {i : Instr} {s t : State} (h : exec i s = .next t) :
    t = { s with
      profile := t.profile, group := t.group, pvalid := t.pvalid, dout := t.dout, mem := t.mem, outlen := t.outlen
      pad := t.pad, satcnt := t.satcnt, sat := t.sat }.completed t.err := by
  cases hsh : shapeOf i s with
  | some sh => rw [exec_buffer_frame hsh h]; rfl
  | none =>
    rcases (shapeOf_eq_none_iff i s).mp hsh with rfl | rfl | rfl
    · rw [exec_cfg_frame h]; rfl
    · rw [exec_enc_frame h]; rfl
    · rw [exec_dec_frame h]; rfl

/-- The error codes of a command: one of R210, and BUS only with MEM_ERRORS = 1. -/
theorem exec_err {i : Instr} {s t : State} (h : exec i s = .next t) :
    ∃ e : ErrCode, t.err = e.code ∧ (e = .bus → s.params.memErrors = true) := by
  cases hsh : shapeOf i s with
  | some sh => exact transfer_err (bufferCheckOf_ne_bus i s) ((exec_eq_transfer hsh).symm.trans h)
  | none =>
    rcases (shapeOf_eq_none_iff i s).mp hsh with rfl | rfl | rfl
    · rcases exec_cfg_cases h with rfl | rfl
      exacts [⟨.none, rfl, nofun⟩, ⟨.config, rfl, nofun⟩]
    · rcases exec_enc_cases h with rfl | rfl
      exacts [⟨.none, rfl, nofun⟩, ⟨.noprofile, rfl, nofun⟩]
    · rcases exec_dec_cases h with rfl | rfl
      exacts [⟨.none, rfl, nofun⟩, ⟨.noprofile, rfl, nofun⟩]

/-- Every command answers a next state (40_command_cycle.md R96). -/
theorem exec_answers_next (i : Instr) (s : State) : ∃ t, exec i s = .next t := by
  cases hsh : shapeOf i s with
  | some sh => rw [exec_eq_transfer hsh]; exact transfer_next ..
  | none =>
    rcases (shapeOf_eq_none_iff i s).mp hsh with rfl | rfl | rfl
    · rw [exec, execCfg]
      split <;> exact ⟨_, rfl⟩
    · rw [exec, execEnc]
      split <;> exact ⟨_, rfl⟩
    · rw [exec, execDec]
      split <;> exact ⟨_, rfl⟩

/-- Settles O7: every outcome of every command is a completion. -/
theorem everyCommandCompletes : Obligations.EveryCommandCompletes := by
  intro i s
  obtain ⟨t, h⟩ := exec_answers_next i s
  have hframe := exec_frame h
  obtain ⟨e, he, -⟩ := exec_err h
  exact ⟨t, h, (congrArg State.phase hframe :), (congrArg State.done hframe :), (congrArg State.abortReq hframe :),
    (congrArg State.hazard hframe :), e, he⟩

theorem exec_keeps_pad {i : Instr} {s t : State} (h : exec i s = .next t) (hi : i ≠ .pack) : t.pad = s.pad := by
  cases i with
  | cfg => exact (congrArg State.pad (exec_cfg_frame h) :)
  | enc => exact (congrArg State.pad (exec_enc_frame h) :)
  | dec => exact (congrArg State.pad (exec_dec_frame h) :)
  | encbuf | decbuf | unpack => exact (transfer_pad h).elim id And.right
  | pack => exact absurd rfl hi

theorem exec_keeps_profile {i : Instr} {s t : State} (h : exec i s = .next t) (hi : i ≠ .cfg) :
    t.profile = s.profile ∧ t.group = s.group ∧ t.pvalid = s.pvalid := by
  have keep {u : State} (hu : t = u) (hp : u.profile = s.profile ∧ u.group = s.group ∧ u.pvalid = s.pvalid) :
      t.profile = s.profile ∧ t.group = s.group ∧ t.pvalid = s.pvalid := hu ▸ hp
  cases i with
  | cfg => exact absurd rfl hi
  | enc => exact keep (exec_enc_frame h) ⟨rfl, rfl, rfl⟩
  | dec => exact keep (exec_dec_frame h) ⟨rfl, rfl, rfl⟩
  | encbuf | decbuf | pack | unpack => exact keep (transfer_frame h) ⟨rfl, rfl, rfl⟩

theorem exec_keeps_dout {i : Instr} {s t : State} (h : exec i s = .next t) (henc : i ≠ .enc) (hdec : i ≠ .dec) :
    t.dout = s.dout := by
  cases i with
  | cfg => exact (congrArg State.dout (exec_cfg_frame h) :)
  | enc => exact absurd rfl henc
  | dec => exact absurd rfl hdec
  | encbuf | decbuf | pack | unpack => exact (congrArg State.dout (transfer_frame h) :)

theorem exec_keeps_outlen_mem {i : Instr} {s t : State} (h : exec i s = .next t)
    (hi : i = .cfg ∨ i = .enc ∨ i = .dec) : t.outlen = s.outlen ∧ t.mem = s.mem := by
  rcases hi with rfl | rfl | rfl
  · exact ⟨(congrArg State.outlen (exec_cfg_frame h) :), (congrArg State.mem (exec_cfg_frame h) :)⟩
  · exact ⟨(congrArg State.outlen (exec_enc_frame h) :), (congrArg State.mem (exec_enc_frame h) :)⟩
  · exact ⟨(congrArg State.outlen (exec_dec_frame h) :), (congrArg State.mem (exec_dec_frame h) :)⟩

/-- A command that does not encode, and that no host write met, counts nothing. -/
theorem exec_keeps_counts {i : Instr} {s t : State} (h : exec i s = .next t) (henc : i ≠ .enc) (hencbuf : i ≠ .encbuf)
    (hclear : s.hazard = Hazard.clear) : t.satcnt = s.satcnt ∧ t.sat = s.sat := by
  have hcount : s.settledSatcnt 0 = s.satcnt := settledSatcnt_of_clear hclear 0
  cases i with
  | cfg =>
    rcases exec_cfg_cases h with rfl | rfl
    exacts [⟨rfl, rfl⟩, ⟨hcount, rfl⟩]
  | enc => exact absurd rfl henc
  | dec =>
    rcases exec_dec_cases h with rfl | rfl
    exacts [⟨rfl, rfl⟩, ⟨hcount, rfl⟩]
  | encbuf => exact absurd rfl hencbuf
  | decbuf => exact transfer_keeps_counts (decbufGroup_sats s) hclear h
  | pack => exact transfer_keeps_counts (packGroup_sats s) hclear h
  | unpack => exact transfer_keeps_counts (unpackGroup_sats s) hclear h

/-- Settles O37: the frame common to all commands, then each command's own. -/
theorem commandsLeaveTheOtherRegistersAlone : Obligations.CommandsLeaveTheOtherRegistersAlone := by
  intro s t i h
  have hframe := exec_frame h
  exact ⟨(congrArg State.params hframe :), (congrArg State.ieDone hframe :), (congrArg State.ieErr hframe :),
    (congrArg State.ovr hframe :), (congrArg State.profileCfg hframe :), (congrArg State.src hframe :),
    (congrArg State.dst hframe :), (congrArg State.count hframe :), (congrArg State.din hframe :),
    (congrArg State.cmd hframe :), (congrArg State.pending hframe :), (congrArg State.replies hframe :),
    (congrArg State.draws hframe :), exec_keeps_pad h, exec_keeps_profile h,
    exec_keeps_dout h, exec_keeps_outlen_mem h, exec_keeps_counts h⟩

/-! ### Memory -/

section TransferMemory

variable {s t : State} {sh : Shape} {body : Nat → Memory → GroupOut}

/-- A bus error leaves memory as the groups before it did, but for the failing group's own destination
(40_command_cycle.md R103). -/
theorem endBus_mem (hm : s.mem.wf = true) (hl : sh.Lawful) (hf : Fills sh body)
    (hfit : s.cmd.dst.toNat + 2 * sh.outcount ≤ 2 ^ 32) {jf : Nat} (hj : jf < sh.ng) :
    (s.endBus sh body jf).mem.wf = true
      ∧ ∀ a, a < s.cmd.dst.toNat + 2 * sh.out jf ∨ s.cmd.dst.toNat + 2 * sh.out (jf + 1) ≤ a →
        (s.endBus sh body jf).mem.readByte a
          = (runGroups s.cmd.dst.toNat sh.per body s.mem jf).mem.readByte a := by
  let garbage := freeHalves (Config.freeBusHalf s.draws) (sh.out (jf + 1) - sh.out jf)
  have hmem : (s.endBus sh body jf).mem = (runGroups s.cmd.dst.toNat sh.per body s.mem jf).mem.writeHalves
      (s.cmd.dst.toNat + 2 * sh.out jf) garbage := by rw [hl.out_eq hj]; rfl
  have hlen : garbage.length = sh.out (jf + 1) - sh.out jf := by simp [garbage, freeHalves]
  have hmono := sh.out_mono (show jf ≤ jf + 1 by omega)
  have hle := sh.out_le (jf + 1)
  have hwf := wf_runGroups hm hl hf hfit hj.le
  rw [hmem]
  exact ⟨Memory.wf_writeHalves hwf (by omega),
    fun a ha => Memory.readByte_writeHalves_outside hwf (by omega) (by omega)⟩

/-- A transfer whose launch checks pass keeps memory's canonical form and every byte outside its destination. -/
theorem transfer_mem {newPad : Word} (hm : s.mem.wf = true) (hl : sh.Lawful) (hf : Fills sh body)
    (hfit : s.cmd.dst.toNat + 2 * sh.outcount ≤ 2 ^ 32) (h : s.transfer none sh body newPad = .next t) :
    t.mem.wf = true
      ∧ ∀ a, a < s.cmd.dst.toNat ∨ s.cmd.dst.toNat + 2 * sh.outcount ≤ a → t.mem.readByte a = s.mem.readByte a := by
  have groups (j : Nat) (hj : j ≤ sh.ng) : (runGroups s.cmd.dst.toNat sh.per body s.mem j).mem.wf = true
      ∧ ∀ a, a < s.cmd.dst.toNat ∨ s.cmd.dst.toNat + 2 * sh.outcount ≤ a →
        (runGroups s.cmd.dst.toNat sh.per body s.mem j).mem.readByte a = s.mem.readByte a := by
    have hle := sh.out_le j
    exact ⟨wf_runGroups hm hl hf hfit hj, fun a ha => readByte_runGroups_outside hm hl hf hfit hj (by omega)⟩
  rcases transfer_cases h with ⟨e, he, -⟩ | ⟨-, rfl | ⟨-, js, hj, rfl⟩ | ⟨-, jf, hj, rfl⟩⟩
  · cases he
  · exact groups sh.ng le_rfl
  · exact groups js hj.le
  · obtain ⟨hwf, hsame⟩ := endBus_mem hm hl hf hfit hj
    have hle := sh.out_le (jf + 1)
    exact ⟨hwf, fun a ha => (hsame a (by omega)).trans ((groups jf hj.le).2 a ha)⟩

end TransferMemory

/-- Every command keeps memory's canonical form, and every byte outside the destination of a transfer whose launch
checks pass (20_memory.md R58). -/
theorem exec_mem {i : Instr} {s t : State} (hm : s.mem.wf = true) (h : exec i s = .next t) :
    t.mem.wf = true
      ∧ ∀ a, (∀ sh, shapeOf i s = some sh → bufferCheckOf i s = none →
            a < s.cmd.dst.toNat ∨ s.cmd.dst.toNat + 2 * sh.outcount ≤ a) →
          t.mem.readByte a = s.mem.readByte a := by
  cases hsh : shapeOf i s with
  | none =>
    obtain ⟨-, hmem⟩ := exec_keeps_outlen_mem h ((shapeOf_eq_none_iff i s).mp hsh)
    rw [hmem]
    exact ⟨hm, fun _ _ => rfl⟩
  | some sh =>
    rw [exec_eq_transfer hsh] at h
    cases hcheck : bufferCheckOf i s with
    | some e =>
      rw [hcheck] at h
      cases h
      exact ⟨hm, fun _ _ => rfl⟩
    | none =>
      obtain ⟨hl, hf, hfit⟩ := groupOf_lawful hsh hcheck
      rw [hcheck] at h
      obtain ⟨hwf, hsame⟩ := transfer_mem hm hl hf hfit h
      exact ⟨hwf, fun a ha => hsame a (ha sh rfl rfl)⟩

/-- Settles O36: the frame of memory in every outcome. -/
theorem commandsWriteOnlyTheirDestination : Obligations.CommandsWriteOnlyTheirDestination := by
  intro s t i a hm h houtside
  exact (exec_mem hm h).2 a houtside

/-! ### Operands: only the latched ones count (40_command_cycle.md R91) -/

/-- Other values in SRC, DST, COUNT, PAD, DIN and PROFILE_CFG. -/
def State.withOperands (s : State) (src dst count pad : Word) (din : Half) (cfg : ProfileCfg) : State :=
  { s with src := src, dst := dst, count := count, pad := pad, din := din, profileCfg := cfg }

section Operands

variable {s t : State} {check : Option ErrCode} {sh : Shape} {body : Nat → Memory → GroupOut}
  (src dst count pad : Word) (din : Half) (cfg : ProfileCfg)

theorem ending_withOperands (ng : Nat) : (s.withOperands src dst count pad din cfg).ending ng = s.ending ng := rfl

/-- A transfer that leaves PAD as it stands reads no operand register. -/
theorem transfer_withOperands (h : s.transfer check sh body s.pad = .next t) :
    (s.withOperands src dst count pad din cfg).transfer check sh body pad
      = .next (t.withOperands src dst count pad din cfg) := by
  cases check with
  | some e => cases h; rfl
  | none =>
    unfold State.transfer at h ⊢
    simp only [ending_withOperands]
    cases hs : s.ending sh.ng <;> rw [hs] at h <;> cases h <;> rfl

/-- Whatever a transfer leaves in PAD, it reads none of the other operand registers. -/
theorem transfer_withOperands_of_pad {newPad : Word} (h : s.transfer check sh body newPad = .next t) :
    (s.withOperands src dst count s.pad din cfg).transfer check sh body newPad
      = .next (t.withOperands src dst count t.pad din cfg) := by
  cases check with
  | some e => cases h; rfl
  | none =>
    unfold State.transfer at h ⊢
    simp only [ending_withOperands]
    cases hs : s.ending sh.ng <;> rw [hs] at h <;> cases h <;> rfl

theorem exec_withOperands {i : Instr} (h : exec i s = .next t) (hi : i ≠ .pack) :
    exec i (s.withOperands src dst count pad din cfg) = .next (t.withOperands src dst count pad din cfg) := by
  cases i with
  | cfg =>
    cases hvalid : validProfile s.params.rangeCheck s.cmd.cfg.outbit.toNat s.cmd.cfg.mant.toNat
      s.cmd.cfg.quant.toNat with
    | true => cases (exec_cfg_of_valid hvalid).symm.trans h; exact exec_cfg_of_valid hvalid
    | false => cases (exec_cfg_of_invalid hvalid).symm.trans h; exact exec_cfg_of_invalid hvalid
  | enc =>
    cases hvalid : s.pvalid with
    | true => cases (exec_enc_of_profile hvalid).symm.trans h; exact exec_enc_of_profile hvalid
    | false => cases (exec_enc_of_no_profile hvalid).symm.trans h; exact exec_enc_of_no_profile hvalid
  | dec =>
    cases hvalid : s.pvalid with
    | true => cases (exec_dec_of_profile hvalid).symm.trans h; exact exec_dec_of_profile hvalid
    | false => cases (exec_dec_of_no_profile hvalid).symm.trans h; exact exec_dec_of_no_profile hvalid
  | encbuf | decbuf | unpack => exact transfer_withOperands src dst count pad din cfg h
  | pack => exact absurd rfl hi

end Operands

/-- Settles O38: the replaced registers go through every command unread; PACK alone writes one of them, PAD. -/
theorem commandsReadOnlyLatchedOperands : Obligations.CommandsReadOnlyLatchedOperands := by
  intro s t i src dst count pad din cfg h
  refine ⟨?_, fun hi => exec_withOperands src dst count pad din cfg h hi⟩
  by_cases hi : i = .pack
  · subst hi
    exact transfer_withOperands_of_pad src dst count din cfg h
  · have hoperands := exec_withOperands src dst count s.pad din cfg h hi
    rw [← exec_keeps_pad h hi] at hoperands
    rwa [show s.withOperands src dst count t.pad din cfg
      = { s with src := src, dst := dst, count := count, din := din, profileCfg := cfg } by
        rw [exec_keeps_pad h hi]; rfl] at hoperands

end Sys2Proof.Machine
end

section
/-! ## Profiles, and the launch checks (41_profile.md, 60_exceptions.md R212) -/

namespace Sys2Proof.Machine

/-! ### The alignment group (41_profile.md R126) -/

/-- 16 * k is a multiple of outbit exactly when k is one of outbit / gcd(16, outbit). -/
theorem mul_mod_eq_zero_iff {outbit : Nat} (h : 1 ≤ outbit) (k : Nat) :
    16 * k % outbit = 0 ↔ outbit / Nat.gcd 16 outbit ∣ k := by
  have hgcd : 0 < Nat.gcd 16 outbit := Nat.gcd_pos_of_pos_right 16 h
  have hcoprime : Nat.Coprime (outbit / Nat.gcd 16 outbit) (16 / Nat.gcd 16 outbit) :=
    (Nat.coprime_div_gcd_div_gcd hgcd).symm
  calc 16 * k % outbit = 0 ↔ outbit ∣ 16 * k := (Nat.dvd_iff_mod_eq_zero ..).symm
    _ ↔ Nat.gcd 16 outbit * (outbit / Nat.gcd 16 outbit)
          ∣ Nat.gcd 16 outbit * (16 / Nat.gcd 16 outbit * k) := by
        rw [← Nat.mul_assoc, Nat.mul_div_cancel' (Nat.gcd_dvd_right ..), Nat.mul_div_cancel' (Nat.gcd_dvd_left ..)]
    _ ↔ outbit / Nat.gcd 16 outbit ∣ 16 / Nat.gcd 16 outbit * k := Nat.mul_dvd_mul_iff_left hgcd
    _ ↔ outbit / Nat.gcd 16 outbit ∣ k := hcoprime.dvd_mul_left

theorem inputUnits_eq {outbit : Nat} (h : 1 ≤ outbit) : inputUnits outbit = outbit / Nat.gcd 16 outbit := by
  obtain ⟨hpos, -, hmultiple, hleast⟩ := inputUnits_spec h
  have hgcd : 1 ≤ outbit / Nat.gcd 16 outbit := Nat.div_pos (Nat.gcd_le_right 16 h) (Nat.gcd_pos_of_pos_right 16 h)
  have hle : outbit / Nat.gcd 16 outbit ≤ inputUnits outbit :=
    Nat.le_of_dvd hpos ((mul_mod_eq_zero_iff h _).mp hmultiple)
  have hnotlt : ¬ outbit / Nat.gcd 16 outbit < inputUnits outbit := fun hlt =>
    hleast _ hgcd hlt ((mul_mod_eq_zero_iff h _).mpr dvd_rfl)
  omega

theorem outputSamples_eq {outbit : Nat} (h : 1 ≤ outbit) : outputSamples outbit = 16 / Nat.gcd 16 outbit := by
  refine Nat.eq_of_mul_eq_mul_right h ?_
  rw [outputSamples_mul h, inputUnits_eq h, ← Nat.mul_div_assoc _ (Nat.gcd_dvd_right ..),
    Nat.div_mul_right_comm (Nat.gcd_dvd_left ..)]

/-- Settles O8: the least multiple is the closed form, and the table evaluates. -/
theorem alignmentGroupIsTheSmallest : Obligations.AlignmentGroupIsTheSmallest := by
  refine ⟨fun outbit h => ?_, by decide, by decide⟩
  obtain ⟨hpos, hle, hmultiple, hleast⟩ := inputUnits_spec h
  exact ⟨hpos, hle, hmultiple, hleast, by rw [outputSamples_mul h, Nat.mul_comm], inputUnits_eq h, outputSamples_eq h⟩

/-! ### Validity (41_profile.md R121, R124) -/

theorem isLeast_ceilDiv {a q : Nat} (hq : 1 ≤ q) : IsLeast {c | a ≤ c * q} (ceilDiv a q) :=
  ⟨le_ceilDiv_mul a hq, fun c hc => (ceilDiv_le_iff hq c).mpr hc⟩

/-- The margin check in the words of R124: the field holds the largest stored margin. -/
theorem rangeOk_iff {rangeCheck : Bool} {outbit M Q : Nat} (hQ : 1 ≤ Q) :
    rangeOk rangeCheck outbit M Q = true ↔
      (rangeCheck = true → ∀ x, IsLeast (fun c => 15 - M ≤ c * Q) x → Nat.clog 2 (x + 1) ≤ outbit - 1 - M) := by
  have hleast : IsLeast (fun c => 15 - M ≤ c * Q) (maxStorableMargin M Q) := isLeast_ceilDiv hQ
  have hfield : maxStorableMargin M Q ≤ 2 ^ (outbit - 1 - M) - 1
      ↔ Nat.clog 2 (maxStorableMargin M Q + 1) ≤ outbit - 1 - M := by
    rw [Nat.clog_le_iff_le_pow (by omega)]
    have := Nat.two_pow_pos (outbit - 1 - M)
    omega
  simp only [rangeOk, Bool.or_eq_true, decide_eq_true_eq, Bool.not_eq_true', hfield]
  constructor
  · rintro (h | h) hcheck x hx
    · exact hx.unique hleast ▸ h
    · exact absurd hcheck (by simp [h])
  · intro h
    cases rangeCheck with
    | false => exact .inr rfl
    | true => exact .inl (h rfl _ hleast)

/-- Settles O9: the ranges, and the margin check of R124. -/
theorem validProfileIsTheRangesAndTheMarginCheck : Obligations.ValidProfileIsTheRangesAndTheMarginCheck := by
  intro rangeCheck outbit M Q
  rw [validProfile_iff]
  exact and_congr_right fun _ => and_congr_right fun _ => and_congr_right fun _ => and_congr_right rangeOk_iff

/-! ### CFG (41_profile.md R127, R128) -/

/-- Settles O10: the group that CFG commits, in its closed form. -/
theorem cfgCommitsAValidProfile : Obligations.CfgCommitsAValidProfile := by
  intro s hvalid
  have houtbit : 1 ≤ s.cmd.cfg.outbit.toNat := Nat.le_of_succ_le (validProfile_iff.mp hvalid).1
  rw [exec_cfg_of_valid hvalid, ← inputUnits_eq houtbit, ← outputSamples_eq houtbit]
  rfl

/-- Settles O11: a failing CFG is an error at a launch check of the state without a profile. -/
theorem cfgRejectsAnInvalidProfile : Obligations.CfgRejectsAnInvalidProfile := by
  intro s hclear hinvalid
  have hclear' : s.clearProfile.hazard = Hazard.clear := hclear
  rw [exec_cfg_of_invalid hinvalid, raise_of_clear hclear']
  rfl

/-! ### The launch checks of the buffer commands -/

/-- A launch check that fails is reported with OUTLEN 0, and nothing else changes (40_command_cycle.md R95). -/
theorem exec_of_check {i : Instr} {s : State} {sh : Shape} {e : ErrCode} (hsh : shapeOf i s = some sh)
    (hclear : s.hazard = Hazard.clear) (hcheck : bufferCheckOf i s = some e) :
    exec i s = .next ({ s with outlen := 0 }.completed e.code) := by
  rw [exec_eq_transfer hsh, hcheck]
  exact congrArg Host.Outcome.next (raiseBuffer_of_clear hclear e)

theorem bufferCheckOf_of_no_profile {i : Instr} {s : State} {sh : Shape} (hsh : shapeOf i s = some sh)
    (hprofile : s.pvalid = false) : bufferCheckOf i s = some .noprofile := by
  cases i with
  | cfg | enc | dec => cases hsh
  | encbuf | decbuf | pack | unpack => exact (bufferCheck_first s _ _ _).1 hprofile

/-- Settles O23: NOPROFILE is the first check of every command but CFG. -/
theorem dataCommandsNeedAProfile : Obligations.DataCommandsNeedAProfile := by
  intro s i hi hprofile hclear
  cases hsh : shapeOf i s with
  | some sh =>
    have hplain : ¬ (i = .enc ∨ i = .dec) := fun h => by
      rw [(shapeOf_eq_none_iff i s).mpr (.inr h)] at hsh
      cases hsh
    rw [if_neg hplain]
    exact exec_of_check hsh hclear (bufferCheckOf_of_no_profile hsh hprofile)
  | none =>
    rcases (shapeOf_eq_none_iff i s).mp hsh with rfl | rfl | rfl
    · exact absurd rfl hi
    · exact (exec_enc_of_no_profile hprofile).trans (congrArg _ (raise_of_clear hclear _))
    · exact (exec_dec_of_no_profile hprofile).trans (congrArg _ (raise_of_clear hclear _))

/-- Settles O30: `bufferCheck_first` with no STREAM check and with in-place allowed. -/
theorem elementCommandsReportTheFirstFault : Obligations.ElementCommandsReportTheFirstFault := by
  intro s i reports hi hclear hreports
  have check {e : ErrCode} (h : elementCheck s = some e) : reports e.code := by
    rw [hreports]
    rcases hi with rfl | rfl
    · exact exec_of_check rfl hclear h
    · exact exec_of_check rfl hclear h
  obtain ⟨hprofile, halign, -, hrange, hoverlap⟩ := bufferCheck_first s (elementShape s) false true
  exact ⟨fun h => check (hprofile h), fun h h' => check (halign h h'),
    fun h h' hfit => check (hrange h h' rfl hfit),
    fun h h' hfit hapart hplace => check (hoverlap h h' rfl hfit hapart fun _ => hplace)⟩

/-- Settles O31: `bufferCheck_first` with no STREAM check and no in-place. -/
theorem packReportsTheFirstFault : Obligations.PackReportsTheFirstFault := by
  rintro s u reports rfl hclear hreports
  have check {e : ErrCode} (h : packCheck s = some e) : reports e.code :=
    (hreports _).mpr (exec_of_check rfl hclear h)
  obtain ⟨hprofile, halign, -, hrange, hoverlap⟩ := bufferCheck_first s (packShape s) false false
  exact ⟨fun h => check (hprofile h), fun h h' => check (halign h h'),
    fun h h' hfit => check (hrange h h' rfl hfit),
    fun h h' hfit hapart => check (hoverlap h h' rfl hfit hapart nofun)⟩

/-- Settles O32: `bufferCheck_first` with the STREAM check and no in-place. -/
theorem unpackReportsTheFirstFault : Obligations.UnpackReportsTheFirstFault := by
  rintro s n reports rfl hclear hreports
  have check {e : ErrCode} (h : unpackCheck s = some e) : reports e.code :=
    (hreports _).mpr (exec_of_check rfl hclear h)
  have hstream := streamBad_eq_false_iff s
  obtain ⟨hprofile, halign, hbad, hrange, hoverlap⟩ :=
    bufferCheck_first s (unpackShape s) (streamBad s.active s.cmd.count.toNat s.cmd.pad.toNat) false
  exact ⟨fun h => check (hprofile h), fun h h' => check (halign h h'),
    fun h h' hs => check (hbad h h' (Bool.not_eq_false _ ▸ fun hf => hs (hstream.mp hf))),
    fun h h' hs hfit => check (hrange h h' (hstream.mpr hs) hfit),
    fun h h' hs hfit hapart => check (hoverlap h h' (hstream.mpr hs) hfit hapart nofun)⟩

/-! ### ENC and DEC (42_codec.md R150, R151) -/

/-- Settles O21: ENC counts 0 or 1 SaturationEvents. -/
theorem encEncodesOneSample : Obligations.EncEncodesOneSample := by
  rintro s r hprofile hclear rfl
  rw [exec_enc_of_profile hprofile, State.encoded, settledSatcnt_of_clear hclear, settledSat_of_clear hclear,
    Encoded.sats]
  cases (encodeSample s.active s.cmd.din).satev with
  | false => rfl
  | true => rfl

theorem usedWord_eq (p : ActiveProfile) (v : Half) : usedWord p v = v.toNat % 2 ^ p.outbit := by
  rw [usedWord, bitField_eq, Nat.pow_zero, Nat.div_one]

/-- Settles O20: DEC uses DIN only through `usedWord`. -/
theorem decIgnoresBitsAboveOutbit : Obligations.DecIgnoresBitsAboveOutbit := by
  intro s t d hprofile hbits h
  cases (exec_dec_of_profile hprofile).symm.trans h
  have hused : usedWord s.active d = usedWord s.active s.cmd.din := by rw [usedWord_eq, usedWord_eq, hbits]
  have hprofile' : State.pvalid { s with cmd := { s.cmd with din := d } } = true := hprofile
  rw [exec_dec_of_profile hprofile', State.decoded, State.decoded, ← hused]
  rfl

end Sys2Proof.Machine
end

section
/-! ## The step of the machine: the engine's step, the invariant, and what only some steps change -/

namespace Sys2Proof.Machine

/-! ### The engine's step (40_command_cycle.md R92, R94) -/

theorem engineStep_of_decode {s : State} {i : Instr} (h : decode s.cmd.word = .ok i) : engineStep s = exec i s := by
  rw [engineStep, h]

theorem engineStep_of_illegal {s : State} {e : DecodeError} (h : decode s.cmd.word = .error e) :
    engineStep s = .next (s.raiseBuffer .illegal) := by
  rw [engineStep, h]
  rfl

/-- Settles O4: the engine's step is `engineStep` of the latched word, and while Idle there is none. -/
theorem stepRunsTheLatchedCommand : Obligations.StepRunsTheLatchedCommand := by
  refine ⟨fun s i hnext hdecode => ?_, fun s hidle => ⟨fun hp => step_of_idle hp hidle, fun rest hp => ?_⟩⟩
  · rw [step_of_engineNext hnext]
    exact engineStep_of_decode hdecode
  · have hidle' : s.stepped.phase = .idle := hidle
    rw [step_of_event hp, stepEvent, engineTurn, hidle']

/-- A table word that decodes is a command word (30_encoding.md R70). -/
theorem decode_of_decodeTableWord {nbits w : Nat} {i : Instr} (h : decodeTableWord nbits w = some i) :
    decode (BitVec.ofNat 32 (w % 2 ^ nbits)) = .ok i := by
  unfold decodeTableWord at h
  dsimp only at h
  split at h
  · split at h
    · cases h; assumption
    · cases h
  · cases h

/-- Settles O5: the placed word is launched, and the engine's turn stands before every pending event. -/
theorem placedWordRunsNext : Obligations.PlacedWordRunsNext := by
  intro s nbits w i h
  have hnext : (s.withFetchWord nbits w).engineNext := ⟨rfl, .inr ⟨s.pending, rfl⟩⟩
  rw [step_of_engineNext hnext]
  exact engineStep_of_decode (decode_of_decodeTableWord h)

/-- Settles O6: the illegal word is an error of a buffer command. -/
theorem illegalWordCompletesWithIllegal : Obligations.IllegalWordCompletesWithIllegal := by
  rintro s hnext ⟨e, herror⟩ hclear
  have hclear' : s.stepped.hazard = Hazard.clear := hclear
  have herror' : decode s.stepped.cmd.word = .error e := herror
  rw [step_of_engineNext hnext, engineStep_of_illegal herror', raiseBuffer_of_clear hclear']
  rfl

/-! ### The parameters (00_scope.md R9) -/

theorem State.writeReg_params (s : State) (r : Reg) (v : Word) : (s.writeReg r v).params = s.params := by
  cases r with
  | ctrl =>
    rw [State.writeReg, State.writeCtrl]
    split <;> rfl
  | cmd =>
    rw [State.writeReg, State.writeCmd]
    split <;> rfl
  | _ => rfl

theorem State.regAccess_params {s t : State} {a : RegAccess} (h : s.regAccess a = .next t) : t.params = s.params := by
  cases a with
  | read width addr =>
    obtain ⟨r, -, rfl⟩ := regAccess_read h
    rfl
  | write width addr v =>
    obtain ⟨r, -, rfl⟩ := regAccess_write h
    exact s.writeReg_params r v

theorem engineStep_params {s t : State} (h : engineStep s = .next t) : t.params = s.params := by
  rcases engineStep_cases s with ⟨i, -, hexec⟩ | ⟨-, hillegal⟩
  · exact (congrArg State.params (exec_frame (hexec ▸ h)) :)
  · cases hillegal.symm.trans h
    rfl

theorem engineTurn_cases {s t : State} (h : engineTurn s = .next t) :
    (s.phase = .busy ∧ engineStep s = .next t) ∨ (s.phase = .idle ∧ t = s) := by
  cases hphase : s.phase with
  | busy => exact .inl ⟨rfl, by rwa [engineTurn, hphase] at h⟩
  | idle =>
    rw [engineTurn, hphase] at h
    cases h
    exact .inr ⟨rfl, rfl⟩

theorem stepEvent_params {s t : State} {e : Event} (h : stepEvent e s = .next t) : t.params = s.params := by
  cases e with
  | reg a => exact State.regAccess_params h
  | mem a => rcases memAccess_cases h with ⟨_, rfl⟩ | ⟨_, _, _, rfl⟩ | ⟨_, _, _, rfl⟩ <;> rfl
  | engineTurn =>
    rcases engineTurn_cases h with ⟨-, hengine⟩ | ⟨-, rfl⟩
    · exact engineStep_params hengine
    · rfl
  | reset =>
    cases h
    rfl
  | resetDuring a =>
    obtain ⟨u, hu, rfl | rfl⟩ := resetDuring_cases h
    · exact (u.resetEffect_params).trans (State.regAccess_params hu)
    · rfl

/-- Settles O58: no event and no command writes the parameters. -/
theorem stepNeverChangesTheParameters : Obligations.StepNeverChangesTheParameters := by
  intro s t h
  rcases step_cases h with ⟨e, rest, -, hevent⟩ | ⟨-, -, hengine⟩ | ⟨-, -, rfl⟩
  · exact stepEvent_params (s := s.stepped) hevent
  · exact engineStep_params (s := s.stepped) hengine
  · rfl

/-! ### The invariant -/

/-- The part of the invariant about PROFILE, GROUP and PVALID (10_state.md R26, R29, R30). -/
structure State.ProfileInv (s : State) : Prop where
  valid : s.pvalid = true →
    validProfile s.params.rangeCheck s.active.outbit s.active.M s.active.Q = true ∧ s.active.Legal ∧ s.active.Grouped
  clear : s.pvalid = false → s.profile = ⟨0, 0, 0, 0⟩ ∧ s.group = ⟨0, 0⟩

theorem State.Inv.profileInv {s : State} (h : s.Inv) : s.ProfileInv := ⟨h.profile_valid, h.profile_clear⟩

theorem State.ProfileInv.congr {s t : State} (h : s.ProfileInv) (hparams : t.params = s.params)
    (hprofile : t.profile = s.profile ∧ t.group = s.group ∧ t.pvalid = s.pvalid) : t.ProfileInv := by
  obtain ⟨hp, hg, hv⟩ := hprofile
  have hactive : t.active = s.active := by rw [State.active, State.active, hp, hg]
  exact ⟨fun ht => by rw [hactive, hparams]; exact h.valid (hv ▸ ht), fun ht => by rw [hp, hg]; exact h.clear (hv ▸ ht)⟩

theorem ErrCode.code_eq_bus_iff (e : ErrCode) : e.code = ErrCode.bus.code ↔ e = .bus := by
  cases e <;> decide

/-- An Idle state has no running command to keep anything of. -/
theorem State.Inv.of_idle {t : State} (hmem : t.mem.wf = true) (hprofile : t.ProfileInv) (hidle : t.phase = .idle)
    (habort : t.abortReq = false) (hhazard : t.hazard = Hazard.clear)
    (herr : ∃ e : ErrCode, t.err = e.code ∧ (e = .bus → t.params.memErrors = true)) : t.Inv := by
  obtain ⟨e, he, hbus⟩ := herr
  exact {
    mem_wf := hmem
    profile_valid := hprofile.valid
    profile_clear := hprofile.clear
    busy_quiet := fun h => by rw [hidle] at h; cases h
    idle_quiet := fun _ => ⟨habort, hhazard⟩
    abort_buffer := fun h => by rw [habort] at h; cases h
    err_code := ⟨e, he⟩
    bus_allowed := fun h => hbus (e.code_eq_bus_iff.mp (he ▸ h))
    hazard_pad := fun h => by rw [hhazard] at h; cases h
    hazard_sat := fun h => by rw [hhazard] at h; cases h
    hazard_satcnt := fun h => by rw [hhazard] at h; cases h }

section Keeps

variable {s t : State}

theorem State.Inv.stepped (h : s.Inv) : s.stepped.Inv := { h with }

theorem State.Inv.replied (h : s.Inv) (r : Reply) : State.Inv { s with replies := r :: s.replies } := { h with }

theorem State.Inv.stored (h : s.Inv) {m : Memory} (hm : m.wf = true) : State.Inv { s with mem := m } :=
  { h with mem_wf := hm }

/-- A launch starts quiet (40_command_cycle.md R90). -/
theorem State.Inv.launch (h : s.Inv) (w : Word) : (s.launch w).Inv :=
  { h with
    busy_quiet := fun _ => ⟨rfl, rfl⟩
    idle_quiet := nofun
    abort_buffer := nofun
    err_code := ⟨.none, rfl⟩
    bus_allowed := nofun
    hazard_pad := nofun
    hazard_sat := nofun
    hazard_satcnt := nofun }

/-- A reset leaves no profile, no error, and memory in canonical form (40_command_cycle.md R104). -/
theorem State.Inv.resetEffect (h : s.Inv) : s.resetEffect.Inv :=
  .of_idle (memAfterReset_spec h.mem_wf).1 ⟨nofun, fun _ => ⟨rfl, rfl⟩⟩ rfl rfl rfl ⟨.none, rfl, nofun⟩

theorem State.bufferRuns_of_idle (hidle : s.phase = .idle) : s.bufferRuns = false := by
  rw [State.bufferRuns, State.busy, hidle]
  rfl

theorem State.packRuns_of_idle (hidle : s.phase = .idle) : s.packRuns = false := by
  rw [State.packRuns, State.busy, hidle]
  rfl

/-- A write to PAD is recorded as a hazard only where it meets a running PACK (70_reset_and_hazards.md R246). -/
theorem State.writePad_hazard {v : Word} (h : s.packRuns = false) : (s.writePad v).hazard = s.hazard := by
  simp only [State.writePad, h, Bool.or_false]

theorem State.Inv.writeCtrl (h : s.Inv) (v : Word) : (s.writeCtrl v).Inv := by
  cases hbit : v.getLsbD 0 with
  | true =>
    rw [State.writeCtrl, if_pos hbit]
    exact h.resetEffect
  | false =>
    rw [State.writeCtrl_of_no_reset hbit]
    exact { h with
      idle_quiet := fun (hidle : s.phase = .idle) => by
        obtain ⟨habort, hhazard⟩ := h.idle_quiet hidle
        exact ⟨by simp [habort, State.bufferRuns_of_idle hidle], hhazard⟩
      abort_buffer := fun habort => by
        rcases Bool.or_eq_true _ _ ▸ habort with habort | habort
        · exact h.abort_buffer habort
        · exact (Bool.and_eq_true _ _ ▸ habort).2 }

theorem State.Inv.writeStatus (h : s.Inv) (v : Word) : (s.writeStatus v).Inv :=
  { h with
    busy_quiet := fun hbusy => by
      obtain ⟨hdone, herr⟩ := h.busy_quiet hbusy
      exact ⟨by simp only [State.writeStatus, hdone, Bool.false_and], herr⟩
    idle_quiet := fun (hidle : s.phase = .idle) => by
      obtain ⟨habort, hhazard⟩ := h.idle_quiet hidle
      exact ⟨habort, (State.writeStatus_hazard (.inr hidle)).trans hhazard⟩
    hazard_sat := fun hcleared => by
      rcases Bool.or_eq_true _ _ ▸ hcleared with hcleared | hcleared
      · exact h.hazard_sat hcleared
      · exact (Bool.and_eq_true _ _ ▸ hcleared).2 }

theorem State.Inv.writeCmd (h : s.Inv) (v : Word) : (s.writeCmd v).Inv := by
  cases hphase : s.phase with
  | idle =>
    rw [State.writeCmd_of_idle hphase]
    exact h.launch v
  | busy =>
    rw [State.writeCmd_of_busy hphase]
    exact { h with }

theorem State.Inv.writePad (h : s.Inv) (v : Word) : (s.writePad v).Inv :=
  { h with
    idle_quiet := fun (hidle : s.phase = .idle) => by
      obtain ⟨habort, hhazard⟩ := h.idle_quiet hidle
      exact ⟨habort, (State.writePad_hazard (State.packRuns_of_idle hidle)).trans hhazard⟩
    hazard_pad := fun hwritten => by
      rcases Bool.or_eq_true _ _ ▸ hwritten with hwritten | hwritten
      · exact h.hazard_pad hwritten
      · exact hwritten }

theorem State.Inv.writeSatcnt (h : s.Inv) : s.writeSatcnt.Inv :=
  { h with
    idle_quiet := fun (hidle : s.phase = .idle) => by
      obtain ⟨habort, hhazard⟩ := h.idle_quiet hidle
      exact ⟨habort, (State.writeSatcnt_hazard_of_idle hidle).trans hhazard⟩
    hazard_satcnt := fun hsome => by
      by_contra hnot
      have hbefore : s.hazard.satcntBefore = none :=
        Option.not_isSome_iff_eq_none.mp fun hs => hnot (h.hazard_satcnt hs)
      have hcounts : s.countsSats = false := Bool.not_eq_true _ ▸ hnot
      simp [State.writeSatcnt, hbefore, hcounts] at hsome }

theorem State.Inv.writeReg (h : s.Inv) (r : Reg) (v : Word) : (s.writeReg r v).Inv := by
  cases r with
  | id | param | profile | group | outlen | dout => exact h
  | ctrl => exact h.writeCtrl v
  | status => exact h.writeStatus v
  | cmd => exact h.writeCmd v
  | profileCfg | src | dst | count | din => exact { h with }
  | pad => exact h.writePad v
  | satcnt => exact h.writeSatcnt

theorem State.Inv.regAccess (h : s.Inv) {a : RegAccess} (ha : s.regAccess a = .next t) : t.Inv := by
  cases a with
  | read width addr =>
    obtain ⟨r, -, rfl⟩ := regAccess_read ha
    exact h.replied _
  | write width addr v =>
    obtain ⟨r, -, rfl⟩ := regAccess_write ha
    exact h.writeReg r v

/-- A host write that goes on lies in memory (10_state.md R45). -/
theorem le_of_hostWriteFault {addr len : Nat} (h : s.hostWriteFault addr len = none) : addr + len ≤ 2 ^ 32 := by
  by_contra hout
  rw [State.hostWriteFault, if_pos (by omega)] at h
  cases h

theorem State.Inv.memAccess (h : s.Inv) {a : MemAccess} (ha : s.memAccess a = .next t) : t.Inv := by
  rcases memAccess_cases ha with ⟨r, rfl⟩ | ⟨x, v, hfault, rfl⟩ | ⟨x, v, hfault, rfl⟩
  · exact h.replied r
  · exact h.stored (Memory.wf_writeByte h.mem_wf (le_of_hostWriteFault hfault) v)
  · exact h.stored (Memory.wf_writeHalf h.mem_wf (le_of_hostWriteFault hfault) v)

/-- CFG leaves a legal profile with its group, or none (41_profile.md R127, R128). -/
theorem exec_cfg_profileInv (h : exec .cfg s = .next t) : t.ProfileInv := by
  cases hvalid : validProfile s.params.rangeCheck s.cmd.cfg.outbit.toNat s.cmd.cfg.mant.toNat s.cmd.cfg.quant.toNat with
  | true =>
    cases (exec_cfg_of_valid hvalid).symm.trans h
    exact ⟨fun _ => ⟨hvalid, commitProfile_legal s hvalid⟩, nofun⟩
  | false =>
    cases (exec_cfg_of_invalid hvalid).symm.trans h
    exact ⟨nofun, fun _ => ⟨rfl, rfl⟩⟩

theorem State.Inv.exec (h : s.Inv) {i : Instr} (ht : exec i s = .next t) : t.Inv := by
  have hframe := exec_frame ht
  have hparams : t.params = s.params := (congrArg State.params hframe :)
  have hprofile : t.ProfileInv := by
    by_cases hi : i = .cfg
    · subst hi
      exact exec_cfg_profileInv ht
    · exact h.profileInv.congr hparams (exec_keeps_profile ht hi)
  obtain ⟨e, he, hbus⟩ := exec_err ht
  exact .of_idle (exec_mem h.mem_wf ht).1 hprofile (congrArg State.phase hframe :) (congrArg State.abortReq hframe :)
    (congrArg State.hazard hframe :) ⟨e, he, hparams ▸ hbus⟩

theorem State.Inv.engineStep (h : s.Inv) (ht : engineStep s = .next t) : t.Inv := by
  rcases engineStep_cases s with ⟨i, -, hexec⟩ | ⟨-, hillegal⟩
  · exact h.exec (hexec ▸ ht)
  · cases hillegal.symm.trans ht
    exact .of_idle h.mem_wf (h.profileInv.congr rfl ⟨rfl, rfl, rfl⟩) rfl rfl rfl ⟨.illegal, rfl, nofun⟩

theorem State.Inv.stepEvent (h : s.Inv) {e : Event} (ht : stepEvent e s = .next t) : t.Inv := by
  cases e with
  | reg a => exact h.regAccess ht
  | mem a => exact h.memAccess ht
  | engineTurn =>
    rcases engineTurn_cases ht with ⟨-, hengine⟩ | ⟨-, rfl⟩
    · exact h.engineStep hengine
    · exact h
  | reset =>
    cases ht
    exact h.resetEffect
  | resetDuring a =>
    obtain ⟨u, hu, rfl | rfl⟩ := resetDuring_cases ht
    · exact (h.regAccess hu).resetEffect
    · exact h.resetEffect

end Keeps

/-- Settles O57: each event and the engine's step keep the invariant. -/
theorem stepKeepsTheInvariant : Obligations.StepKeepsTheInvariant := by
  intro s t h ht
  rcases step_cases ht with ⟨e, rest, -, hevent⟩ | ⟨-, -, hengine⟩ | ⟨-, -, rfl⟩
  · exact h.stepped.stepEvent hevent
  · exact h.stepped.engineStep hengine
  · exact h

/-- Settles O56: the reset state is Idle, without a profile and without an error. -/
theorem resetStateMeetsTheInvariant : Obligations.ResetStateMeetsTheInvariant :=
  .of_idle rfl ⟨nofun, fun _ => ⟨rfl, rfl⟩⟩ rfl rfl rfl ⟨.none, rfl, nofun⟩

/-- Settles O55: the fields of the reset state, each by evaluation. -/
theorem resetStateIsR47 : Obligations.ResetStateIsR47 :=
  ⟨rfl, rfl, rfl, rfl, rfl, rfl, rfl, rfl, rfl, rfl, rfl, rfl, rfl, rfl, rfl, rfl, rfl, rfl, rfl, rfl, rfl⟩

/-! ### The profile between CFG and reset (41_profile.md R127) -/

/-- A register write that does not reset leaves the profile. -/
theorem State.writeReg_keeps_profile {s : State} {r : Reg} {v : Word} (hreset : ¬ (r = .ctrl ∧ v.getLsbD 0 = true)) :
    (s.writeReg r v).profile = s.profile ∧ (s.writeReg r v).group = s.group ∧ (s.writeReg r v).pvalid = s.pvalid := by
  cases r with
  | ctrl =>
    rw [State.writeReg, State.writeCtrl, if_neg fun h => hreset ⟨rfl, h⟩]
    exact ⟨rfl, rfl, rfl⟩
  | cmd =>
    rw [State.writeReg, State.writeCmd]
    split <;> exact ⟨rfl, rfl, rfl⟩
  | _ => exact ⟨rfl, rfl, rfl⟩

theorem engineStep_keeps_profile {s t : State} (h : engineStep s = .next t) (hrun : s.running ≠ some .cfg) :
    t.profile = s.profile ∧ t.group = s.group ∧ t.pvalid = s.pvalid := by
  rcases engineStep_cases s with ⟨i, hi, hexec⟩ | ⟨-, hillegal⟩
  · exact exec_keeps_profile (hexec ▸ h) fun hcfg => hrun (hcfg ▸ hi)
  · cases hillegal.symm.trans h
    exact ⟨rfl, rfl, rfl⟩

/-- Settles O12: of the steps that are no reset, only the engine's writes the profile, and only when it runs CFG. -/
theorem onlyCfgAndResetChangeTheProfile : Obligations.OnlyCfgAndResetChangeTheProfile := by
  intro s t h hreset hcfg
  rcases step_cases_of_not_reset h hreset with
    rfl | ⟨r, rfl⟩ | ⟨r, v, -, rfl, hctrl⟩ | ⟨m, rfl⟩ | ⟨-, rfl⟩ | ⟨hnext, hengine⟩
  · exact ⟨rfl, rfl, rfl⟩
  · exact ⟨rfl, rfl, rfl⟩
  · exact State.writeReg_keeps_profile hctrl
  · exact ⟨rfl, rfl, rfl⟩
  · exact ⟨rfl, rfl, rfl⟩
  · exact engineStep_keeps_profile (s := s.stepped) hengine fun hrun => hcfg ⟨hnext, hrun⟩

/-! ### SAT and DONE (10_state.md R26) -/

theorem settledSat_of_sat {s : State} (hsat : s.sat = true) (hcleared : s.hazard.satCleared = false) (n : Nat) :
    s.settledSat n = true := by
  rw [State.settledSat, hcleared, hsat]
  split <;> rfl

/-- A command keeps SAT set, unless a clear of SAT met it. -/
theorem exec_keeps_sat {i : Instr} {s t : State} (h : exec i s = .next t) (hsat : s.sat = true)
    (hcleared : s.hazard.satCleared = false) : t.sat = true := by
  have hsettled := settledSat_of_sat hsat hcleared
  cases hsh : shapeOf i s with
  | some sh =>
    rw [exec_eq_transfer hsh] at h
    rcases transfer_cases h with ⟨e, -, rfl⟩ | ⟨-, rfl | ⟨-, js, -, rfl⟩ | ⟨-, jf, -, rfl⟩⟩
    exacts [hsat, hsettled _, hsettled _, hsettled _]
  | none =>
    rcases (shapeOf_eq_none_iff i s).mp hsh with rfl | rfl | rfl
    · rcases exec_cfg_cases h with rfl | rfl <;> exact hsat
    · rcases exec_enc_cases h with rfl | rfl
      exacts [hsettled _, hsat]
    · rcases exec_dec_cases h with rfl | rfl <;> exact hsat

theorem engineStep_keeps_sat {s t : State} (h : engineStep s = .next t) (hsat : s.sat = true)
    (hcleared : s.hazard.satCleared = false) : t.sat = true := by
  rcases engineStep_cases s with ⟨i, -, hexec⟩ | ⟨-, hillegal⟩
  · exact exec_keeps_sat (hexec ▸ h) hsat hcleared
  · cases hillegal.symm.trans h
    exact hsat

/-- Every engine step is a completion (40_command_cycle.md R95). -/
theorem engineStep_done {s t : State} (h : engineStep s = .next t) : t.done = true := by
  rcases engineStep_cases s with ⟨i, -, hexec⟩ | ⟨-, hillegal⟩
  · exact (congrArg State.done (exec_frame (hexec ▸ h)) :)
  · cases hillegal.symm.trans h
    rfl

/-- A register write keeps SAT set, unless it resets or is a STATUS write with bit 2. -/
theorem State.writeReg_keeps_sat {s : State} {r : Reg} {v : Word} (hsat : s.sat = true)
    (hreset : ¬ (r = .ctrl ∧ v.getLsbD 0 = true)) (hclear : r = .status → v.getLsbD 2 = false) :
    (s.writeReg r v).sat = true := by
  cases r with
  | status =>
    calc (s.writeReg .status v).sat = (s.sat && !v.getLsbD 2) := rfl
      _ = true := by rw [hsat, hclear rfl]; rfl
  | ctrl =>
    rw [State.writeReg, State.writeCtrl, if_neg fun h => hreset ⟨rfl, h⟩]
    exact hsat
  | cmd =>
    rw [State.writeReg, State.writeCmd]
    split <;> exact hsat
  | _ => exact hsat

/-- A register write keeps DONE set, unless it resets, is a STATUS write with bit 1, or launches. -/
theorem State.writeReg_keeps_done {s : State} {r : Reg} {v : Word} (hdone : s.done = true)
    (hreset : ¬ (r = .ctrl ∧ v.getLsbD 0 = true)) (hclear : r = .status → v.getLsbD 1 = false)
    (hlaunch : r = .cmd → s.phase = .busy) : (s.writeReg r v).done = true := by
  cases r with
  | status =>
    calc (s.writeReg .status v).done = (s.done && !v.getLsbD 1) := rfl
      _ = true := by rw [hdone, hclear rfl]; rfl
  | ctrl =>
    rw [State.writeReg, State.writeCtrl, if_neg fun h => hreset ⟨rfl, h⟩]
    exact hdone
  | cmd =>
    rw [State.writeReg, State.writeCmd_of_busy (hlaunch rfl)]
    exact hdone
  | _ => exact hdone

theorem step_keeps_sat {s t : State} (h : step s = .next t) (hreset : s.nextResets = false) (hsat : s.sat = true)
    (hclear : ∀ v, s.nextWrites .status v → v.getLsbD 2 = false) (hcleared : s.hazard.satCleared = false) :
    t.sat = true := by
  rcases step_cases_of_not_reset h hreset with
    rfl | ⟨r, rfl⟩ | ⟨r, v, hwrite, rfl, hctrl⟩ | ⟨m, rfl⟩ | ⟨-, rfl⟩ | ⟨-, hengine⟩
  · exact hsat
  · exact hsat
  · exact State.writeReg_keeps_sat hsat hctrl fun hr => hclear v (hr ▸ hwrite)
  · exact hsat
  · exact hsat
  · exact engineStep_keeps_sat hengine hsat hcleared

theorem step_keeps_done {s t : State} (h : step s = .next t) (hreset : s.nextResets = false) (hdone : s.done = true)
    (hclear : ∀ v, s.nextWrites .status v → v.getLsbD 1 = false)
    (hlaunch : ∀ w, s.nextWrites .cmd w → s.phase = .busy) : t.done = true := by
  rcases step_cases_of_not_reset h hreset with
    rfl | ⟨r, rfl⟩ | ⟨r, v, hwrite, rfl, hctrl⟩ | ⟨m, rfl⟩ | ⟨-, rfl⟩ | ⟨-, hengine⟩
  · exact hdone
  · exact hdone
  · exact State.writeReg_keeps_done hdone hctrl (fun hr => hclear v (hr ▸ hwrite)) fun hr => hlaunch v (hr ▸ hwrite)
  · exact hdone
  · exact hdone
  · exact engineStep_done hengine

/-- Settles O59: where none of the named events is the next, SAT and DONE stay set. -/
theorem stickyFlagsFallOnlyByTheirClears : Obligations.StickyFlagsFallOnlyByTheirClears := by
  refine fun s t h hreset => ⟨fun hsat hfalls => ?_, fun hdone hfalls => ?_⟩
  · by_contra hnot
    obtain ⟨hwrite, hcleared⟩ := not_or.mp hnot
    have hkept := step_keeps_sat h hreset hsat
      (fun v hv => Bool.eq_false_iff.mpr fun hbit => hwrite ⟨v, hv, hbit⟩) (Bool.eq_false_iff.mpr hcleared)
    exact absurd (hkept.symm.trans hfalls) nofun
  · by_contra hnot
    obtain ⟨hwrite, hlaunch⟩ := not_or.mp hnot
    have hkept := step_keeps_done h hreset hdone
      (fun v hv => Bool.eq_false_iff.mpr fun hbit => hwrite ⟨v, hv, hbit⟩)
      (fun w hw => by
        cases hphase : s.phase with
        | busy => rfl
        | idle => exact absurd ⟨hphase, w, hw⟩ hlaunch)
    exact absurd (hkept.symm.trans hfalls) nofun

/-! ### The latched record while Idle (10_state.md R47, U10) -/

/-- Another latched record. -/
def State.withCmd (s : State) (c : Command) : State := { s with cmd := c }

/-- Two outcomes that differ at most in the latched record, and not in it once Busy. -/
inductive AgreeButForCmd : Host.Outcome State Fault Refusal → Host.Outcome State Fault Refusal → Prop
  | next (t : State) (d : Command) (h : t.phase = .busy → d = t.cmd) : AgreeButForCmd (.next t) (.next (t.withCmd d))
  | fault (f : Fault) : AgreeButForCmd (.fault f) (.fault f)
  | refused (r : Refusal) : AgreeButForCmd (.refused r) (.refused r)

theorem AgreeButForCmd.refl (o : Host.Outcome State Fault Refusal) : AgreeButForCmd o o := by
  cases o with
  | next t => exact .next t t.cmd fun _ => rfl
  | fault f => exact .fault f
  | refused r => exact .refused r

/-- What two such outcomes share, by the kind of the first. -/
theorem AgreeButForCmd.spec {o o' : Host.Outcome State Fault Refusal} (h : AgreeButForCmd o o') :
    (∀ t, o = .next t → ∃ d, o' = .next (t.withCmd d) ∧ (t.phase = .busy → d = t.cmd))
      ∧ (∀ f, o = .fault f → o' = .fault f) ∧ (∀ r, o = .refused r → o' = .refused r) := by
  cases h with
  | next t d hd =>
    refine ⟨fun u hu => ?_, fun f hf => (by cases hf), fun r hr => (by cases hr)⟩
    cases hu
    exact ⟨d, rfl, hd⟩
  | fault f => exact ⟨fun u hu => (by cases hu), fun g hg => hg, fun r hr => (by cases hr)⟩
  | refused r => exact ⟨fun u hu => (by cases hu), fun f hf => (by cases hf), fun q hq => hq⟩

/-- An Idle state with another record is the same but for the record. -/
theorem AgreeButForCmd.of_idle {t : State} (hidle : t.phase = .idle) (d : Command) :
    AgreeButForCmd (.next t) (.next (t.withCmd d)) :=
  .next t d fun hbusy => absurd (hidle.symm.trans hbusy) nofun

section WithCmd

variable {s : State}

/-- A reset while Idle frees no byte of memory, so it reads no latched operand. -/
theorem resetEffect_withCmd (hidle : s.phase = .idle) (c : Command) : (s.withCmd c).resetEffect = s.resetEffect := by
  have hmem (u : State) (hu : u.phase = .idle) : u.memAfterReset = u.mem := by rw [State.memAfterReset, hu]
  rw [State.resetEffect, State.resetEffect, hmem s hidle, hmem (s.withCmd c) hidle]
  rfl

theorem writeReg_withCmd (hidle : s.phase = .idle) (c : Command) (r : Reg) (v : Word) :
    AgreeButForCmd (.next (s.writeReg r v)) (.next ((s.withCmd c).writeReg r v)) := by
  have hidle' : (s.withCmd c).phase = .idle := hidle
  have same (hphase : (s.writeReg r v).phase = .idle) (h : (s.withCmd c).writeReg r v = (s.writeReg r v).withCmd c) :
      AgreeButForCmd (.next (s.writeReg r v)) (.next ((s.withCmd c).writeReg r v)) := h ▸ .of_idle hphase c
  cases r with
  | ctrl =>
    cases hbit : v.getLsbD 0 with
    | true =>
      rw [State.writeReg, State.writeReg, State.writeCtrl, State.writeCtrl, if_pos hbit, if_pos hbit,
        resetEffect_withCmd hidle]
      exact .refl _
    | false =>
      have hwrite (u : State) : u.writeReg .ctrl v = _ := State.writeCtrl_of_no_reset hbit
      refine same (by rw [hwrite]; exact hidle) ?_
      rw [hwrite, hwrite, State.bufferRuns_of_idle hidle, State.bufferRuns_of_idle hidle']
      rfl
  | status =>
    refine same hidle ?_
    rw [State.writeReg, State.writeReg, State.writeStatus, State.writeStatus, State.countsSats_of_idle hidle,
      State.countsSats_of_idle hidle']
    rfl
  | cmd =>
    rw [State.writeReg, State.writeReg, State.writeCmd_of_idle hidle, State.writeCmd_of_idle hidle']
    exact .refl _
  | pad =>
    refine same hidle ?_
    rw [State.writeReg, State.writeReg, State.writePad, State.writePad, State.packRuns_of_idle hidle,
      State.packRuns_of_idle hidle']
    rfl
  | satcnt =>
    refine same hidle ?_
    rw [State.writeReg, State.writeReg, State.writeSatcnt, State.writeSatcnt, State.countsSats_of_idle hidle,
      State.countsSats_of_idle hidle']
    rfl
  | id | param | profileCfg | profile | group | src | dst | count | outlen | din | dout => exact same hidle rfl

theorem busyView_of_idle (hidle : s.phase = .idle) : s.busyView = s := by
  rw [State.busyView, hidle]

theorem regAccess_withCmd (hidle : s.phase = .idle) (c : Command) (a : RegAccess) :
    AgreeButForCmd (s.regAccess a) ((s.withCmd c).regAccess a) := by
  have hidle' : (s.withCmd c).phase = .idle := hidle
  have hparams : (s.withCmd c).params = s.params := rfl
  cases a with
  | read width addr =>
    rw [State.regAccess, State.regAccess, hparams, busyView_of_idle hidle, busyView_of_idle hidle']
    cases regAt s.params.regBase width addr with
    | none => exact .refused _
    | some r =>
      have hread : (s.withCmd c).readReg r = s.readReg r := by cases r <;> rfl
      dsimp only
      rw [hread]
      exact .of_idle (t := { s with replies := .reg (s.readReg r) :: s.replies }) hidle c
  | write width addr v =>
    rw [State.regAccess, State.regAccess, hparams]
    cases regAt s.params.regBase width addr with
    | none => exact .refused _
    | some r => exact writeReg_withCmd hidle c r v

theorem memAccess_withCmd (hidle : s.phase = .idle) (c : Command) (a : MemAccess) :
    AgreeButForCmd (s.memAccess a) ((s.withCmd c).memAccess a) := by
  have hidle' : (s.withCmd c).phase = .idle := hidle
  have hread (addr len : Nat) : (s.withCmd c).hostReadFault addr len = s.hostReadFault addr len := by
    simp only [State.hostReadFault, State.touchesDest, State.bufferRuns_of_idle hidle,
      State.bufferRuns_of_idle hidle', Bool.false_and]
  have hwrite (addr len : Nat) : (s.withCmd c).hostWriteFault addr len = s.hostWriteFault addr len := by
    simp only [State.hostWriteFault, State.touchesSource, State.touchesDest, State.bufferRuns_of_idle hidle,
      State.bufferRuns_of_idle hidle', Bool.false_and]
  have goOn {t : State} (ht : t.phase = .idle) (f : Option Fault) :
      AgreeButForCmd (outcomeUnless f t) (outcomeUnless f (t.withCmd c)) := by
    cases f with
    | some f => exact .fault f
    | none => exact .of_idle ht c
  have replied (f : Option Fault) (r : Reply) :=
    goOn (t := { s with replies := r :: s.replies }) hidle f
  have stored (f : Option Fault) (m : Memory) := goOn (t := { s with mem := m }) hidle f
  cases a with
  | readByte x =>
    rw [State.memAccess, State.memAccess, hread]
    exact replied _ (.byte (s.mem.readByte x.toNat))
  | readHalf x =>
    rw [State.memAccess, State.memAccess, hread]
    exact replied _ (.half (s.mem.readHalf x.toNat))
  | writeByte x v =>
    rw [State.memAccess, State.memAccess, hwrite]
    exact stored _ (s.mem.writeByte x.toNat v)
  | writeHalf x v =>
    rw [State.memAccess, State.memAccess, hwrite]
    exact stored _ (s.mem.writeHalf x.toNat v)

theorem resetDuring_withCmd (hidle : s.phase = .idle) (c : Command) (a : RegAccess) :
    AgreeButForCmd (s.resetDuring a) ((s.withCmd c).resetDuring a) := by
  have hagree := regAccess_withCmd hidle c a
  have hdraws : (s.withCmd c).draws = s.draws := rfl
  rw [State.resetDuring, State.resetDuring, resetEffect_withCmd hidle, hdraws]
  generalize s.regAccess a = o, (s.withCmd c).regAccess a = o' at hagree ⊢
  cases hagree with
  | fault f => exact .fault f
  | refused r => exact .refused r
  | next t d hd =>
    have hreset : (t.withCmd d).resetEffect = t.resetEffect := by
      cases hphase : t.phase with
      | idle => exact resetEffect_withCmd hphase d
      | busy => rw [hd hphase]; rfl
    dsimp only
    rw [hreset]
    exact .refl _

theorem stepEvent_withCmd (hidle : s.phase = .idle) (c : Command) (e : Event) :
    AgreeButForCmd (stepEvent e s) (stepEvent e (s.withCmd c)) := by
  have hidle' : (s.withCmd c).phase = .idle := hidle
  cases e with
  | reg a => exact regAccess_withCmd hidle c a
  | mem a => exact memAccess_withCmd hidle c a
  | engineTurn =>
    rw [stepEvent, stepEvent, engineTurn, engineTurn, hidle, hidle']
    exact .of_idle hidle c
  | reset =>
    rw [stepEvent, stepEvent, resetEffect_withCmd hidle]
    exact .refl _
  | resetDuring a => exact resetDuring_withCmd hidle c a

theorem step_withCmd (hidle : s.phase = .idle) (c : Command) : AgreeButForCmd (step s) (step (s.withCmd c)) := by
  have hidle' : (s.withCmd c).phase = .idle := hidle
  have hpending : (s.withCmd c).pending = s.pending := rfl
  cases hp : s.pending with
  | nil =>
    rw [step_of_idle hp hidle, step_of_idle (hpending.trans hp) hidle']
    exact .of_idle hidle c
  | cons e rest =>
    rw [step_of_event hp, step_of_event (hpending.trans hp)]
    exact stepEvent_withCmd (s := s.stepped) hidle c e

end WithCmd

/-- Settles O60: what the outcomes of two Idle states that differ in the record share. -/
theorem idleStepsNeverReadTheLatchedCommand : Obligations.IdleStepsNeverReadTheLatchedCommand := by
  intro s c hidle
  exact (step_withCmd hidle c).spec

end Sys2Proof.Machine
end

section
/-! ## The Sample Codec (42_codec.md section 1) -/

namespace Sys2Proof.Machine

/-! ### Margins (42_codec.md R142 to R144) -/

/-- A magnitude other than 0 lies between the powers of 2 that its raw margin names. -/
theorem rawMargin_spec {mag : Nat} (h : mag < 2 ^ 15) (h0 : mag ≠ 0) :
    2 ^ (14 - rawMargin mag) ≤ mag ∧ mag < 2 ^ (15 - rawMargin mag) := by
  obtain ⟨hlt, hge, hle⟩ := leadingZeros_spec h h0
  have hraw : rawMargin mag = leadingZeros 15 mag := Nat.min_eq_left (by rw [clz15]; omega)
  rw [hraw]
  exact ⟨hge, hle⟩

theorem rawMargin_eq_iff {mag : Nat} (h : mag < 2 ^ 15) : rawMargin mag = 14 ↔ mag ≤ 1 := by
  by_cases h0 : mag = 0
  · subst h0
    simp [rawMargin, clz15, leadingZeros_zero]
  · obtain ⟨hge, hlt⟩ := rawMargin_spec h h0
    have hle := rawMargin_le mag
    constructor
    · intro hraw
      rw [hraw] at hlt
      omega
    · intro hone
      by_contra hne
      have hpow : 2 ^ 1 ≤ 2 ^ (14 - rawMargin mag) := Nat.pow_le_pow_right (by omega) (by omega)
      omega

/-- Settles O13: the raw margin is the count of leading zeros, except that 0 counts like 1. -/
theorem rawMarginFindsTheLeadingOne : Obligations.RawMarginFindsTheLeadingOne := by
  refine fun mag h => ⟨rawMargin_eq_iff h, fun h2 => ⟨?_, rawMargin_spec h (by omega)⟩⟩
  have hle := rawMargin_le mag
  have hne : rawMargin mag ≠ 14 := fun h14 => absurd ((rawMargin_eq_iff h).mp h14) (by omega)
  omega

/-- Settles O14: a raw margin that the cap cuts is quantized to at least the largest stored margin either way. -/
theorem scanCapDoesNotChangeTheStoredMargin : Obligations.ScanCapDoesNotChangeTheStoredMargin := by
  intro p mag hp
  have hQ := hp.quant_ge
  rw [storedMargin, quantMargin, maxMargin]
  rcases Nat.le_total (rawMargin mag) (2 ^ p.E * p.Q - 1) with hle | hge
  · rw [Nat.min_eq_left hle]
  · have hsub : (2 ^ p.E - 1) * p.Q = 2 ^ p.E * p.Q - p.Q := by rw [Nat.sub_mul, Nat.one_mul]
    have hQle : p.Q ≤ 2 ^ p.E * p.Q := Nat.le_mul_of_pos_left _ (Nat.two_pow_pos _)
    have reaches {a : Nat} (ha : 2 ^ p.E * p.Q - 1 ≤ a) : 2 ^ p.E - 1 ≤ ceilDiv a p.Q := by
      rcases Nat.eq_zero_or_pos (2 ^ p.E - 1) with h0 | hpos
      · omega
      · have hstep : (2 ^ p.E - 1 - 1) * p.Q + p.Q = (2 ^ p.E - 1) * p.Q := by
          rw [← Nat.succ_mul, Nat.succ_eq_add_one, Nat.sub_add_cancel hpos]
        have hlt := (lt_ceilDiv_iff hQ (a := a) (2 ^ p.E - 1 - 1)).mpr (by omega)
        omega
    rw [Nat.min_eq_right hge, Nat.min_eq_right (reaches le_rfl), Nat.min_eq_right (reaches hge)]

/-- A SaturationEvent is a raw margin beyond the largest stored margin (42_codec.md R144). -/
theorem satev_iff {p : ActiveProfile} (hp : p.Legal) (s : Half) :
    (encodeSample p s).satev = true ↔ (2 ^ p.E - 1) * p.Q < rawMargin (magnitude s) := by
  rw [← lt_ceilDiv_iff hp.quant_ge]
  exact decide_eq_true_iff

/-- Settles O15: the word's margin field is the stored margin, which is the least c unless it is clamped. -/
theorem saturationIsExactlyTheClamp : Obligations.SaturationIsExactlyTheClamp := by
  intro p s hp
  obtain ⟨-, -, hmargin, -⟩ := encodeSample_fields hp s
  refine ⟨satev_iff hp s, fun hsat => ?_, fun hsat => ?_⟩
  · have hlt : maxMargin p < quantMargin p (magnitude s) := decide_eq_true_iff.mp hsat
    rw [hmargin]
    exact Nat.min_eq_right hlt.le
  · have hle : quantMargin p (magnitude s) ≤ maxMargin p := Nat.not_lt.mp (decide_eq_false_iff_not.mp hsat)
    rw [hmargin, storedMargin, Nat.min_eq_left hle]
    exact isLeast_ceilDiv hp.quant_ge

/-! ### The fields of a code word (42_codec.md R146) -/

/-- Mantissa bit `i` is the magnitude bit M - 1 - i places below the top of the window, and 0 below bit 0. -/
theorem testBit_mantissaAt_window (p : ActiveProfile) (mag shift : Nat) {i : Nat} (hi : i < p.M) :
    (mantissaAt p mag shift).testBit i =
      (decide (shift + (p.M - 1 - i) ≤ 14) && mag.testBit (14 - shift - (p.M - 1 - i))) := by
  by_cases hshift : shift < 15
  · rw [testBit_mantissaAt p mag hshift, show 15 - shift + i - p.M = 14 - shift - (p.M - 1 - i) by omega,
      decide_eq_true hi, Bool.true_and]
    congr 1
    exact decide_eq_decide.mpr (by omega)
  · rw [mantissaAt, if_pos (by omega), Nat.zero_testBit, decide_eq_false (by omega), Bool.false_and]

/-- Settles O16: `encodeSample_fields`, with the mantissa bit by bit. -/
theorem encodedWordHoldsItsFields : Obligations.EncodedWordHoldsItsFields := by
  intro p s hp
  obtain ⟨hlt, hsign, hmargin, hmantissa⟩ := encodeSample_fields hp s
  refine ⟨hlt, hsign, hmargin, fun i hi => ?_⟩
  have hbit : (encodeSample p s).word.testBit i = (mantissaField p (encodeSample p s).word).testBit i := by
    rw [mantissaField, testBit_bitField, decide_eq_true hi, Bool.true_and, Nat.zero_add]
  rw [hbit, hmantissa, testBit_mantissaAt_window p _ _ hi]

/-! ### The round trip (42_codec.md R149) -/

/-- A negative sample is -1 minus its magnitude. -/
theorem toInt_of_sign {s : Half} (h : s.getLsbD 15 = true) : s.toInt = -1 - (magnitude s : Int) := by
  have hmag := magnitude_lt s
  have hnat : s.toNat = 2 ^ 15 + (2 ^ 15 - 1 - magnitude s) := by
    have hself := toNat_assembleSample (sign := sampleSign s) hmag
    rw [assembleSample_self, if_pos (show sampleSign s = true from h)] at hself
    exact hself
  rw [BitVec.toInt_eq_toNat_cond, if_neg (by omega)]
  omega

section RoundTrip

variable {p : ActiveProfile} (hp : p.Legal) (s : Half)
include hp

theorem sampleSign_roundTrip : sampleSign (decodeWord p (encodeSample p s).word) = sampleSign s := by
  rw [decodeWord_encodeSample hp, sampleSign_assembleSample (magnitudeAt_lt (mantissaAt_lt ..) _)]

/-- The magnitude of a round trip is the window of the magnitude. -/
theorem testBit_magnitude_roundTrip (b : Nat) :
    (magnitude (decodeWord p (encodeSample p s).word)).testBit b =
      ((magnitude s).testBit b && decide (b + storedMargin p (magnitude s) * p.Q ≤ 14)
        && decide (15 ≤ b + storedMargin p (magnitude s) * p.Q + p.M)) := by
  rw [decodeWord_encodeSample hp, magnitude_assembleSample (magnitudeAt_lt (mantissaAt_lt ..) _),
    testBit_magnitudeAt_mantissaAt]

theorem magnitude_roundTrip_le : magnitude (decodeWord p (encodeSample p s).word) ≤ magnitude s :=
  Nat.le_of_testBit fun b hb => by
    rw [testBit_magnitude_roundTrip hp, Bool.and_eq_true, Bool.and_eq_true] at hb
    obtain ⟨⟨hkept, -⟩, -⟩ := hb
    exact hkept

/-- A round trip is exact when it keeps the magnitude. -/
theorem roundTrip_eq_iff : decodeWord p (encodeSample p s).word = s
    ↔ magnitude (decodeWord p (encodeSample p s).word) = magnitude s := by
  refine ⟨congrArg magnitude, fun h => ?_⟩
  calc decodeWord p (encodeSample p s).word
      = assembleSample (sampleSign (decodeWord p (encodeSample p s).word))
          (magnitude (decodeWord p (encodeSample p s).word)) := (assembleSample_self _).symm
    _ = assembleSample (sampleSign s) (magnitude s) := by rw [sampleSign_roundTrip hp, h]
    _ = s := assembleSample_self s

theorem storedMargin_of_rawMargin_zero {mag : Nat} (hraw : rawMargin mag = 0) : storedMargin p mag = 0 := by
  have hquant : quantMargin p mag ≤ 0 := (ceilDiv_le_iff hp.quant_ge 0).mpr (by omega)
  have hmin : storedMargin p mag ≤ quantMargin p mag := Nat.min_le_left _ _
  omega

/-- With no margin, the window is the top M bits of the magnitude. -/
theorem magnitude_roundTrip_eq_iff (hraw : rawMargin (magnitude s) = 0) :
    magnitude (decodeWord p (encodeSample p s).word) = magnitude s ↔ magnitude s % 2 ^ (15 - p.M) = 0 := by
  have hbit := testBit_magnitude_roundTrip hp s
  rw [storedMargin_of_rawMargin_zero hp hraw, Nat.zero_mul] at hbit
  have hlow (b : Nat) : (magnitude s % 2 ^ (15 - p.M)).testBit b
      = (decide (b < 15 - p.M) && (magnitude s).testBit b) := Nat.testBit_mod_two_pow ..
  have hhigh {b : Nat} (hb : 15 ≤ b) : (magnitude s).testBit b = false :=
    Nat.testBit_lt_two_pow (lt_of_lt_of_le (magnitude_lt s) (Nat.pow_le_pow_right (by omega) hb))
  constructor
  · intro hsame
    refine Nat.zero_of_testBit_eq_false fun b => ?_
    rw [hlow]
    by_cases hb : b < 15 - p.M
    · rw [← hsame, hbit, decide_eq_false (show ¬ 15 ≤ b + 0 + p.M by omega), Bool.and_false, Bool.and_false]
    · rw [decide_eq_false hb, Bool.false_and]
  · intro hzero
    refine Nat.eq_of_testBit_eq fun b => ?_
    rw [hbit]
    by_cases hb : b < 15 - p.M
    · have hclear := hlow b
      rw [hzero, Nat.zero_testBit, decide_eq_true hb, Bool.true_and] at hclear
      rw [← hclear, Bool.false_and, Bool.false_and]
    · by_cases h15 : 15 ≤ b
      · rw [hhigh h15, Bool.false_and, Bool.false_and]
      · rw [decide_eq_true (show b + 0 ≤ 14 by omega), decide_eq_true (show 15 ≤ b + 0 + p.M by omega), Bool.and_true,
          Bool.and_true]

end RoundTrip

/-- Settles O17: the window of the magnitude, and what it means for the value. -/
theorem roundTripKeepsSignAndWindow : Obligations.RoundTripKeepsSignAndWindow := by
  rintro p s s' hp rfl
  have hsign : (decodeWord p (encodeSample p s).word).getLsbD 15 = s.getLsbD 15 := sampleSign_roundTrip hp s
  have hle := magnitude_roundTrip_le hp s
  refine ⟨hsign, hle, testBit_magnitude_roundTrip hp s, fun hneg => ?_⟩
  have hnew := toInt_of_sign (hsign.trans hneg)
  have hold := toInt_of_sign hneg
  exact ⟨hnew, by omega⟩

/-- Settles O18: exactness is exactness of the magnitude; with no margin only the low 15 - M bits are lost. -/
theorem roundTripIsExactWhenNoBitIsLost : Obligations.RoundTripIsExactWhenNoBitIsLost := by
  rintro p s s' hp rfl
  have hexact (hraw : rawMargin (magnitude s) = 0) :
      decodeWord p (encodeSample p s).word = s ↔ magnitude s % 2 ^ (15 - p.M) = 0 :=
    (roundTrip_eq_iff hp s).trans (magnitude_roundTrip_eq_iff hp s hraw)
  refine ⟨roundTrip_eq_iff hp s, fun hraw => ⟨storedMargin_of_rawMargin_zero hp hraw, hexact hraw⟩,
    fun hraw hM => (hexact hraw).mpr ?_⟩
  rw [show 15 - p.M = 0 by omega, Nat.pow_zero, Nat.mod_one]

/-! ### The widest profile (42_codec.md R149, law 4; 95_test_vectors.md section 2.2) -/

section Widest

variable {p : ActiveProfile} (hp : p.Legal) (houtbit : p.outbit = 16) (hM : p.M = 15)
include hp houtbit hM

theorem widest_margin : p.E = 0 := by
  have := hp.margin_eq
  omega

theorem storedMargin_widest (mag : Nat) : storedMargin p mag = 0 := by
  have hlt := storedMargin_lt p mag
  rw [widest_margin hp houtbit hM, Nat.pow_zero] at hlt
  omega

/-- Without a margin field the word is the sign above the whole magnitude. -/
theorem word_widest (s : Half) : (encodeSample p s).word = (sampleSign s).toNat * 2 ^ 15 + magnitude s := by
  have hmag := magnitude_lt s
  have hstored := storedMargin_widest hp houtbit hM (magnitude s)
  have hmantissa : mantissaAt p (magnitude s) 0 = magnitude s := by
    rw [mantissaAt, if_neg (by omega), hM, Nat.sub_zero, Nat.shiftLeft_shiftRight, Nat.mod_eq_of_lt hmag]
  calc (encodeSample p s).word
      = assembleWord p (sampleSign s) (storedMargin p (magnitude s))
          (mantissaAt p (magnitude s) (storedMargin p (magnitude s) * p.Q)) := rfl
    _ = ((sampleSign s).toNat <<< 15) ||| magnitude s := by
        rw [hstored, Nat.zero_mul, hmantissa, assembleWord, houtbit, Nat.zero_shiftLeft, Nat.or_zero]
    _ = (sampleSign s).toNat * 2 ^ 15 + magnitude s := by
        rw [← Nat.shiftLeft_add_eq_or_of_lt hmag, Nat.shiftLeft_eq]

theorem roundTrip_widest (s : Half) : decodeWord p (encodeSample p s).word = s := by
  have hstored := storedMargin_widest hp houtbit hM (magnitude s)
  refine (roundTrip_eq_iff hp s).mpr (Nat.eq_of_testBit_eq fun b => ?_)
  rw [testBit_magnitude_roundTrip hp, hstored, Nat.zero_mul, hM, decide_eq_true (show 15 ≤ b + 0 + 15 by omega),
    Bool.and_true]
  by_cases hb : b + 0 ≤ 14
  · rw [decide_eq_true hb, Bool.and_true]
  · have hhigh : (magnitude s).testBit b = false :=
      Nat.testBit_lt_two_pow (lt_of_lt_of_le (magnitude_lt s) (Nat.pow_le_pow_right (by omega) (by omega)))
    rw [hhigh, Bool.false_and]

end Widest

theorem magnitude_of_sign (s : Half) :
    magnitude s = if s.getLsbD 15 then 2 ^ 15 - 1 - s.toNat % 2 ^ 15 else s.toNat % 2 ^ 15 := by
  have hfield : bitField s.toNat 0 15 = s.toNat % 2 ^ 15 := by rw [bitField_eq, Nat.pow_zero, Nat.div_one]
  rw [magnitude, hfield]
  rfl

/-- A sample whose sign is clear is its low 15 bits. -/
theorem toNat_lt_of_sign {s : Half} (h : s.getLsbD 15 = false) : s.toNat < 2 ^ 15 := by
  have hself := toNat_assembleSample (sign := sampleSign s) (magnitude_lt s)
  have hsign : sampleSign s = false := h
  rw [assembleSample_self, hsign, if_neg Bool.false_ne_true] at hself
  exact hself ▸ magnitude_lt s

/-- Settles O19: the word is the sign above the magnitude, and every raw margin saturates an empty field. -/
theorem widestProfileRoundTripsEverySample : Obligations.WidestProfileRoundTripsEverySample := by
  intro p s hp houtbit hM
  have hword := word_widest hp houtbit hM s
  have hmag := magnitude_of_sign s
  refine ⟨roundTrip_widest hp houtbit hM s, fun hpos => ?_, fun hneg => ?_, ?_⟩
  · have hsign : sampleSign s = false := hpos
    rw [if_neg (by rw [hpos]; exact Bool.false_ne_true), Nat.mod_eq_of_lt (toNat_lt_of_sign hpos)] at hmag
    rw [hword, hsign, hmag, Bool.toNat_false, Nat.zero_mul, Nat.zero_add]
  · have hsign : sampleSign s = true := hneg
    rw [if_pos hneg] at hmag
    rw [hword, hsign, hmag, Bool.toNat_true, Nat.one_mul]
    rfl
  · rw [satev_iff hp, widest_margin hp houtbit hM, Nat.pow_zero, Nat.sub_self, Nat.zero_mul]
    exact Iff.rfl

/-! ### Decode (42_codec.md R147, R151) -/

/-- Decode as a number: the sign above the magnitude, or its one's complement. -/
theorem toNat_decodeWord (p : ActiveProfile) (w : Nat) :
    (decodeWord p w).toNat =
      if w.testBit (p.outbit - 1) then 2 ^ 15 + (2 ^ 15 - 1 - magnitudeAt p (mantissaField p w) (marginField p w * p.Q))
      else magnitudeAt p (mantissaField p w) (marginField p w * p.Q) :=
  toNat_assembleSample (magnitudeAt_lt (bitField_lt ..) _)

/-- Settles O22: the command, and the sample of every word bit by bit. -/
theorem decDecodesOneWord : Obligations.DecDecodesOneWord := by
  refine ⟨fun s hprofile => ?_, fun p w shift hp hw hshift => ?_⟩
  · rw [exec_dec_of_profile hprofile, State.decoded, usedWord_eq]
    rfl
  · have hfield : marginField p w * p.Q = shift := by rw [hshift, marginField, bitField_eq, hp.margin_eq]
    have hdecode := toNat_decodeWord p w
    rw [hfield] at hdecode
    refine ⟨_, magnitudeAt_lt (bitField_lt w 0 p.M) shift, hdecode, fun h15 => ?_, fun b => ?_⟩
    · rw [magnitudeAt, if_pos h15]
    · rw [testBit_magnitudeAt (bitField_lt w 0 p.M), testBit_bitField, Nat.zero_add]
      by_cases hb : b + shift ≤ 14 ∧ 15 ≤ b + shift + p.M
      · rw [decide_eq_true (show b + shift + p.M - 15 < p.M by omega), Bool.true_and]
      · rcases not_and_or.mp hb with hb | hb
        · rw [decide_eq_false hb, Bool.false_and, Bool.false_and]
          rfl
        · rw [decide_eq_false hb, Bool.and_false, Bool.false_and]
          rfl

end Sys2Proof.Machine
end

section
/-! ## The host's accesses: registers, memory and resets (10_state.md section 2, 20_memory.md) -/

namespace Sys2Proof.Machine

/-! ### Register writes (10_state.md R28, R31 to R36) -/

/-- A field of a register, as a number. -/
theorem extractLsb'_eq_ofNat {n : Nat} (v : BitVec n) (lo width : Nat) :
    v.extractLsb' lo width = BitVec.ofNat width (v.toNat / 2 ^ lo % 2 ^ width) := by
  apply BitVec.eq_of_toNat_eq
  rw [BitVec.extractLsb'_toNat, BitVec.toNat_ofNat, Nat.mod_mod, Nat.shiftRight_eq_div_pow]

theorem setWidth_eq_ofNat {n : Nat} (v : BitVec n) (width : Nat) :
    v.setWidth width = BitVec.ofNat width (v.toNat % 2 ^ width) := by
  apply BitVec.eq_of_toNat_eq
  rw [BitVec.toNat_setWidth, BitVec.toNat_ofNat, Nat.mod_mod]

theorem packRuns_of_not_pack {s : State} (h : s.running ≠ some .pack ∨ s.phase = .idle) : s.packRuns = false := by
  rcases h with hrun | hidle
  · rw [State.packRuns, beq_eq_false_iff_ne.mpr hrun, Bool.and_false]
  · exact State.packRuns_of_idle hidle

/-- Settles O44: the write of each register is its arm of `State.writeReg`. -/
theorem plainRegisterWritesStoreTheirFields : Obligations.PlainRegisterWritesStoreTheirFields := by
  intro s v
  refine ⟨step_of_nextWrites, step_of_nextWrites, step_of_nextWrites, fun hwrite => ?_, fun hwrite => ?_,
    fun hwrite => ?_, fun r hr hwrite => ?_⟩
  · rw [step_of_nextWrites hwrite, ← setWidth_eq_ofNat]
    rfl
  · have houtbit := extractLsb'_eq_ofNat v 0 5
    rw [Nat.pow_zero, Nat.div_one] at houtbit
    rw [step_of_nextWrites hwrite, ← houtbit, ← extractLsb'_eq_ofNat, ← extractLsb'_eq_ofNat]
    rfl
  · exact ⟨s.stepped.writePad v, step_of_nextWrites hwrite, rfl,
      fun h => State.writePad_hazard (packRuns_of_not_pack (s := s.stepped) h)⟩
  · rw [step_of_nextWrites hwrite]
    rcases hr with rfl | rfl | rfl | rfl | rfl | rfl <;> rfl

/-! ### Resets (40_command_cycle.md R104, R105) -/

/-- Both resets are the same function of the state. -/
theorem step_of_reset {s : State}
    (h : (∃ v, s.nextWrites .ctrl v ∧ v.getLsbD 0 = true) ∨ ∃ rest, s.pending = .reset :: rest) :
    step s = .next s.stepped.resetEffect := by
  rcases h with ⟨v, hwrite, hbit⟩ | ⟨rest, hp⟩
  · rw [step_of_nextWrites hwrite, State.writeReg, State.writeCtrl, if_pos hbit]
  · rw [step_of_event hp, stepEvent]

/-- Settles O45: the reset is `State.resetEffect`, and `memAfterReset_spec` bounds what it does to memory. -/
theorem resetClearsEveryRegister : Obligations.ResetClearsEveryRegister := by
  intro s v hm hreset
  exact ⟨s.stepped.resetEffect, step_of_reset (hreset.imp_left fun h => ⟨v, h⟩), rfl, rfl,
    (memAfterReset_spec (s := s.stepped) hm).2⟩

/-! ### Which register accesses are taken (20_memory.md R50) -/

theorem wfAt_iff (base width addr : Nat) :
    RegAccess.wfAt base width addr = true
      ↔ width = 32 ∧ base ≤ addr ∧ addr - base ≤ 0x3C ∧ (addr - base) % 4 = 0 := by
  simp only [RegAccess.wfAt, Bool.and_eq_true, beq_iff_eq, Nat.ble_eq, and_assoc]

theorem regAccess_of_wf {s : State} {a : RegAccess} (h : a.wf s.params.regBase = true) :
    ∃ t, s.regAccess a = .next t := by
  cases a with
  | read width addr | write width addr v =>
    obtain ⟨r, hr⟩ := Option.isSome_iff_exists.mp ((regAt_isSome _ width addr).trans h)
    rw [State.regAccess, hr]
    exact ⟨_, rfl⟩

theorem regAccess_of_not_wf {s : State} {a : RegAccess} (h : a.wf s.params.regBase = false) :
    s.regAccess a = .refused .badRegisterAccess := by
  cases a with
  | read width addr | write width addr v =>
    have hnone : regAt s.params.regBase width addr = none :=
      Option.isSome_eq_false_iff.mp ((regAt_isSome _ width addr).trans h) |> Option.isNone_iff_eq_none.mp
    rw [State.regAccess, hnone]

/-- Settles O46: the access is well formed, so both orders have a state to reset. -/
theorem resetDuringAnAccessTakesEitherOrder : Obligations.ResetDuringAnAccessTakesEitherOrder := by
  intro s a rest hp hwf
  obtain ⟨u, hu⟩ := regAccess_of_wf (s := s.stepped) hwf
  rw [step_of_event hp, stepEvent, State.resetDuring, hu]
  refine ⟨_, u, rfl, rfl, ?_⟩
  split
  · exact .inr rfl
  · exact .inl rfl

/-- Settles O47: a well-formed access is taken, and every other one is refused. -/
theorem onlyWordAccessesToTheWindowAreTaken : Obligations.OnlyWordAccessesToTheWindowAreTaken := by
  intro s width addr v rest e he hp
  rw [← wfAt_iff, step_of_event hp]
  obtain ⟨a, rfl, hwf⟩ : ∃ a, e = .reg a ∧ a.wf s.params.regBase = RegAccess.wfAt s.params.regBase width addr := by
    rcases he with rfl | rfl
    exacts [⟨_, rfl, rfl⟩, ⟨_, rfl, rfl⟩]
  rw [← hwf, stepEvent]
  cases hw : a.wf s.params.regBase with
  | true =>
    obtain ⟨t, ht⟩ := regAccess_of_wf (s := s.stepped) hw
    rw [ht]
    exact ⟨iff_of_false (fun h => by cases h) (not_not_intro rfl), iff_of_true ⟨t, rfl⟩ rfl⟩
  | false =>
    rw [regAccess_of_not_wf (s := s.stepped) hw]
    exact ⟨iff_of_true rfl Bool.false_ne_true, iff_of_false (fun ⟨t, h⟩ => by cases h) Bool.false_ne_true⟩

/-! ### What a register reads as (10_state.md R22 to R38) -/

/-- The fields of STATUS at their places. -/
theorem toNat_statusWord (s : State) :
    s.statusWord.toNat = s.busy.toNat + 2 * s.done.toNat + 4 * s.sat.toNat + 8 * s.ovr.toNat + 16 * s.pvalid.toNat
      + 2 ^ 8 * s.err.toNat := by
  simp only [State.statusWord, toNat_append, BitVec.toNat_ofBool, BitVec.toNat_ofNat]
  omega

theorem toNat_busy (s : State) : s.busy.toNat = if s.phase = .busy then 1 else 0 := by
  rw [State.busy]
  cases s.phase <;> rfl

theorem toNat_paramWord (p : Params) :
    (paramWord p).toNat = 0x00201010 + 2 ^ 24 * p.rangeCheck.toNat + 2 ^ 25 * p.memErrors.toNat := by
  simp only [paramWord, toNat_append, BitVec.toNat_ofBool, BitVec.toNat_ofNat]
  omega

theorem toNat_ctrlWord (s : State) : s.ctrlWord.toNat = 2 ^ 8 * s.ieDone.toNat + 2 ^ 9 * s.ieErr.toNat := by
  simp only [State.ctrlWord, toNat_append, BitVec.toNat_ofBool, BitVec.toNat_ofNat]
  omega

theorem ProfileCfg.toNat_toWord (c : ProfileCfg) :
    c.toWord.toNat = c.outbit.toNat + 2 ^ 8 * c.mant.toNat + 2 ^ 16 * c.quant.toNat := by
  simp only [ProfileCfg.toWord, toNat_append, BitVec.toNat_ofNat]
  omega

theorem Profile.toNat_toWord (p : Profile) :
    p.toWord.toNat = p.outbit.toNat + 2 ^ 8 * p.mant.toNat + 2 ^ 16 * p.quant.toNat + 2 ^ 24 * p.margin.toNat := by
  simp only [Profile.toWord, toNat_append, BitVec.toNat_ofNat]
  omega

theorem Group.toNat_toWord (g : Group) : g.toWord.toNat = g.units.toNat + 2 ^ 8 * g.words.toNat := by
  simp only [Group.toWord, toNat_append, BitVec.toNat_ofNat]
  omega

/-- Settles O48: the window's map by evaluation, and each register by its fields. -/
theorem registersReadAsTheirFields : Obligations.RegistersReadAsTheirFields := by
  refine ⟨fun base => ?_, fun s => ?_⟩
  · simp only [regAt_add]
    rfl
  · refine ⟨rfl, toNat_paramWord _, toNat_ctrlWord s, ?_, rfl, s.profileCfg.toNat_toWord, s.profile.toNat_toWord,
      s.group.toNat_toWord, rfl, rfl, rfl, rfl, rfl, rfl, ?_, ?_⟩
    · rw [← toNat_busy]
      exact toNat_statusWord s
    · exact BitVec.toNat_setWidth_of_le (by omega)
    · exact BitVec.toNat_setWidth_of_le (by omega)

/-! ### Register reads (10_state.md R39, 40_command_cycle.md R106) -/

theorem step_of_read {s : State} {addr : Nat} {r : Reg} {rest : List Event}
    (hr : regAt s.params.regBase 32 addr = some r) (hp : s.pending = .reg (.read 32 addr) :: rest) :
    step s = .next { s.stepped with replies := .reg (s.stepped.busyView.readReg r) :: s.replies } := by
  have hr' : regAt s.stepped.params.regBase 32 addr = some r := hr
  rw [step_of_event hp, stepEvent, State.regAccess, hr']
  rfl

theorem readReg_stepped (s : State) (r : Reg) : s.stepped.readReg r = s.readReg r := by
  cases r <;> rfl

/-- Settles O49: while Idle the host sees the state itself. -/
theorem registerReadsHaveNoSideEffect : Obligations.RegisterReadsHaveNoSideEffect := by
  intro s addr r rest hr hp
  refine ⟨_, step_of_read hr hp, fun hidle => ?_⟩
  rw [busyView_of_idle (s := s.stepped) hidle, readReg_stepped]

section BusyView

variable {s : State}

/-- Only the registers that some command writes at completion can be free (40_command_cycle.md R106). -/
theorem busyView_frame (s : State) :
    s.busyView = { s with
      profile := s.busyView.profile, group := s.busyView.group, pvalid := s.busyView.pvalid
      dout := s.busyView.dout, satcnt := s.busyView.satcnt, sat := s.busyView.sat
      outlen := s.busyView.outlen, pad := s.busyView.pad } := by
  unfold State.busyView
  split
  · rfl
  · split <;> rfl

theorem busyView_profile (h : s.running ≠ some .cfg) :
    s.busyView.profile = s.profile ∧ s.busyView.group = s.group ∧ s.busyView.pvalid = s.pvalid := by
  cases hphase : s.phase with
  | idle => exact (busyView_of_idle hphase).symm ▸ ⟨rfl, rfl, rfl⟩
  | busy =>
    rw [State.busyView, hphase]
    cases hrun : s.running with
    | none => exact ⟨rfl, rfl, rfl⟩
    | some i =>
      cases i with
      | cfg => exact absurd hrun h
      | _ => exact ⟨rfl, rfl, rfl⟩

theorem busyView_dout (henc : s.running ≠ some .enc) (hdec : s.running ≠ some .dec) : s.busyView.dout = s.dout := by
  cases hphase : s.phase with
  | idle => rw [busyView_of_idle hphase]
  | busy =>
    rw [State.busyView, hphase]
    cases hrun : s.running with
    | none => rfl
    | some i =>
      cases i with
      | enc => exact absurd hrun henc
      | dec => exact absurd hrun hdec
      | _ => rfl

theorem busyView_counts (henc : s.running ≠ some .enc) (hencbuf : s.running ≠ some .encbuf) :
    s.busyView.satcnt = s.satcnt ∧ s.busyView.sat = s.sat := by
  cases hphase : s.phase with
  | idle => exact (busyView_of_idle hphase).symm ▸ ⟨rfl, rfl⟩
  | busy =>
    rw [State.busyView, hphase]
    cases hrun : s.running with
    | none => exact ⟨rfl, rfl⟩
    | some i =>
      cases i with
      | enc => exact absurd hrun henc
      | encbuf => exact absurd hrun hencbuf
      | _ => exact ⟨rfl, rfl⟩

theorem busyView_outlen (h : s.running = some .cfg ∨ s.running = some .enc ∨ s.running = some .dec) :
    s.busyView.outlen = s.outlen := by
  cases hphase : s.phase with
  | idle => rw [busyView_of_idle hphase]
  | busy =>
    rw [State.busyView, hphase]
    rcases h with h | h | h <;> rw [h]

theorem busyView_pad (h : s.running ≠ some .pack) : s.busyView.pad = s.pad := by
  cases hphase : s.phase with
  | idle => rw [busyView_of_idle hphase]
  | busy =>
    rw [State.busyView, hphase]
    cases hrun : s.running with
    | none => rfl
    | some i =>
      cases i with
      | pack => exact absurd hrun h
      | _ => rfl

end BusyView

theorem getLsbD_of_toNat {n i : Nat} {v : BitVec n} {b : Bool} (h : v.toNat / 2 ^ i % 2 = b.toNat) :
    v.getLsbD i = b := by
  rw [← BitVec.testBit_toNat, Nat.testBit_eq_decide_div_mod_eq, h]
  cases b <;> rfl

/-- The single fields of STATUS. -/
theorem statusWord_fields (s : State) :
    s.statusWord.getLsbD 0 = s.busy ∧ s.statusWord.getLsbD 1 = s.done ∧ s.statusWord.getLsbD 2 = s.sat
      ∧ s.statusWord.getLsbD 3 = s.ovr ∧ s.statusWord.getLsbD 4 = s.pvalid ∧ s.statusWord.extractLsb' 8 4 = s.err := by
  have hword := toNat_statusWord s
  have hbusy := s.busy.toNat_le
  have hdone := s.done.toNat_le
  have hsat := s.sat.toNat_le
  have hovr := s.ovr.toNat_le
  have hpvalid := s.pvalid.toNat_le
  have herr := s.err.isLt
  refine ⟨getLsbD_of_toNat ?_, getLsbD_of_toNat ?_, getLsbD_of_toNat ?_, getLsbD_of_toNat ?_, getLsbD_of_toNat ?_,
    BitVec.eq_of_toNat_eq ?_⟩
  case refine_6 =>
    rw [BitVec.extractLsb'_toNat, Nat.shiftRight_eq_div_pow]
    omega
  all_goals omega

/-- Settles O50: what the host sees while Busy is `State.busyView`, which frees only what the command writes. -/
theorem busyReadsOfOtherRegistersAreStored : Obligations.BusyReadsOfOtherRegistersAreStored := by
  intro s addr r rest hinv hbusy hr hp
  obtain ⟨hdone, herr⟩ := hinv.busy_quiet hbusy
  have hframe := busyView_frame s.stepped
  refine ⟨_, step_of_read hr hp, fun hstatus => ?_, fun hstored => ?_, fun hprofile hrun => ?_,
    fun hdout henc hdec => ?_, fun hsatcnt henc hencbuf => ?_, fun houtlen hrun => ?_, fun hpad hrun => ?_⟩
  · subst hstatus
    obtain ⟨hbit0, hbit1, hbit2, hbit3, hbit4, hfield⟩ := statusWord_fields s.stepped.busyView
    have hphase : s.stepped.busyView.phase = .busy := (congrArg State.phase hframe :).trans hbusy
    refine ⟨hbit0.trans ?_, hbit1.trans ?_, hbit3.trans (congrArg State.ovr hframe :), hfield.trans ?_,
      fun hrun => hbit4.trans ?_, fun henc hencbuf => hbit2.trans ?_⟩
    · rw [State.busy, hphase]
      rfl
    · exact (congrArg State.done hframe :).trans hdone
    · exact (congrArg State.err hframe :).trans herr
    · obtain ⟨-, -, hpvalid⟩ := busyView_profile (s := s.stepped) hrun
      exact hpvalid
    · obtain ⟨-, hsat⟩ := busyView_counts (s := s.stepped) henc hencbuf
      exact hsat
  · rw [hframe]
    rcases hstored with rfl | rfl | rfl | rfl | rfl | rfl | rfl | rfl | rfl <;> rfl
  · obtain ⟨hp, hg, -⟩ := busyView_profile (s := s.stepped) hrun
    rcases hprofile with rfl | rfl
    · exact congrArg Profile.toWord hp
    · exact congrArg Group.toWord hg
  · subst hdout
    exact congrArg (BitVec.setWidth 32) (busyView_dout (s := s.stepped) henc hdec)
  · subst hsatcnt
    obtain ⟨hcount, -⟩ := busyView_counts (s := s.stepped) henc hencbuf
    exact hcount
  · subst houtlen
    exact busyView_outlen (s := s.stepped) hrun
  · subst hpad
    exact busyView_pad (s := s.stepped) hrun

/-! ### Memory accesses and ownership (20_memory.md R63) -/

section Ownership

variable {s : State} {addr len : Nat}

theorem bufferRuns_iff_running (s : State) :
    s.bufferRuns = true ↔ s.phase = .busy ∧ ∃ i, s.running = some i ∧ isBufferCommand i = true := by
  rw [State.bufferRuns, State.busy, Bool.and_eq_true, beq_iff_eq]
  cases s.running <;> simp

theorem isBufferCommand_of_shape {i : Instr} {sh : Shape} (h : shapeOf i s = some sh) : isBufferCommand i = true := by
  cases i with
  | cfg | enc | dec => cases h
  | encbuf | decbuf | pack | unpack => rfl

theorem touchesSource_iff :
    s.touchesSource addr len = true ↔ s.phase = .busy ∧ ∃ i, s.running = some i ∧ isBufferCommand i = true
      ∧ ∃ b, addr ≤ b ∧ b < addr + len ∧ s.cmd.src.toNat ≤ b ∧ b < s.cmd.src.toNat + 2 * s.cmd.count.toNat := by
  rw [State.touchesSource, Bool.and_eq_true, bufferRuns_iff_running, overlap_iff_exists, and_assoc]
  refine and_congr_right fun _ => ⟨?_, ?_⟩
  · rintro ⟨⟨i, hrun, hbuffer⟩, b, hb⟩
    exact ⟨i, hrun, hbuffer, b, hb⟩
  · rintro ⟨i, hrun, hbuffer, b, hb⟩
    exact ⟨⟨i, hrun, hbuffer⟩, b, hb⟩

theorem touchesDest_iff :
    s.touchesDest addr len = true ↔ s.phase = .busy ∧ ∃ i sh, s.running = some i ∧ shapeOf i s = some sh
      ∧ ∃ b, addr ≤ b ∧ b < addr + len ∧ s.cmd.dst.toNat ≤ b ∧ b < s.cmd.dst.toNat + 2 * sh.outcount := by
  rw [State.touchesDest, Bool.and_eq_true, bufferRuns_iff_running, and_assoc]
  refine and_congr_right fun _ => ?_
  constructor
  · rintro ⟨⟨i, hrun, -⟩, hoverlap⟩
    cases hsh : shapeOf i s with
    | none => simp [hrun, hsh] at hoverlap
    | some sh =>
      simp only [hrun, Option.bind_some, hsh] at hoverlap
      exact ⟨i, sh, hrun, hsh, overlap_iff_exists.mp hoverlap⟩
  · rintro ⟨i, sh, hrun, hsh, hshared⟩
    refine ⟨⟨i, hrun, isBufferCommand_of_shape hsh⟩, ?_⟩
    simp only [hrun, Option.bind_some, hsh]
    exact overlap_iff_exists.mpr hshared

theorem hostReadFault_beyond (h : 2 ^ 32 < addr + len) : s.hostReadFault addr len = some .outsideMemory := if_pos h

theorem hostWriteFault_beyond (h : 2 ^ 32 < addr + len) : s.hostWriteFault addr len = some .outsideMemory := if_pos h

theorem hostReadFault_within (h : addr + len ≤ 2 ^ 32) :
    s.hostReadFault addr len = if s.touchesDest addr len then some .hazard else none := if_neg (Nat.not_lt.mpr h)

theorem hostWriteFault_within (h : addr + len ≤ 2 ^ 32) :
    s.hostWriteFault addr len = if s.touchesSource addr len || s.touchesDest addr len then some .hazard else none :=
  if_neg (Nat.not_lt.mpr h)

/-- While Idle no range is owned. -/
theorem hostFaults_of_idle (hidle : s.phase = .idle) (h : addr + len ≤ 2 ^ 32) :
    s.hostReadFault addr len = none ∧ s.hostWriteFault addr len = none := by
  have hsource : s.touchesSource addr len = false := by
    rw [State.touchesSource, State.bufferRuns_of_idle hidle, Bool.false_and]
  have hdest : s.touchesDest addr len = false := by
    rw [State.touchesDest, State.bufferRuns_of_idle hidle, Bool.false_and]
  rw [hostReadFault_within h, hostWriteFault_within h, hsource, hdest]
  exact ⟨rfl, rfl⟩

end Ownership

/-- Settles O52: the two fault functions, with the ranges in the statement's words. -/
theorem hostAccessToAnOwnedRangeIsAHazard : Obligations.HostAccessToAnOwnedRangeIsAHazard := by
  intro s a len write read m reply rest inSource inDest haccess hsource hdest
  have hsource' : s.stepped.touchesSource a.toNat len = true ↔ inSource := touchesSource_iff.trans hsource.symm
  have hdest' : s.stepped.touchesDest a.toNat len = true ↔ inDest := touchesDest_iff.trans hdest.symm
  have hwrite : stepEvent (.mem write) s.stepped
      = outcomeUnless (s.stepped.hostWriteFault a.toNat len) { s.stepped with mem := m } := by
    rcases haccess with ⟨rfl, -, -, v, rfl, rfl⟩ | ⟨rfl, -, -, v, rfl, rfl⟩ <;> rfl
  have hread : stepEvent (.mem read) s.stepped
      = outcomeUnless (s.stepped.hostReadFault a.toNat len) { s.stepped with replies := reply :: s.replies } := by
    rcases haccess with ⟨rfl, rfl, rfl, -⟩ | ⟨rfl, rfl, rfl, -⟩ <;> rfl
  refine ⟨fun hp => ?_, fun hp => ?_⟩
  · rw [step_of_event hp, hwrite]
    refine ⟨fun hout => ?_, fun hin howned => ?_, fun hin hnotsource hnotdest => ?_⟩
    · rw [hostWriteFault_beyond hout]
      rfl
    · rw [hostWriteFault_within hin, if_pos (by rwa [Bool.or_eq_true, hsource', hdest'])]
      rfl
    · rw [hostWriteFault_within hin, if_neg (by
        rw [Bool.or_eq_true, hsource', hdest']
        exact not_or.mpr ⟨hnotsource, hnotdest⟩)]
      rfl
  · rw [step_of_event hp, hread]
    refine ⟨fun hout => ?_, fun hin howned => ?_, fun hin hnotdest => ?_⟩
    · rw [hostReadFault_beyond hout]
      rfl
    · rw [hostReadFault_within hin, if_pos (hdest'.mpr howned)]
      rfl
    · rw [hostReadFault_within hin, if_neg (mt hdest'.mp hnotdest)]
      rfl

/-- The two bytes of a halfword, as numbers (20_memory.md R53). -/
theorem toNat_halfBytes (v : Half) :
    (v.extractLsb' 0 8).toNat = v.toNat % 2 ^ 8 ∧ (v.extractLsb' 8 8).toNat = v.toNat / 2 ^ 8 := by
  have hv := v.isLt
  rw [BitVec.extractLsb'_toNat, BitVec.extractLsb'_toNat, Nat.shiftRight_zero, Nat.shiftRight_eq_div_pow]
  exact ⟨rfl, by omega⟩

/-- Settles O53: the store goes on while Idle, and so does the read of the state it leaves. -/
theorem hostHalfwordsAreLittleEndian : Obligations.HostHalfwordsAreLittleEndian := by
  intro s a v rest hm hidle hin hp
  obtain ⟨-, hwrite⟩ := hostFaults_of_idle (s := s.stepped) hidle hin
  obtain ⟨hlow, hhigh⟩ := toNat_halfBytes v
  have hbyte := Memory.readByte_writeHalf hm hin v
  let t : State := { s.stepped with mem := s.mem.writeHalf a.toNat v }
  have htp : t.pending = .mem (.readHalf a) :: rest := congrArg List.tail hp
  obtain ⟨hread, -⟩ := hostFaults_of_idle (s := t.stepped) hidle hin
  refine ⟨t, ?_, ?_, ?_, fun b hb hb' => ?_, rfl, ?_⟩
  · rw [step_of_event hp, stepEvent, State.memAccess, hwrite]
    rfl
  · exact ((congrArg BitVec.toNat (hbyte a.toNat)).trans (by rw [if_pos rfl])).trans hlow
  · exact ((congrArg BitVec.toNat (hbyte (a.toNat + 1))).trans (by rw [if_neg (by omega), if_pos rfl])).trans hhigh
  · exact (hbyte b).trans (by rw [if_neg hb, if_neg hb'])
  · have hvalue : t.stepped.mem.readHalf a.toNat = v := Memory.readHalf_writeHalf_same hm hin v
    rw [step_of_event htp, stepEvent, State.memAccess, hread, hvalue]
    rfl

end Sys2Proof.Machine
end

section
/-! ## The buffer commands that complete in full (42_codec.md section 2, 43_packer.md section 2) -/

namespace Sys2Proof.Machine

/-! ### A transfer that completes -/

/-- An undisturbed buffer command whose launch checks pass ends in full. -/
theorem exec_full {i : Instr} {s : State} {sh : Shape} (hsh : shapeOf i s = some sh) (hcheck : bufferCheckOf i s = none)
    (hund : s.Undisturbed) : exec i s = .next (s.endFull sh (groupOf i s) (newPadOf i s)) := by
  rw [exec_eq_transfer hsh, hcheck, transfer_of_undisturbed hund]

/-- What a transfer that completes leaves, where no host write met it. -/
theorem endFull_of_clear {s : State} (hclear : s.hazard = Hazard.clear) {sh : Shape} {body : Nat → Memory → GroupOut}
    {newPad : Word} {sats : Nat} (hsats : (runGroups s.cmd.dst.toNat sh.per body s.mem sh.ng).sats = sats) :
    s.endFull sh body newPad =
      { s with
        mem := (s.endFull sh body newPad).mem, outlen := BitVec.ofNat 32 sh.outcount
        satcnt := addSats s.satcnt sats, sat := s.sat || decide (0 < sats), pad := newPad }.completed 0 := by
  have hclear' : State.hazard { s with pad := newPad } = Hazard.clear := hclear
  subst hsats
  rw [State.endFull, State.finish, settledSatcnt_of_clear hclear', settledSat_of_clear hclear']
  rfl

section Groups

variable {s : State} {sh : Shape} {body : Nat → Memory → GroupOut} {newPad : Word}

/-- A transfer that completes leaves every byte outside its destination. -/
theorem readByte_endFull_outside (hm : s.mem.wf = true) (hl : sh.Lawful) (hf : Fills sh body)
    (hfit : s.cmd.dst.toNat + 2 * sh.outcount ≤ 2 ^ 32) {a : Nat}
    (ha : a < s.cmd.dst.toNat ∨ s.cmd.dst.toNat + 2 * sh.outcount ≤ a) :
    (s.endFull sh body newPad).mem.readByte a = s.mem.readByte a :=
  readByte_runGroups_outside hm hl hf hfit le_rfl (by rwa [hl.out_ng])

/-- A group that finds its source as the command found it puts its halfwords in its own destination elements. -/
theorem readHalf_endFull (hm : s.mem.wf = true) (hl : sh.Lawful) (hf : Fills sh body)
    (hfit : s.cmd.dst.toNat + 2 * sh.outcount ≤ 2 ^ 32) {j : Nat} (hj : j < sh.ng)
    (hbody : body j (runGroups s.cmd.dst.toNat sh.per body s.mem j).mem = body j s.mem) {i : Nat}
    (hi : i < (body j s.mem).halves.length) :
    (s.endFull sh body newPad).mem.readHalf (s.cmd.dst.toNat + 2 * (j * sh.per + i)) = (body j s.mem).halves[i] := by
  have hi' : i < (body j (runGroups s.cmd.dst.toNat sh.per body s.mem j).mem).halves.length := by rwa [hbody]
  have hread := readHalf_runGroups hm hl hf hfit hj le_rfl hi'
  simp only [hbody] at hread
  exact hread

end Groups

/-! ### ENCBUF and DECBUF (42_codec.md R153 to R156) -/

section Elements

variable {s : State} (hm : s.mem.wf = true) (hprofile : s.pvalid = true) (hund : s.Undisturbed) (haligned : s.aligned)
  (hrange : s.inRange s.cmd.count.toNat) (hplace : s.apart s.cmd.count.toNat ∨ s.cmd.src = s.cmd.dst)

include hprofile haligned hrange hplace in
theorem elementCheck_eq_none : elementCheck s = none :=
  bufferCheck_eq_none_iff.mpr
    ⟨hprofile, haligned, rfl, hrange, hplace.imp_right fun h => ⟨rfl, congrArg BitVec.toNat h, rfl⟩⟩

theorem ofNat_count (s : State) : BitVec.ofNat 32 s.cmd.count.toNat = s.cmd.count := by simp

include hm hprofile hund haligned hrange hplace

/-- ENCBUF of source and destination that are apart or in place. -/
theorem exec_encbuf_spec :
    ∃ t, exec .encbuf s = .next t
      ∧ t = { s with
          mem := t.mem
          outlen := s.cmd.count
          satcnt := addSats s.satcnt (s.satEvents s.cmd.count.toNat)
          sat := s.sat || decide (0 < s.satEvents s.cmd.count.toNat) }.completed 0
      ∧ (∀ i, i < s.cmd.count.toNat →
          t.mem.readHalf (s.cmd.dst.toNat + 2 * i) = BitVec.ofNat 16 (encodeSample s.active (s.sourceHalf i)).word)
      ∧ ∀ a, a < s.cmd.dst.toNat ∨ s.cmd.dst.toNat + 2 * s.cmd.count.toNat ≤ a →
          t.mem.readByte a = s.mem.readByte a := by
  have hplace' := hplace.imp_right (congrArg BitVec.toNat)
  have hcheck := elementCheck_eq_none hprofile haligned hrange hplace
  have hfull := endFull_of_clear hund.no_hazard (sh := elementShape s) (body := encbufGroup s) (newPad := s.pad)
    (encbuf_sats hm hrange hplace' le_rfl)
  refine ⟨_, exec_full (i := .encbuf) rfl hcheck hund, ?_, fun i hi => ?_, fun a ha => ?_⟩
  · refine hfull.trans ?_
    rw [show (elementShape s).outcount = s.cmd.count.toNat from rfl, ofNat_count]
    rfl
  · exact readHalf_elements hm hrange (encbufGroup_fills s) hi (encbufGroup_runGroups hm hrange hplace' hi) rfl
  · exact readByte_endFull_outside hm (elementShape_lawful s) (encbufGroup_fills s) hrange.2 ha

/-- DECBUF of source and destination that are apart or in place. -/
theorem exec_decbuf_spec :
    ∃ t, exec .decbuf s = .next t
      ∧ t = { s with mem := t.mem, outlen := s.cmd.count }.completed 0
      ∧ (∀ i, i < s.cmd.count.toNat →
          t.mem.readHalf (s.cmd.dst.toNat + 2 * i) = decodeWord s.active (usedWord s.active (s.sourceHalf i)))
      ∧ ∀ a, a < s.cmd.dst.toNat ∨ s.cmd.dst.toNat + 2 * s.cmd.count.toNat ≤ a →
          t.mem.readByte a = s.mem.readByte a := by
  have hplace' := hplace.imp_right (congrArg BitVec.toNat)
  have hcheck := elementCheck_eq_none hprofile haligned hrange hplace
  have hfull := endFull_of_clear hund.no_hazard (sh := elementShape s) (newPad := s.pad)
    (runGroups_sats_zero (decbufGroup_sats s) _)
  refine ⟨_, exec_full (i := .decbuf) rfl hcheck hund, ?_, fun i hi => ?_, fun a ha => ?_⟩
  · refine hfull.trans ?_
    rw [show (elementShape s).outcount = s.cmd.count.toNat from rfl, ofNat_count, addSats_zero,
      decide_eq_false (lt_irrefl 0), Bool.or_false]
    rfl
  · exact readHalf_elements hm hrange (decbufGroup_fills s) hi (decbufGroup_runGroups hm hrange hplace' hi) rfl
  · exact readByte_endFull_outside hm (elementShape_lawful s) (decbufGroup_fills s) hrange.2 ha

end Elements

/-- Settles O24: `exec_encbuf_spec`, with the count of events in one sum. -/
theorem encbufEncodesEverySample : Obligations.EncbufEncodesEverySample := by
  rintro s n rfl hm hprofile hund haligned hrange hplace
  rw [← addSats_eq]
  exact exec_encbuf_spec hm hprofile hund haligned hrange hplace

/-- Settles O25: `exec_decbuf_spec`, with the used bits of a code word as a remainder. -/
theorem decbufDecodesEveryWord : Obligations.DecbufDecodesEveryWord := by
  rintro s n rfl hm hprofile hund haligned hrange hplace
  simp only [← usedWord_eq]
  exact exec_decbuf_spec hm hprofile hund haligned hrange hplace

/-- Settles O26: both the buffer command and the single command give the codec's value. -/
theorem bufferCommandsAgreeWithSingleCommands : Obligations.BufferCommandsAgreeWithSingleCommands := by
  rintro s n i rfl hi hm hprofile hund haligned hrange hplace
  obtain ⟨t, ht, -, henc, -⟩ := exec_encbuf_spec hm hprofile hund haligned hrange hplace
  obtain ⟨u, hu, -, hdec, -⟩ := exec_decbuf_spec hm hprofile hund haligned hrange hplace
  have hprofile' : State.pvalid { s with cmd := { s.cmd with din := s.sourceHalf i } } = true := hprofile
  exact ⟨⟨t, _, ht, exec_enc_of_profile hprofile', henc i hi⟩, u, _, hu, exec_dec_of_profile hprofile', hdec i hi⟩

/-! ### PACK (43_packer.md R184, R185) -/

/-- The bit string of group `j` of PACK (30_encoding.md R79). -/
def packString (s : State) (j : Nat) : Nat :=
  concatFields s.active.outbit ((List.range s.active.G).map fun i => packWord s s.mem (j * s.active.G + i))

theorem packWord_lt (s : State) (m : Memory) (idx : Nat) : packWord s m idx < 2 ^ s.active.outbit := by
  rw [packWord]
  split
  · exact bitField_lt _ _ _
  · positivity

theorem packString_eq_sum (s : State) (j : Nat) :
    packString s j = ∑ i ∈ Finset.range s.active.G,
      packWord s s.mem (j * s.active.G + i) * 2 ^ (s.active.outbit * (s.active.G - 1 - i)) :=
  concatFields_eq_sum _ _ _ fun _ _ => packWord_lt ..

/-- PACK writes each group's bit string in storage units, the first most significant. -/
theorem exec_pack_spec {s : State} (hm : s.mem.wf = true) (hprofile : s.pvalid = true) (hund : s.Undisturbed)
    (haligned : s.aligned) (hrange : s.inRange (packShape s).outcount) (hapart : s.apart (packShape s).outcount) :
    ∃ t, exec .pack s = .next t
      ∧ t = { s with
          mem := t.mem, outlen := BitVec.ofNat 32 (packShape s).outcount
          pad := BitVec.ofNat 32 (packPadding s) }.completed 0
      ∧ (∀ j i, j < (packShape s).ng → i < s.active.k →
          (t.mem.readHalf (s.cmd.dst.toNat + 2 * (j * s.active.k + i))).toNat
            = bitField (packString s j) (16 * (s.active.k - 1 - i)) 16)
      ∧ ∀ a, a < s.cmd.dst.toNat ∨ s.cmd.dst.toNat + 2 * (packShape s).outcount ≤ a →
          t.mem.readByte a = s.mem.readByte a := by
  have hcheck : packCheck s = none :=
    bufferCheck_eq_none_iff.mpr ⟨hprofile, haligned, rfl, hrange, .inl hapart⟩
  have hfull := endFull_of_clear hund.no_hazard (sh := packShape s) (newPad := BitVec.ofNat 32 (packPadding s))
    (runGroups_sats_zero (packGroup_sats s) _)
  have hexec := exec_full (i := .pack) rfl hcheck hund
  rw [newPadOf, settledPad_of_clear hund.no_hazard] at hexec
  refine ⟨_, hexec, ?_, fun j i hj hi => ?_, fun a ha => ?_⟩
  · refine hfull.trans ?_
    rw [addSats_zero, decide_eq_false (lt_irrefl 0), Bool.or_false]
    rfl
  · have hread := readHalf_endFull (newPad := BitVec.ofNat 32 (packPadding s)) hm (packShape_lawful s)
      (packGroup_fills s) hrange.2 hj (packGroup_runGroups hm hrange hapart hj.le)
      (by rw [length_packGroup]; exact hi)
    refine (congrArg BitVec.toNat hread).trans ?_
    simp only [packGroup, List.getElem_map, getElem_splitFields, BitVec.toNat_ofNat]
    exact Nat.mod_eq_of_lt (bitField_lt _ _ _)
  · exact readByte_endFull_outside hm (packShape_lawful s) (packGroup_fills s) hrange.2 ha

/-- Settles O27: the bit string of a group is the statement's sum. -/
theorem packWritesThePackedStream : Obligations.PackWritesThePackedStream := by
  rintro s n ng k G outbit word B rfl rfl rfl rfl rfl hword hB hinv hprofile hund haligned hrange hapart
  have hstring (j : Nat) : B j = packString s j := by
    rw [hB, packString_eq_sum]
    simp only [hword, packWord, usedWord_eq, State.sourceHalf]
  simp only [hstring, ← bitField_eq]
  exact exec_pack_spec hinv.mem_wf hprofile hund haligned hrange hapart

/-! ### UNPACK (43_packer.md R188) -/

/-- The bit string of group `j` of UNPACK (30_encoding.md R79). -/
def unpackString (s : State) (j : Nat) : Nat :=
  concatFields 16 ((List.range s.active.k).map fun t => (s.sourceHalf (j * s.active.k + t)).toNat)

theorem unpackString_eq_sum (s : State) (j : Nat) :
    unpackString s j = ∑ t ∈ Finset.range s.active.k,
      (s.sourceHalf (j * s.active.k + t)).toNat * 2 ^ (16 * (s.active.k - 1 - t)) :=
  concatFields_eq_sum _ _ _ fun _ _ => BitVec.isLt _

/-- UNPACK writes the code words of each group's bit string, without the padding. -/
theorem exec_unpack_spec {s : State} (hm : s.mem.wf = true) (houtbit : s.active.outbit ≤ 16)
    (hprofile : s.pvalid = true) (hund : s.Undisturbed) (haligned : s.aligned) (hstream : s.streamOk)
    (hrange : s.inRange (unpackShape s).outcount) (hapart : s.apart (unpackShape s).outcount) :
    ∃ t, exec .unpack s = .next t
      ∧ t = { s with mem := t.mem, outlen := BitVec.ofNat 32 (unpackShape s).outcount }.completed 0
      ∧ (∀ j i, i < s.active.G → j * s.active.G + i < (unpackShape s).outcount →
          (t.mem.readHalf (s.cmd.dst.toNat + 2 * (j * s.active.G + i))).toNat
            = bitField (unpackString s j) (s.active.outbit * (s.active.G - 1 - i)) s.active.outbit)
      ∧ ∀ a, a < s.cmd.dst.toNat ∨ s.cmd.dst.toNat + 2 * (unpackShape s).outcount ≤ a →
          t.mem.readByte a = s.mem.readByte a := by
  have hlawful := unpackShape_lawful hstream
  have hcheck : unpackCheck s = none :=
    bufferCheck_eq_none_iff.mpr ⟨hprofile, haligned, (streamBad_eq_false_iff s).mpr hstream, hrange, .inl hapart⟩
  have hfull := endFull_of_clear hund.no_hazard (sh := unpackShape s) (newPad := s.pad)
    (runGroups_sats_zero (unpackGroup_sats s) _)
  refine ⟨_, exec_full (i := .unpack) rfl hcheck hund, ?_, fun j i hi hlt => ?_, fun a ha => ?_⟩
  · refine hfull.trans ?_
    rw [addSats_zero, decide_eq_false (lt_irrefl 0), Bool.or_false]
    rfl
  · have hlen : i < (unpackGroup s j s.mem).halves.length := by
      rw [length_unpackGroup]
      omega
    have hj : j < (unpackShape s).ng := by
      have hle : j * s.active.G < (unpackShape s).ng * s.active.G := by
        have := hlawful.outcount_le
        change (unpackShape s).outcount ≤ (unpackShape s).ng * s.active.G at this
        omega
      exact Nat.lt_of_mul_lt_mul_right hle
    have hread := readHalf_endFull (newPad := s.pad) hm hlawful (unpackGroup_fills hstream) hrange.2 hj
      (unpackGroup_runGroups hm hstream hrange hapart hj) hlen
    refine (congrArg BitVec.toNat hread).trans ?_
    simp only [unpackGroup, List.getElem_map, List.getElem_take, getElem_splitFields, BitVec.toNat_ofNat]
    exact Nat.mod_eq_of_lt (lt_of_lt_of_le (bitField_lt _ _ _) (Nat.pow_le_pow_right (by omega) houtbit))
  · exact readByte_endFull_outside hm hlawful (unpackGroup_fills hstream) hrange.2 ha

/-- Settles O28: the bit string of a group is the statement's sum. -/
theorem unpackWritesTheCodeWords : Obligations.UnpackWritesTheCodeWords := by
  rintro s n k G outbit B rfl rfl rfl rfl hB hinv hprofile hund haligned hstream hrange hapart
  obtain ⟨-, hlegal, -⟩ := hinv.profile_valid hprofile
  have hstring (j : Nat) : B j = unpackString s j := by rw [hB, unpackString_eq_sum]
  simp only [hstring, ← bitField_eq]
  exact exec_unpack_spec hinv.mem_wf hlegal.outbit_le hprofile hund haligned hstream hrange hapart

/-! ### PACK, then UNPACK (43_packer.md R190, R192) -/

/-- A PACK's group fills its storage units exactly, so unpacking the units gives back its bit string. -/
theorem unpackString_of_units {s u : State} {j : Nat} (hgroup : s.active.G * s.active.outbit = 16 * s.active.k)
    (hactive : u.active = s.active)
    (hunits : ∀ i, i < s.active.k →
      (u.sourceHalf (j * s.active.k + i)).toNat = bitField (packString s j) (16 * (s.active.k - 1 - i)) 16) :
    unpackString u j = packString s j := by
  have hlt : packString s j < 2 ^ (16 * s.active.k) := by
    have hfields := concatFields_lt s.active.outbit
      ((List.range s.active.G).map fun i => packWord s s.mem (j * s.active.G + i)) fun v hv => by
        obtain ⟨i, -, rfl⟩ := List.mem_map.mp hv
        exact packWord_lt ..
    rw [List.length_map, List.length_range, Nat.mul_comm s.active.outbit, hgroup] at hfields
    exact hfields
  have hsplit : ((List.range s.active.k).map fun i => (u.sourceHalf (j * s.active.k + i)).toNat)
      = splitFields 16 s.active.k (packString s j) :=
    List.map_congr_left fun i hi => hunits i (List.mem_range.mp hi)
  rw [unpackString, hactive, hsplit, concatFields_splitFields, Nat.mod_eq_of_lt hlt]

/-- Field `i` of a PACK's bit string is code word `i` of its group. -/
theorem bitField_packString (s : State) (j : Nat) {i : Nat} (hi : i < s.active.G) :
    bitField (packString s j) (s.active.outbit * (s.active.G - 1 - i)) s.active.outbit
      = packWord s s.mem (j * s.active.G + i) := by
  have hfield := bitField_concatFields s.active.outbit
    ((List.range s.active.G).map fun i => packWord s s.mem (j * s.active.G + i))
    (fun v hv => by
      obtain ⟨i, -, rfl⟩ := List.mem_map.mp hv
      exact packWord_lt ..)
    (i := i) (by simpa using hi)
  simpa [packString] using hfield

/-- The UNPACK that follows a PACK: COUNT = OUTLEN and PAD = PAD, from the PACK's destination to `dst`. -/
def State.thenUnpack (t : State) (word src dst : Word) : State :=
  { t with cmd := ⟨word, src, dst, t.outlen, t.pad, t.din, t.profileCfg⟩ }

/-- The count and the padding that a PACK leaves are those of a stream of its own count of words. -/
theorem thenUnpack_operands {s t : State} {word dst : Word} (hk : 1 ≤ s.active.k) (hG : 1 ≤ s.active.G)
    (hG16 : s.active.G ≤ 16) (hfit : (packShape s).outcount < 2 ^ 32)
    (hform : t = { s with
      mem := t.mem, outlen := BitVec.ofNat 32 (packShape s).outcount
      pad := BitVec.ofNat 32 (packPadding s) }.completed 0) :
    (t.thenUnpack word s.cmd.dst dst).active = s.active
      ∧ (t.thenUnpack word s.cmd.dst dst).cmd.count.toNat = (packShape s).outcount
      ∧ (t.thenUnpack word s.cmd.dst dst).streamOk
      ∧ (unpackShape (t.thenUnpack word s.cmd.dst dst)).outcount = s.cmd.count.toNat := by
  have hactive : (t.thenUnpack word s.cmd.dst dst).active = s.active := (congrArg State.active hform :)
  have hcover : s.cmd.count.toNat ≤ (packShape s).ng * s.active.G := le_ceilDiv_mul _ hG
  have hless : (packShape s).ng * s.active.G < s.cmd.count.toNat + s.active.G := ceilDiv_mul_lt_add _ hG
  have hpadding : packPadding s = (packShape s).ng * s.active.G - s.cmd.count.toNat := rfl
  have hcount : (t.thenUnpack word s.cmd.dst dst).cmd.count.toNat = (packShape s).ng * s.active.k := by
    have hout : t.outlen = BitVec.ofNat 32 (packShape s).outcount := (congrArg State.outlen hform :)
    exact (congrArg BitVec.toNat hout).trans (Nat.mod_eq_of_lt hfit)
  have hpad : (t.thenUnpack word s.cmd.dst dst).cmd.pad.toNat = packPadding s := by
    have hout : t.pad = BitVec.ofNat 32 (packPadding s) := (congrArg State.pad hform :)
    exact (congrArg BitVec.toNat hout).trans (Nat.mod_eq_of_lt (by omega))
  refine ⟨hactive, hcount, ?_, ?_⟩
  · rw [State.streamOk, hactive, hcount, hpad]
    refine ⟨Nat.mul_mod_left _ _, fun h0 => ?_, fun _ => by omega⟩
    have hng : (packShape s).ng = 0 := (Nat.mul_eq_zero.mp h0).resolve_right (by omega)
    rw [hpadding, hng, Nat.zero_mul, Nat.zero_sub]
  · have hgroups : (t.thenUnpack word s.cmd.dst dst).cmd.count.toNat / s.active.k = (packShape s).ng := by
      rw [hcount, Nat.mul_div_cancel _ hk]
    rw [unpackShape, hactive, hgroups, hpad]
    change (packShape s).ng * s.active.G - packPadding s = s.cmd.count.toNat
    omega

/-- Settles O29: the UNPACK finds the PACK's units as its source, and its stream passes every check. -/
theorem packThenUnpackGivesBackTheWords : Obligations.PackThenUnpackGivesBackTheWords := by
  rintro s n ng word dst rfl rfl hinv hprofile hund haligned hrange hapart hdst hfits hclear
  obtain ⟨-, hlegal, hgrouped⟩ := hinv.profile_valid hprofile
  obtain ⟨hk, -, hG, hG16, hgroup⟩ := hlegal.group hgrouped
  have hdstfit : s.cmd.dst.toNat + 2 * (packShape s).outcount ≤ 2 ^ 32 := hrange.2
  obtain ⟨t, ht, hform, hunits, -⟩ := exec_pack_spec hinv.mem_wf hprofile hund haligned hrange hapart
  obtain ⟨hactive, hcount, hstream, hwords⟩ :=
    thenUnpack_operands (word := word) (dst := dst) hk hG hG16 (by omega) hform
  have hrange' : (t.thenUnpack word s.cmd.dst dst).inRange s.cmd.count.toNat := by
    rw [State.inRange, hcount]
    exact ⟨hdstfit, hfits⟩
  have hapart' : (t.thenUnpack word s.cmd.dst dst).apart s.cmd.count.toNat := by
    rw [State.apart, hcount]
    exact .inr (.inr hclear.symm)
  have hund' : (t.thenUnpack word s.cmd.dst dst).Undisturbed := by
    have hparams : t.params = s.params := (congrArg State.params hform :)
    exact ⟨(congrArg State.abortReq hform :), (congrArg Params.memErrors hparams).trans hund.no_mem_errors,
      (congrArg State.hazard hform :)⟩
  obtain ⟨hmem, -⟩ := exec_mem hinv.mem_wf ht
  have hprofile' : t.pvalid = true := (congrArg State.pvalid hform :).trans hprofile
  rw [← hwords] at hrange' hapart'
  obtain ⟨u, hu, huform, hcodes, -⟩ := exec_unpack_spec (s := t.thenUnpack word s.cmd.dst dst) hmem
    (hactive ▸ hlegal.outbit_le) hprofile' hund' ⟨haligned.2, hdst⟩ hstream hrange' hapart'
  rw [hwords] at huform hcodes
  refine ⟨t, u, ht, (congrArg State.err hform :), hu, (congrArg State.err huform :),
    (congrArg State.outlen huform :).trans (ofNat_count s), fun i hi => ?_⟩
  have hj : i / s.active.G < (packShape s).ng :=
    Nat.div_lt_of_lt_mul (lt_of_lt_of_le hi (Nat.mul_comm .. ▸ le_ceilDiv_mul _ hG))
  have hr : i % s.active.G < s.active.G := Nat.mod_lt _ hG
  have hindex : i / s.active.G * s.active.G + i % s.active.G = i := Nat.div_add_mod' ..
  have hcode := hcodes (i / s.active.G) (i % s.active.G) (by rw [hactive]; exact hr) (by rw [hactive, hindex]; exact hi)
  have hstring := unpackString_of_units hgroup hactive fun t ht => hunits (i / s.active.G) t hj ht
  rw [hactive, hindex, hstring, bitField_packString s _ hr, hindex, packWord, if_pos hi, usedWord_eq] at hcode
  exact hcode

end Sys2Proof.Machine
end

section
/-! ## The other endings of a buffer command, and what host writes that met a command leave (40_command_cycle.md R101
to R103, 70_reset_and_hazards.md R246) -/

namespace Sys2Proof.Machine

/-! ### A transfer by its ending -/

/-- The state that a transfer leaves, by how it ends. -/
def State.ended (s : State) (sh : Shape) (body : Nat → Memory → GroupOut) (newPad : Word) : Ending → State
  | .full => s.endFull sh body newPad
  | .aborted js => s.endAborted sh body js
  | .bus jf => s.endBus sh body jf

theorem transfer_of_ending (s : State) (sh : Shape) (body : Nat → Memory → GroupOut) (newPad : Word) :
    s.transfer none sh body newPad = .next (s.ended sh body newPad (s.ending sh.ng)) := by
  unfold State.transfer
  cases s.ending sh.ng <;> rfl

/-- The same state with or without an abort request and with or without memory errors. -/
def State.withEndings (s : State) (abortReq memErrors : Bool) : State :=
  { s with abortReq := abortReq, params := { s.params with memErrors := memErrors } }

theorem withEndings_of_memErrors {s : State} {memErrors : Bool} (h : s.params.memErrors = memErrors) (abortReq : Bool) :
    s.withEndings abortReq memErrors = { s with abortReq := abortReq } := by
  subst h
  rfl

theorem withEndings_of_abortReq {s : State} {abortReq : Bool} (h : s.abortReq = abortReq) (memErrors : Bool) :
    s.withEndings abortReq memErrors = { s with params := { s.params with memErrors := memErrors } } := by
  subst h
  rfl

theorem params_with_memErrors {p : Params} {memErrors : Bool} (h : p.memErrors = memErrors) :
    { p with memErrors := memErrors } = p := by
  subst h
  rfl

section WithEndings

variable {s : State} {i : Instr} {sh : Shape} (abortReq memErrors : Bool)

/-- The groups, the launch checks and the final PAD do not depend on how a transfer may end. -/
theorem exec_withEndings (hsh : shapeOf i s = some sh) :
    exec i (s.withEndings abortReq memErrors) =
      (s.withEndings abortReq memErrors).transfer (bufferCheckOf i s) sh (groupOf i s) (newPadOf i s) := by
  cases i with
  | cfg | enc | dec => cases hsh
  | encbuf | decbuf | pack | unpack =>
    cases hsh
    rfl

/-- Nor does what each ending leaves, but for the parameters themselves. -/
theorem ended_withEndings (body : Nat → Memory → GroupOut) (newPad : Word) (e : Ending) :
    (s.withEndings abortReq memErrors).ended sh body newPad e =
      { s.ended sh body newPad e with params := { s.params with memErrors := memErrors } } := by
  cases e <;> rfl

/-- A buffer command whose launch checks pass, by the ending that the request and the parameter give it. -/
theorem exec_withEndings_of_check (hsh : shapeOf i s = some sh) (hcheck : bufferCheckOf i s = none) {e : Ending}
    (he : (s.withEndings abortReq memErrors).ending sh.ng = e) :
    exec i (s.withEndings abortReq memErrors) =
      .next { s.ended sh (groupOf i s) (newPadOf i s) e with params := { s.params with memErrors := memErrors } } := by
  rw [exec_withEndings abortReq memErrors hsh, hcheck, transfer_of_ending, ended_withEndings, he]

theorem exec_of_ending (hsh : shapeOf i s = some sh) (hcheck : bufferCheckOf i s = none) {e : Ending}
    (he : s.ending sh.ng = e) : exec i s = .next (s.ended sh (groupOf i s) (newPadOf i s) e) := by
  rw [exec_eq_transfer hsh, hcheck, transfer_of_ending, he]

end WithEndings

section Endings

variable {s : State} {i : Instr} {sh : Shape} (hsh : shapeOf i s = some sh) (hcheck : bufferCheckOf i s = none)
include hsh hcheck

/-- What the first `j` groups count, where no host write met the command. -/
theorem counts_of_groups (hm : s.mem.wf = true) (hclear : s.hazard = Hazard.clear) {j : Nat} (hj : j ≤ sh.ng)
    {sats : Nat} (hsats : sats = (runGroups s.cmd.dst.toNat sh.per (groupOf i s) s.mem j).sats) :
    (i = .encbuf → (s.settledSatcnt sats).toNat = min (s.satcnt.toNat + s.satEvents j) (2 ^ 32 - 1)
        ∧ s.settledSat sats = (s.sat || decide (0 < s.satEvents j)))
      ∧ (i ≠ .encbuf → s.settledSatcnt sats = s.satcnt ∧ s.settledSat sats = s.sat) := by
  subst hsats
  rw [settledSatcnt_of_clear hclear, settledSat_of_clear hclear]
  refine ⟨fun hi => ?_, fun hi => ?_⟩
  · subst hi
    cases hsh
    have hevents := encbuf_sats_of_check hm hcheck (j := j) hj
    change (runGroups s.cmd.dst.toNat (elementShape s).per (groupOf .encbuf s) s.mem j).sats = s.satEvents j at hevents
    rw [hevents, toNat_addSats]
    exact ⟨rfl, rfl⟩
  · rw [runGroups_sats_zero (groupOf_sats s hi), addSats_zero, decide_eq_false (lt_irrefl 0), Bool.or_false]
    exact ⟨rfl, rfl⟩

/-- The first `j` groups leave their own destination as the whole transfer does, and every other byte alone. -/
theorem readByte_groups (hm : s.mem.wf = true) {j : Nat} (hj : j ≤ sh.ng) (a : Nat) :
    (runGroups s.cmd.dst.toNat sh.per (groupOf i s) s.mem j).mem.readByte a =
      if s.cmd.dst.toNat ≤ a ∧ a < s.cmd.dst.toNat + 2 * sh.out j then
        (s.endFull sh (groupOf i s) (newPadOf i s)).mem.readByte a
      else s.mem.readByte a := by
  obtain ⟨hl, hf, hfit⟩ := groupOf_lawful hsh hcheck
  split
  · exact (readByte_runGroups_mono hm hl hf hfit hj le_rfl (.inl (by omega))).symm
  · exact readByte_runGroups_outside hm hl hf hfit hj (by omega)

end Endings

/-- Settles O33: js is the free choice of the abort, and the first js groups are those of the whole transfer. -/
theorem abortLeavesAPrefixOfWholeGroups : Obligations.AbortLeavesAPrefixOfWholeGroups := by
  intro s i sh hsh hcheck hm habort hmem hclear
  have hending : s.ending sh.ng = s.abortEnding sh.ng := by rw [State.ending, habort, hmem]
  have hfull := exec_withEndings_of_check false false hsh hcheck (e := .full) rfl
  rw [withEndings_of_memErrors hmem, params_with_memErrors hmem] at hfull
  rcases abortEnding_cases s sh.ng with he | ⟨js, hjs, he⟩
  · have hexec := exec_of_ending hsh hcheck (hending.trans he)
    exact ⟨_, _, sh.ng, hexec, hfull, le_rfl, fun _ => rfl, fun hlt => absurd hlt (lt_irrefl _)⟩
  · have hexec := exec_of_ending hsh hcheck (hending.trans he)
    obtain ⟨hencbuf, hothers⟩ := counts_of_groups hsh hcheck hm hclear hjs.le rfl
    exact ⟨_, _, js, hexec, hfull, hjs.le, fun heq => absurd heq hjs.ne,
      fun _ => ⟨rfl, readByte_groups hsh hcheck hm hjs.le, hencbuf, hothers⟩⟩

/-- Settles O34: jf is the free choice of the bus, and the groups before it are those of the whole transfer. -/
theorem busErrorLeavesAPrefixOfWholeGroups : Obligations.BusErrorLeavesAPrefixOfWholeGroups := by
  intro s i sh hsh hcheck hm habort hmem hclear
  have hending : s.ending sh.ng = s.busEnding sh.ng := by rw [State.ending, habort, hmem]
  have hfull := exec_withEndings_of_check false false hsh hcheck (e := .full) rfl
  rw [withEndings_of_abortReq habort] at hfull
  rcases busEnding_cases s sh.ng with he | ⟨jf, hjf, he⟩
  · exact ⟨_, _, exec_of_ending hsh hcheck (hending.trans he), hfull, .inl rfl⟩
  · obtain ⟨hl, hf, hfit⟩ := groupOf_lawful hsh hcheck
    obtain ⟨hencbuf, hothers⟩ := counts_of_groups hsh hcheck hm hclear hjf.le rfl
    obtain ⟨-, hbytes⟩ := endBus_mem hm hl hf hfit hjf
    have hgroups := readByte_groups hsh hcheck hm hjf.le
    have hmono := sh.out_mono (show jf ≤ jf + 1 by omega)
    refine ⟨_, _, exec_of_ending hsh hcheck (hending.trans he), hfull,
      .inr ⟨jf, hjf, rfl, fun a hlo hhi => ?_, fun a ha => ?_, hencbuf, hothers⟩⟩
    · exact (hbytes a (.inl hhi)).trans ((hgroups a).trans (if_pos ⟨hlo, hhi⟩))
    · exact (hbytes a (by omega)).trans ((hgroups a).trans (if_neg (by omega)))

/-- Settles O35: the free Boolean picks one rule's ending, which the state without the other cause has too. -/
theorem abortAndBusErrorTakeEitherOutcome : Obligations.AbortAndBusErrorTakeEitherOutcome := by
  intro s i sh hsh habort hmem
  rw [← withEndings_of_abortReq habort false, ← withEndings_of_memErrors hmem false]
  cases hcheck : bufferCheckOf i s with
  | some e =>
    have hraise (abortReq memErrors : Bool) : exec i (s.withEndings abortReq memErrors)
        = .next ((s.withEndings abortReq memErrors).raiseBuffer e) := by
      rw [exec_withEndings abortReq memErrors hsh, hcheck]
      rfl
    have hself : exec i s = .next (s.raiseBuffer e) := by
      rw [exec_eq_transfer hsh, hcheck]
      rfl
    exact ⟨_, _, _, hself, hraise true false, hraise false true, .inl rfl⟩
  | none =>
    have hexec := exec_of_ending hsh hcheck (e := if Config.freeTakeBus s.draws then s.busEnding sh.ng
      else s.abortEnding sh.ng) (by rw [State.ending, habort, hmem])
    have hbus := exec_withEndings_of_check false true hsh hcheck (e := s.busEnding sh.ng) rfl
    have habortOnly := exec_withEndings_of_check true false hsh hcheck (e := s.abortEnding sh.ng) rfl
    rw [params_with_memErrors hmem] at hbus
    refine ⟨_, _, _, hexec, habortOnly, hbus, ?_⟩
    cases Config.freeTakeBus s.draws with
    | true => exact .inr (by cases s.busEnding sh.ng <;> rfl)
    | false => exact .inl (by cases s.abortEnding sh.ng <;> rfl)

/-! ### Host writes that met the command (70_reset_and_hazards.md R246) -/

theorem settledPad_cases (s : State) (w : Word) : s.settledPad w = s.pad ∨ s.settledPad w = w := by
  rw [State.settledPad]
  split
  · exact .inl rfl
  · exact .inr rfl

theorem exec_pack_pad {s t : State} (h : exec .pack s = .next t) :
    t.pad = s.pad ∨ (t.err = 0 ∧ t.pad = BitVec.ofNat 32 (packPadding s)) := by
  rcases transfer_pad h with hpad | ⟨herr, hpad⟩
  · exact .inl hpad
  · rcases settledPad_cases s (BitVec.ofNat 32 (packPadding s)) with hset | hset
    · exact .inl (hpad.trans hset)
    · exact .inr ⟨herr, hpad.trans hset⟩

/-- SATCNT after an ENC or ENCBUF counts the same events whatever the host wrote. -/
theorem exec_settles_satcnt {i : Instr} (hi : i = .enc ∨ i = .encbuf) (s : State) :
    ∃ n, ∀ (c : Word) (hz : Hazard) {t : State}, exec i { s with satcnt := c, hazard := hz } = .next t →
      t.satcnt = State.settledSatcnt { s with satcnt := c, hazard := hz } n := by
  rcases hi with rfl | rfl
  · rcases Bool.eq_false_or_eq_true s.pvalid with hprofile | hprofile
    · refine ⟨(encodeSample s.active s.cmd.din).sats, fun c hz t h => ?_⟩
      cases (exec_enc_of_profile (s := { s with satcnt := c, hazard := hz }) hprofile).symm.trans h
      rfl
    · refine ⟨0, fun c hz t h => ?_⟩
      cases (exec_enc_of_no_profile (s := { s with satcnt := c, hazard := hz }) hprofile).symm.trans h
      rfl
  · exact transfer_satcnt s (elementCheck s) (elementShape s) (encbufGroup s) s.pad

theorem Encoded.sats_eq (r : Encoded) : r.sats = if r.satev then 1 else 0 := by
  rw [Encoded.sats]
  cases r.satev <;> rfl

theorem settledSat_zero (s : State) : s.settledSat 0 = s.sat := rfl

/-- Settles O54: each count is one that the command settles, with at most the events of all its work. -/
theorem hazardousWritesLeaveBoundedValues : Obligations.HazardousWritesLeaveBoundedValues := by
  intro s
  refine ⟨fun t h => exec_pack_pad h, fun i t v before hi hbefore ht hv => ?_, fun t before hbefore h => ?_,
    fun t before hm hbefore h => ?_, fun t h hsat => ?_, fun t hm h hsat => ?_⟩
  · obtain ⟨n, hn⟩ := exec_settles_satcnt hi s
    rw [hn s.satcnt s.hazard ht, hn before Hazard.clear hv,
      settledSatcnt_of_clear (s := { s with satcnt := before, hazard := Hazard.clear }) rfl]
    exact settledSatcnt_le_addSats hbefore n
  · obtain ⟨n, hn, hcount, -⟩ := enc_counts h
    rw [hcount, ← Encoded.sats_eq]
    exact settledSatcnt_le hbefore hn
  · obtain ⟨n, hn, hcount, -⟩ := encbuf_counts hm h
    rw [hcount]
    exact settledSatcnt_le hbefore hn
  · obtain ⟨n, hn, -, hflag⟩ := enc_counts h
    rw [Encoded.sats, hsat, Bool.toNat_false] at hn
    rw [hflag, Nat.le_zero.mp hn, settledSat_zero]
  · obtain ⟨n, hn, -, hflag⟩ := encbuf_counts hm h
    rw [hsat] at hn
    rw [hflag, Nat.le_zero.mp hn, settledSat_zero]

end Sys2Proof.Machine
end
